-- ==== Sys2Proof/Word.lean ====
section
/-!
DEFINITION. The widths of the block (spec/00_scope.md R8, spec/30_encoding.md R70, R71, R83) and the request as it is
presented at a port (spec/10_state.md R32). Every value is an unsigned integer of a stated width.
-/

namespace Sys2Proof

/-- A source byte, an operand field, a tag (R8, R32, R70). -/
abbrev Byte := BitVec 8

/-- A composed word `(tag << 8) | byte`, the unit of buffer storage (R70). -/
abbrev Word := BitVec 16

/-- What the 9-bit link carries of one word (R71). -/
abbrev Frame := BitVec 9

/-- The 24-bit request header `op[23:16] a[15:8] b[7:0]` (R83). -/
abbrev Header := BitVec 24

/-- Format `REQ`: one header and the payload, a list of bytes (R32, R83). -/
structure Request where
  header  : Header
  payload : List Byte
deriving DecidableEq, Repr, Inhabited

/-- The two instances of the Transaction Buffer: the command buffer and the row buffer (R2, R22, R23). -/
inductive BufId
  | cb
  | rb
deriving DecidableEq, Repr, Inhabited

/-- The two levels of the chip-select port; electrical polarity is outside the block (R31). -/
inductive Level
  | inactive
  | active
deriving DecidableEq, Repr, Inhabited

end Sys2Proof
end

