-- ==== Sys2Proof/Config.lean ====
section
/-!
DEFINITION. The configuration record `Cfg` of spec/00_scope.md R6, and the values that the spec leaves to a draw. `Cfg`
is plain data, so that a state can hold it; no rule fixes a field of it, so the session's own record is opaque and every
claim about a state holds for every configuration.
-/

namespace Sys2Proof

/-- The 15 controller commands of spec/30_encoding.md R77, in the order of their ids 0 to 14. -/
inductive CmdId
  | reset | allpts | pwrctl | onoff | comdir | segdir | evol | refresh | chgpump | bias | vop | reverse
  | line | colmsb | collsb
deriving DecidableEq, Repr, Inhabited

/-- The two command shapes: one word, or two words in one transfer (R73, R74). -/
inductive Shape
  | cmd1
  | cmd2
deriving DecidableEq, Repr, Inhabited

/-- "base command byte + argument bit-mask" of one controller command (R5, R6). -/
structure CmdConst where
  base : Byte
  mask : Byte
deriving DecidableEq, Repr, Inhabited

/-- `Cfg.cmd`, the controller command constant table (R6): one entry per command id. -/
structure CmdTable where
  reset   : CmdConst
  allpts  : CmdConst
  pwrctl  : CmdConst
  onoff   : CmdConst
  comdir  : CmdConst
  segdir  : CmdConst
  evol    : CmdConst
  refresh : CmdConst
  chgpump : CmdConst
  bias    : CmdConst
  vop     : CmdConst
  reverse : CmdConst
  line    : CmdConst
  colmsb  : CmdConst
  collsb  : CmdConst
deriving DecidableEq, Repr, Inhabited

/-- `Cfg.initArg`, the argument each bring-up step passes, ids 0 to 11 (R6). -/
structure InitArgs where
  reset   : Byte
  allpts  : Byte
  pwrctl  : Byte
  onoff   : Byte
  comdir  : Byte
  segdir  : Byte
  evol    : Byte
  refresh : Byte
  chgpump : Byte
  bias    : Byte
  vop     : Byte
  reverse : Byte
deriving DecidableEq, Repr, Inhabited

/-- The `legal` predicate of a control-table entry as plain data (DESIGN CHOICE, log entry 13, safe): the default of
spec/45_host_ops.md R200 and R201, or any set of bytes, bit `v` of the table saying whether `v` is legal. -/
inductive Legal
  | upToMask
  | table (bits : BitVec 256)
deriving DecidableEq, Repr, Inhabited

/-- One entry of `Cfg.ctl`: code -> (command, legal arguments) (R6, R199). -/
structure CtlEntry where
  code  : Byte
  cmd   : CmdId
  legal : Legal
deriving DecidableEq, Repr, Inhabited

/-- One entry of the glyph table: the bitmap of one character code, `GW` bytes long (R52). -/
structure GlyphEntry (gw : Nat) where
  code  : Byte
  bytes : Vector Byte gw
deriving DecidableEq, Repr, Inhabited

/-- The line-clear policies, numbered 0 to 3 in this order (spec/10_state.md R26). -/
inductive Policy
  | none
  | clearLeft
  | clearRight
  | clearBoth
deriving DecidableEq, Repr, Inhabited

/-- The configuration record (R6). `CBCAP` is no field: it is fixed at 4. `W >= 1` and `NREQ >= 1` are required, so the
record holds each less one, and a configuration with `W = 0` cannot be written (log entry 2, safe). The glyph table is
the listed codes and one bitmap for all the others, each of `GW` bytes as the platform owes it (R52,
spec/70_reset_and_hazards.md R251; log entry 13). No rule reads `nlines` or `glyphOffset`. -/
structure Cfg where
  wLess1      : Nat
  nrows       : Nat
  nlines      : Nat
  blank       : Byte
  gw          : Nat
  glyphOffset : Byte
  glyphs      : List (GlyphEntry gw)
  glyphElse   : Vector Byte gw
  cmd         : CmdTable
  initArg     : InitArgs
  ctl         : List CtlEntry
  policy0     : Policy
  nreqLess1   : Nat
deriving DecidableEq, Repr, Inhabited

/-- `W`, the capacity of the row buffer and the number of pixel columns of one controller row (R6, R7). -/
def Cfg.w (c : Cfg) : Nat := c.wLess1 + 1

/-- `NREQ`, the number of requesters (R6). -/
def Cfg.nreq (c : Cfg) : Nat := c.nreqLess1 + 1

/-- `CBCAP`, the capacity of the command buffer: "a single command buffer of 4 words" (R6). -/
def cbCap : Nat := 4

/-- The configuration of this session: complete, constant and not known to the model (R6, R251; log entry 1). -/
opaque Config.session : Cfg

/-- FREE VALUE: the word that storage slot `i` of a buffer holds after reset (R38, U1: "one draw per word; never zero by
default"; log entry 3, safe). -/
opaque Config.resetWord : BufId → Nat → Word

/-- FREE VALUE: the answer of the transport to the `n`-th drawn transport call (R30, U3: "a draw at every call, under no
law"; log entry 4, safe). -/
opaque Config.transportAnswer : Nat → Bool

/-- FREE VALUE: the `n`-th drawn choice among the agents that have a step (R190, U4; log entry 5, safe). -/
opaque Config.agentChoice : Nat → Nat

end Sys2Proof
end

