-- ==== Sys2Proof/Machine/Operands.lean ====
section
/-!
DEFINITION. Operand forms: how a word is composed of a tag and a byte, how a command's words are made of its constants
and its argument, and how a configuration table is read (spec/30_encoding.md R70 to R79, spec/20_memory.md R52).
-/

namespace Sys2Proof

/-- The shape of each command (R77): compound for refresh rate, charge pump and VOP, simple for the others. -/
def CmdId.shape : CmdId → Shape
  | .refresh | .chgpump | .vop => .cmd2
  | .reset | .allpts | .pwrctl | .onoff | .comdir | .segdir | .evol | .bias | .reverse | .line | .colmsb | .collsb => .cmd1

/-- The constants of a command, read from the static lookup table (R5, R77). -/
def CmdTable.get (t : CmdTable) : CmdId → CmdConst
  | .reset => t.reset
  | .allpts => t.allpts
  | .pwrctl => t.pwrctl
  | .onoff => t.onoff
  | .comdir => t.comdir
  | .segdir => t.segdir
  | .evol => t.evol
  | .refresh => t.refresh
  | .chgpump => t.chgpump
  | .bias => t.bias
  | .vop => t.vop
  | .reverse => t.reverse
  | .line => t.line
  | .colmsb => t.colmsb
  | .collsb => t.collsb

/-- `Cfg.cmd(c)` (R6). -/
def Cfg.const (c : Cfg) (id : CmdId) : CmdConst := c.cmd.get id

/-- Format `W16` (R70): `(tag << 8) | byte`. -/
def composeWord (tag byte : Byte) : Word := (tag.setWidth 16 <<< 8) ||| byte.setWidth 16

/-- The tag field of a word, bits 15:8 (R70). -/
def wordTag (w : Word) : Byte := w.extractLsb' 8 8

/-- The source byte of a word, bits 7:0 (R70). -/
def wordByte (w : Word) : Byte := w.extractLsb' 0 8

/-- Format `F9` (R71): the link carries the low nine bits of a word. -/
def frameOf (w : Word) : Frame := w.extractLsb' 0 9

/-- The ninth bit of a frame: set for a data frame, clear for a command frame (R71). -/
def Frame.isData (f : Frame) : Bool := f.getLsbD 8

/-- The tag of every command word (R72). -/
def commandTag : Byte := 0x00#8

/-- The tag of every data word (R72, R78). -/
def dataTag : Byte := 0x01#8

/-- Format `CMD1` (R73, R75): `base | (arg & mask)`, even where base and mask overlap. -/
def simpleByte (k : CmdConst) (arg : Byte) : Byte := k.base ||| (arg &&& k.mask)

/-- Format `CMD2` (R74, R75): the base verbatim, then `arg & mask`, not combined with the base. -/
def compoundBytes (k : CmdConst) (arg : Byte) : List Byte := [k.base, arg &&& k.mask]

/-- The bytes of one command, by its shape (R73, R74). -/
def commandBytes (c : Cfg) (id : CmdId) (arg : Byte) : List Byte :=
  match id.shape with
  | .cmd1 => [simpleByte (c.const id) arg]
  | .cmd2 => compoundBytes (c.const id) arg

/-- The argument of the column-MSB command of the cursor sequence (R76): a logical shift, 0 to 15. -/
def columnHigh (x : Byte) : Byte := x >>> 4

/-- One blank row, or part of one: `n` bytes `BLANK` (R78, R154, R182). -/
def blanks (c : Cfg) (n : Nat) : List Byte := List.replicate n c.blank

/-- The columns that ClearRight blanks: `W -. col`, the saturating subtraction of R8 (R182). -/
def columnsRight (c : Cfg) (col : Byte) : Nat := c.w - col.toNat

/-- `Glyph(c)` (R52): total on all codes and `GW` bytes long for each; the offset and the range are inside the table. -/
def Cfg.glyph (c : Cfg) (code : Byte) : List Byte :=
  match c.glyphs.find? (fun g => g.code == code) with
  | some g => g.bytes.toList
  | none => c.glyphElse.toList

/-- `Cfg.ctl(code)` (R199). -/
def Cfg.ctlEntry (c : Cfg) (code : Byte) : Option CtlEntry := c.ctl.find? (fun e => e.code == code)

/-- `e.legal(arg)` (R199); the default accepts what the command's own mask can carry (R200, R201). -/
def Cfg.isLegal (c : Cfg) (e : CtlEntry) (arg : Byte) : Bool :=
  match e.legal with
  | .upToMask => decide (arg.toNat ≤ (c.const e.cmd).mask.toNat)
  | .table bits => bits.getLsbD arg.toNat

/-- The default control table: 0x00 CONTRAST, 0x01 REFRESH (R84, R200, R201). -/
def defaultCtl : List CtlEntry := [⟨0x00#8, .evol, .upToMask⟩, ⟨0x01#8, .refresh, .upToMask⟩]

/-- The last line of the range (R166, R167): when `last < first`, compared unsigned, exactly `first` is cleared. -/
def rangeEnd (first last : Byte) : Byte := if last.toNat < first.toNat then first else last

/-- The lines a line-range clear visits: `end - start + 1` of them, 1 to 256, counted and never wrapped (R79, R166). -/
def clearedLines (first last : Byte) : List Byte :=
  (List.range ((rangeEnd first last).toNat - first.toNat + 1)).map fun j => BitVec.ofNat 8 (first.toNat + j)

/-- The number of a policy on the request port (spec/10_state.md R26). -/
def Policy.code : Policy → BitVec 2
  | .none => 0
  | .clearLeft => 1
  | .clearRight => 2
  | .clearBoth => 3

/-- Default bring-up arguments (R6, D20): off is 0, on is 1, power control the largest value its mask passes; the
arguments of EVOL, REFRESH, CHGPUMP, BIAS and VOP have no default and are supplied. -/
def InitArgs.defaults (t : CmdTable) (evol refresh chgpump bias vop : Byte) : InitArgs :=
  ⟨0, 0, t.pwrctl.mask, 1, 0, 0, evol, refresh, chgpump, bias, vop, 0⟩

end Sys2Proof
end

