-- ==== Sys2Proof/Syntax.lean ====
section
/-!
DEFINITION. The operations of spec/opcode_table.json, one constructor per row: host operations (spec/30_encoding.md R84),
pseudo-operations (R88), micro-operations (R85) and the named controller commands (R88, spec/41_command_encoder.md R130
to R144).
-/

namespace Sys2Proof

/-- One constructor per row of the opcode table; operand names and order as in R84, R85 and R88. -/
inductive Instr
  -- host operations (R84)
  | opInit
  | opSetcursor (x y : Byte)
  | opWrite (bytes : List Byte)
  | opClearall
  | opClearlines (first last : Byte)
  | opDrawtext (line col : Byte) (text : List Byte)
  | opCtl (code arg : Byte)
  -- pseudo-operations (R88)
  | ctlContrast (v : Byte)
  | ctlRefresh (v : Byte)
  | opClearline (n : Byte)
  -- micro-operations (R85)
  | bufErase (buf : BufId)
  | bufReset (buf : BufId)
  | bufPush (buf : BufId) (tag : Byte) (src : List Byte)
  | bufPop (buf : BufId) (n : Nat)
  | sel (level : Level)
  | xfer (buf : BufId)
  | cmdSimple (c : CmdId) (arg : Byte)
  | cmdCompound (c : CmdId) (arg : Byte)
  | cursor (x y : Byte)
  | wrdata (bytes : List Byte)
  | fillrow
  | clearallBody
  | clearlinesBody (first last : Byte)
  | drawtextBody (line col : Byte) (text : List Byte)
  | lockAcq
  | lockRel
  -- named controller commands (R88, R130 to R144)
  | lcdReset (arg : Byte)
  | lcdAllpts (arg : Byte)
  | lcdPwrctl (arg : Byte)
  | lcdOnoff (arg : Byte)
  | lcdComdir (arg : Byte)
  | lcdSegdir (arg : Byte)
  | lcdEvol (arg : Byte)
  | lcdRefresh (arg : Byte)
  | lcdChgpump (arg : Byte)
  | lcdBias (arg : Byte)
  | lcdVop (arg : Byte)
  | lcdReverse (arg : Byte)
  | lcdLine (arg : Byte)
  | lcdColmsb (arg : Byte)
  | lcdCollsb (arg : Byte)
deriving DecidableEq, Repr, Inhabited

end Sys2Proof
end

