-- ==== Sys2Proof/WellFormed.lean ====
section
/-!
DEFINITION. Which terms of `Instr` are operations of the block: payloads shorter than 65536 bytes (spec/30_encoding.md
R83), a pop count that fits its 8-bit field (R85), a command id of the shape its micro-operation takes (R86).
-/

namespace Sys2Proof

/-- A payload of a request has `0 <= plen < 65536` bytes (R83). -/
def payloadFits (bytes : List Byte) : Bool := decide (bytes.length < 65536)

/-- What the encodings of R83 to R86 can say of each operation. -/
def Instr.wellFormed : Instr → Bool
  | .opWrite bytes => payloadFits bytes
  | .opDrawtext _ _ text => payloadFits text
  | .bufPush _ _ src => payloadFits src
  | .bufPop _ n => decide (n < 256)
  | .cmdSimple c _ => c.shape == .cmd1
  | .cmdCompound c _ => c.shape == .cmd2
  | .wrdata bytes => payloadFits bytes
  | .drawtextBody _ _ text => payloadFits text
  | .opInit | .opSetcursor .. | .opClearall | .opClearlines .. | .opCtl .. | .ctlContrast _ | .ctlRefresh _
  | .opClearline _ | .bufErase _ | .bufReset _ | .sel _ | .xfer _ | .cursor .. | .fillrow | .clearallBody
  | .clearlinesBody .. | .lockAcq | .lockRel | .lcdReset _ | .lcdAllpts _ | .lcdPwrctl _ | .lcdOnoff _
  | .lcdComdir _ | .lcdSegdir _ | .lcdEvol _ | .lcdRefresh _ | .lcdChgpump _ | .lcdBias _ | .lcdVop _
  | .lcdReverse _ | .lcdLine _ | .lcdColmsb _ | .lcdCollsb _ => true

end Sys2Proof
end

