-- ==== Sys2Proof/Decode.lean ====
section
/-!
DEFINITION. From a request to an operation (spec/30_encoding.md R83 to R86), total and refusing by name, and back.
A word that has a name of its own (R88) decodes to that name: `0x0700vv` to CTL.CONTRAST, `0x0701vv` to CTL.REFRESH,
`0x05nnnn` with equal operands to OP.CLEARLINE, `0x86iivv` and `0x87iivv` to the LCD.<name> of id `ii`
(DESIGN CHOICE, log entry 7, safe: the name and the operation it is short for have one meaning).
-/

namespace Sys2Proof

/-- Why a request is refused (R86). -/
inductive DecodeError
  /-- `op` 0x00, 0x08..0x7F or 0x90..0xFF spells no operation. -/
  | undefinedOp
  /-- `op` 0x80..0x8F is not accepted from a requester. -/
  | microOperation
  /-- `buf > 1`. -/
  | badBuffer
  /-- `SEL` with `level > 1`. -/
  | badLevel
  /-- `cmdId` 15..255 names no command. -/
  | badCommandId
  /-- CMD.SIMPLE with a `CMD2` id, or CMD.COMPOUND with a `CMD1` id. -/
  | wrongShape
  /-- A payload of 65536 bytes or more (R83). -/
  | payloadTooLong
deriving DecidableEq, Repr, Inhabited

/-- Header bits 23:16 (R83). -/
def headerOp (h : Header) : Byte := h.extractLsb' 16 8

/-- Header bits 15:8 (R83). -/
def headerA (h : Header) : Byte := h.extractLsb' 8 8

/-- Header bits 7:0 (R83). -/
def headerB (h : Header) : Byte := h.extractLsb' 0 8

/-- The header of an operation code and its two operand fields (R83). -/
def makeHeader (op a b : Byte) : Header := (op ++ a ++ b : BitVec (8 + 8 + 8))

/-- The id of a command (R77). -/
def CmdId.code : CmdId → Byte
  | .reset => 0
  | .allpts => 1
  | .pwrctl => 2
  | .onoff => 3
  | .comdir => 4
  | .segdir => 5
  | .evol => 6
  | .refresh => 7
  | .chgpump => 8
  | .bias => 9
  | .vop => 10
  | .reverse => 11
  | .line => 12
  | .colmsb => 13
  | .collsb => 14

/-- The command an id names, if any (R77, R86). -/
def CmdId.ofCode (b : Byte) : Except DecodeError CmdId :=
  match b.toNat with
  | 0 => .ok .reset
  | 1 => .ok .allpts
  | 2 => .ok .pwrctl
  | 3 => .ok .onoff
  | 4 => .ok .comdir
  | 5 => .ok .segdir
  | 6 => .ok .evol
  | 7 => .ok .refresh
  | 8 => .ok .chgpump
  | 9 => .ok .bias
  | 10 => .ok .vop
  | 11 => .ok .reverse
  | 12 => .ok .line
  | 13 => .ok .colmsb
  | 14 => .ok .collsb
  | _ => .error .badCommandId

/-- `buf` is 0 for `CB`, 1 for `RB` (R85); other values are refused (R86). -/
def BufId.ofCode (b : Byte) : Except DecodeError BufId :=
  match b.toNat with
  | 0 => .ok .cb
  | 1 => .ok .rb
  | _ => .error .badBuffer

/-- The `buf` field (R85). -/
def BufId.code : BufId → Byte
  | .cb => 0
  | .rb => 1

/-- `level` is 0 for inactive, 1 for active (R85, R120); other values are refused (R86). -/
def Level.ofCode (b : Byte) : Except DecodeError Level :=
  match b.toNat with
  | 0 => .ok .inactive
  | 1 => .ok .active
  | _ => .error .badLevel

/-- The `level` field (R85). -/
def Level.code : Level → Byte
  | .inactive => 0
  | .active => 1

/-- `LCD.<name> arg` (R88). -/
def CmdId.named (c : CmdId) (arg : Byte) : Instr :=
  match c with
  | .reset => .lcdReset arg
  | .allpts => .lcdAllpts arg
  | .pwrctl => .lcdPwrctl arg
  | .onoff => .lcdOnoff arg
  | .comdir => .lcdComdir arg
  | .segdir => .lcdSegdir arg
  | .evol => .lcdEvol arg
  | .refresh => .lcdRefresh arg
  | .chgpump => .lcdChgpump arg
  | .bias => .lcdBias arg
  | .vop => .lcdVop arg
  | .reverse => .lcdReverse arg
  | .line => .lcdLine arg
  | .colmsb => .lcdColmsb arg
  | .collsb => .lcdCollsb arg

/-- The operation under the most particular name R88 gives it; both have one encoding. -/
def Instr.named : Instr → Instr
  | .opCtl code arg => if code = 0x00#8 then .ctlContrast arg else if code = 0x01#8 then .ctlRefresh arg else .opCtl code arg
  | .opClearlines first last => if first = last then .opClearline first else .opClearlines first last
  | .cmdSimple c arg => if c.shape = .cmd1 then c.named arg else .cmdSimple c arg
  | .cmdCompound c arg => if c.shape = .cmd2 then c.named arg else .cmdCompound c arg
  | i => i

/-- A command micro-operation: its id must name a command of the shape asked for (R86). -/
def decodeCommand (shape : Shape) (id arg : Byte) : Except DecodeError Instr :=
  match CmdId.ofCode id with
  | .error e => .error e
  | .ok c => if c.shape = shape then .ok (c.named arg) else .error .wrongShape

/-- An operation with a payload (R83, R84, R85). -/
def decodePayload (payload : List Byte) (i : Instr) : Except DecodeError Instr :=
  if payloadFits payload then .ok i else .error .payloadTooLong

/-- The operation that a request names (R84, R85), or why it is refused (R86). Unused operand fields, and the payload of
an operation that takes none, are ignored (R83). -/
def decode (r : Request) : Except DecodeError Instr :=
  let a := headerA r.header
  let b := headerB r.header
  match (headerOp r.header).toNat with
  | 0x01 => .ok .opInit
  | 0x02 => .ok (.opSetcursor a b)
  | 0x03 => decodePayload r.payload (.opWrite r.payload)
  | 0x04 => .ok .opClearall
  | 0x05 => .ok (Instr.opClearlines a b).named
  | 0x06 => decodePayload r.payload (.opDrawtext a b r.payload)
  | 0x07 => .ok (Instr.opCtl a b).named
  | 0x80 => (BufId.ofCode a).map .bufErase
  | 0x81 => (BufId.ofCode a).map .bufReset
  | 0x82 => (BufId.ofCode a).bind fun buf => decodePayload r.payload (.bufPush buf b r.payload)
  | 0x83 => (BufId.ofCode a).map fun buf => .bufPop buf b.toNat
  | 0x84 => (Level.ofCode a).map .sel
  | 0x85 => (BufId.ofCode a).map .xfer
  | 0x86 => decodeCommand .cmd1 a b
  | 0x87 => decodeCommand .cmd2 a b
  | 0x88 => .ok (.cursor a b)
  | 0x89 => decodePayload r.payload (.wrdata r.payload)
  | 0x8A => .ok .fillrow
  | 0x8B => .ok .clearallBody
  | 0x8C => .ok (.clearlinesBody a b)
  | 0x8D => decodePayload r.payload (.drawtextBody a b r.payload)
  | 0x8E => .ok .lockAcq
  | 0x8F => .ok .lockRel
  | _ => .error .undefinedOp

/-- What the request port of a requester accepts: host operations alone, `op[7] = 0` (R83, R86). -/
def decodeHost (r : Request) : Except DecodeError Instr :=
  if (headerOp r.header).getLsbD 7 then
    (if (headerOp r.header).toNat < 0x90 then .error .microOperation else .error .undefinedOp)
  else decode r

/-- A request without a payload. -/
def plainRequest (op a b : Byte) : Request := ⟨makeHeader op a b, []⟩

/-- The request of an operation (R84, R85, R88); ignored operand fields are 0. -/
def encode : Instr → Request
  | .opInit => plainRequest 0x01 0 0
  | .opSetcursor x y => plainRequest 0x02 x y
  | .opWrite bytes => ⟨makeHeader 0x03 0 0, bytes⟩
  | .opClearall => plainRequest 0x04 0 0
  | .opClearlines first last => plainRequest 0x05 first last
  | .opDrawtext line col text => ⟨makeHeader 0x06 line col, text⟩
  | .opCtl code arg => plainRequest 0x07 code arg
  | .ctlContrast v => plainRequest 0x07 0x00 v
  | .ctlRefresh v => plainRequest 0x07 0x01 v
  | .opClearline n => plainRequest 0x05 n n
  | .bufErase buf => plainRequest 0x80 buf.code 0
  | .bufReset buf => plainRequest 0x81 buf.code 0
  | .bufPush buf tag src => ⟨makeHeader 0x82 buf.code tag, src⟩
  | .bufPop buf n => plainRequest 0x83 buf.code (BitVec.ofNat 8 n)
  | .sel level => plainRequest 0x84 level.code 0
  | .xfer buf => plainRequest 0x85 buf.code 0
  | .cmdSimple c arg => plainRequest 0x86 c.code arg
  | .cmdCompound c arg => plainRequest 0x87 c.code arg
  | .cursor x y => plainRequest 0x88 x y
  | .wrdata bytes => ⟨makeHeader 0x89 0 0, bytes⟩
  | .fillrow => plainRequest 0x8A 0 0
  | .clearallBody => plainRequest 0x8B 0 0
  | .clearlinesBody first last => plainRequest 0x8C first last
  | .drawtextBody line col text => ⟨makeHeader 0x8D line col, text⟩
  | .lockAcq => plainRequest 0x8E 0 0
  | .lockRel => plainRequest 0x8F 0 0
  | .lcdReset arg => plainRequest 0x86 0x00 arg
  | .lcdAllpts arg => plainRequest 0x86 0x01 arg
  | .lcdPwrctl arg => plainRequest 0x86 0x02 arg
  | .lcdOnoff arg => plainRequest 0x86 0x03 arg
  | .lcdComdir arg => plainRequest 0x86 0x04 arg
  | .lcdSegdir arg => plainRequest 0x86 0x05 arg
  | .lcdEvol arg => plainRequest 0x86 0x06 arg
  | .lcdRefresh arg => plainRequest 0x87 0x07 arg
  | .lcdChgpump arg => plainRequest 0x87 0x08 arg
  | .lcdBias arg => plainRequest 0x86 0x09 arg
  | .lcdVop arg => plainRequest 0x87 0x0A arg
  | .lcdReverse arg => plainRequest 0x86 0x0B arg
  | .lcdLine arg => plainRequest 0x86 0x0C arg
  | .lcdColmsb arg => plainRequest 0x86 0x0D arg
  | .lcdCollsb arg => plainRequest 0x86 0x0E arg

/-- The request whose header is the opcode table's number `w`, with an empty payload. -/
def tableRequest (nbits w : Nat) : Request := ⟨BitVec.ofNat 24 (w % 2 ^ nbits), []⟩

/-- The operation this decoder reads from the table's number `w` of `nbits` bits. -/
def decodeTableWord (nbits w : Nat) : Option Instr := (decode (tableRequest nbits w)).toOption

end Sys2Proof
end

