-- ==== Sys2Proof/Machine/State.lean ====
section
/-!
DEFINITION. The state record `S` of spec/10_state.md R20, and with it what the spec does not count as state: the
configuration, which never changes, and the model's inputs (requests to come, answers to come, choices to come, the
harness port). All of it is plain data. The ways a step can stop stand at the end, with the state after reset.
-/

namespace Sys2Proof.Machine

/-- A Transaction Buffer (R21): `len` valid words and the storage; its capacity is the number of slots of the storage. -/
structure Buf where
  len : Nat
  st  : List Word
deriving DecidableEq, Repr, Inhabited

/-- The session lock, `t` being the ghost owner (R27). -/
inductive Lock
  | free
  | held (t : Nat)
deriving DecidableEq, Repr, Inhabited

/-- The ghost `CUR`: the operands of the last completed CURSOR, as given (R28). -/
structure CursorPos where
  row : Byte
  col : Byte
deriving DecidableEq, Repr, Inhabited

/-- The four status codes of spec/60_exceptions.md R220. -/
inductive Status
  | ok
  | fail
  | argRange
  | notFound
deriving DecidableEq, Repr, Inhabited

/-- The event alphabet of the observation trace (R33). -/
inductive Event
  | acq (t : Nat)
  | rel (t : Nat)
  | sel (level : Level)
  | xfer (words : List Word) (ok : Bool)
  | ret (t : Nat) (status : Status)
deriving DecidableEq, Repr, Inhabited

/-- A host operation with its operand latches (R29, R32; spec/30_encoding.md R84). -/
inductive HostOp
  | init
  | setCursor (x y : Byte)
  | write (bytes : List Byte)
  | clearAll
  | clearLines (first last : Byte)
  | drawText (line col : Byte) (text : List Byte)
  | ctl (code arg : Byte)
deriving DecidableEq, Repr, Inhabited

/-- A step of a sequence that cannot raise: buffer operations, chip-select, recording the cursor, the lock, the return
(spec/60_exceptions.md R230, R241). -/
inductive Prim
  | reset (b : BufId)
  | push (b : BufId) (tag : Byte) (src : List Byte)
  | sel (level : Level)
  | latch (row col : Byte)
  | acq
  | rel
  | ret (status : Status)
deriving DecidableEq, Repr, Inhabited

/-- A step of a sequence. A transfer carries its abnormal end: the steps that are run in place of the rest of the
sequence when the transport answers failure (spec/60_exceptions.md R224). -/
inductive Item
  | prim (p : Prim)
  | xfer (b : BufId) (onFail : List Prim)
deriving DecidableEq, Repr, Inhabited

/-- `REQ[t]` (R29). `k` counts the micro-operations run since the first Acquire, `rest` are those to come
(DESIGN CHOICE, log entry 8, safe). `waiting` stands at an Acquire. -/
inductive Ctl
  | idle
  | waiting (op : HostOp) (k : Nat) (rest : List Item)
  | running (op : HostOp) (k : Nat) (rest : List Item)
  | done (op : HostOp) (status : Status)
deriving DecidableEq, Repr, Inhabited

/-- A requester: its control record, the requests it has yet to issue, and the list of requests that it goes on to issue
again and again when these are used up (R29, R32; inputs, log entry 6). With an empty `forever` the requests come to an
end; without, the run does not (spec/70_reset_and_hazards.md R267, R271). -/
structure Requester where
  ctl     : Ctl
  todo    : List Request
  forever : List Request
deriving DecidableEq, Repr, Inhabited

/-- The environment's inputs (log entries 4 and 5): answers to the coming transport calls, whether the transport never
answers after them, choices among the agents that have a step, the choices that are made again and again when these are
used up (none: free values), and how many free values have been drawn. -/
structure Env where
  answers        : List Bool
  silent         : Bool
  choices        : List Nat
  choicesForever : List Nat
  drawn          : Nat
deriving DecidableEq, Repr, Inhabited

/-- What the last micro-operation presented at the harness port returned (log entry 18). -/
inductive Result
  | nothing
  | count (n : Nat)
  | answer (ok : Bool)
  | failed
deriving DecidableEq, Repr, Inhabited

end Sys2Proof.Machine

namespace Sys2Proof.Machine

/-- The machine: `cb` to `trace` are the spec's record `S` (R20); `cfg` is `Cfg`, which never changes; `env`, `port`,
`who` and `result` are the model's own. -/
structure State where
  cfg    : Cfg
  cb     : Buf
  rb     : Buf
  policy : Policy
  lock   : Lock
  cs     : Level
  cur    : Option CursorPos
  reqs   : List Requester
  trace  : List Event
  env    : Env
  port   : Option Request
  who    : Nat
  result : Result
deriving DecidableEq, Repr, Inhabited

/-- Why the machine stops. -/
inductive Fault
  /-- Raised by `step` when a requester waits or runs and no agent has a step (spec/70_reset_and_hazards.md R271): a
  self-deadlock (R256) or a transport that never answers (R262). Safe. -/
  | stuck
  /-- Raised by `exec` of LOCK.ACQ while the lock is held: the step is not enabled (spec/45_host_ops.md R190). Safe. -/
  | lockHeld
  /-- Raised by `exec` of a micro-operation whose transport call is never answered (R262, U8). Safe. -/
  | transportSilent
deriving DecidableEq, Repr, Inhabited

/-- Why an operation is refused. -/
inductive Refusal
  /-- Answered by `exec` for an instruction that has no meaning yet. Safe. -/
  | notModelled (mnemonic : String)
  /-- Answered by `step` for a request at the harness port that spells no operation (spec/30_encoding.md R86). Safe. -/
  | undecodable (e : DecodeError)
  /-- Answered by CMD.SIMPLE and CMD.COMPOUND for an id of the other shape (R86, U16). Safe. -/
  | wrongShape
  /-- Answered by LOCK.REL when the requester does not hold the lock (spec/45_host_ops.md R191, U15). Safe. -/
  | notHolder
  /-- Answered by a host operation or LOCK.ACQ for a requester id outside `0 .. NREQ-1` (R11). Safe. -/
  | noSuchRequester
  /-- Answered by a host operation of a requester that has one outstanding (R29, D32). Safe. -/
  | requesterBusy
deriving DecidableEq, Repr, Inhabited

/-- A requester that has issued nothing (R38). -/
def Requester.atReset : Requester := ⟨.idle, [], []⟩

/-- An environment of which nothing is known: no answer and no choice is given beforehand (log entries 4 and 5). -/
def Env.atReset : Env := ⟨[], false, [], [], 0⟩

/-- A buffer of capacity `cap` after reset: length 0, storage as given, slot by slot (R38). -/
def Buf.atReset (cap : Nat) (slot : Nat → Word) : Buf := ⟨0, (List.range cap).map slot⟩

/-- Session setup with a configuration and the reset contents of the storages (R38, spec/70_reset_and_hazards.md R250). -/
def State.resetWith (c : Cfg) (slot : BufId → Nat → Word) : State where
  cfg := c
  cb := Buf.atReset cbCap (slot .cb)
  rb := Buf.atReset c.w (slot .rb)
  policy := c.policy0
  lock := .free
  cs := .inactive
  cur := none
  reqs := List.replicate c.nreq Requester.atReset
  trace := []
  env := Env.atReset
  port := none
  who := 0
  result := .nothing

/-- The machine right after reset (R38, R250): this session's configuration, storage words drawn freely. -/
def State.reset : State := State.resetWith Config.session Config.resetWord

end Sys2Proof.Machine
end

