-- ==== Sys2Proof/Machine/Flags.lean ====
section
/-!
DEFINITION. The block has no flags and no condition codes (spec/10_state.md R35): no operation sets a status flag that a
later one reads. What stands in their place is the status that a host operation returns (spec/60_exceptions.md R220) and
how a sequence ended, which is computed here.
-/

namespace Sys2Proof.Machine

/-- The 2-bit number of a status (R220). -/
def Status.code : Status → BitVec 2
  | .ok => 0
  | .fail => 1
  | .argRange => 2
  | .notFound => 3

/-- How the run of a sequence ended: after its last step, by its abnormal end, by returning a status to its requester, or
not at all, at a transport call that is never answered (spec/70_reset_and_hazards.md R262). -/
inductive Ending
  | completed
  | failed
  | returned (status : Status)
  | stalled
deriving DecidableEq, Repr, Inhabited

/-- What the harness is told of a micro-operation that ended so (spec/41_command_encoder.md R122 "raise Fail"). -/
def Ending.result : Ending → Result
  | .completed => .nothing
  | .failed => .failed
  | .returned _ => .nothing
  | .stalled => .nothing

/-- The status that a step returns to the requester, if it is the return (spec/45_host_ops.md R192). -/
def Prim.status? : Prim → Option Status
  | .ret status => some status
  | .reset _ | .push .. | .sel _ | .latch .. | .acq | .rel => none

end Sys2Proof.Machine
end

