-- ==== Sys2Proof/Machine/Ops.lean ====
section
/-!
DEFINITION. The named operations that the sequences are made of: the Transaction Buffer (spec/40_buffer_ops.md R100 to
R104), the ports (spec/10_state.md R30, R31, R33), the lock (spec/45_host_ops.md R190, R191), running a sequence, its
abnormal end (spec/60_exceptions.md R224) and the host wrapper (spec/45_host_ops.md R192).
-/

namespace Sys2Proof.Machine

/-! ### The Transaction Buffer -/

/-- `B.cap`, constant over the session (R21, R25). -/
def Buf.cap (b : Buf) : Nat := b.st.length

/-- `MemRead(B, i)` (spec/20_memory.md R51); no rule reads an index outside the storage, where this gives 0. -/
def Buf.read (b : Buf) (i : Nat) : Word := b.st.getD i 0

/-- Storage with the words of a list written from index `i` on, one slot after the other (`MemWrite`, R51). -/
def writeFrom (i : Nat) : List Word → List Word → List Word
  | [], st => st
  | w :: ws, st => writeFrom (i + 1) ws (st.set i w)

/-- The words that a transfer of the buffer carries: "length gates visibility" (R24, spec/41_command_encoder.md R121). -/
def Buf.valid (b : Buf) : List Word := b.st.take b.len

/-- BUF.ERASE (R100): 0 in every slot, length 0. -/
def Buf.erase (b : Buf) : Buf := ⟨0, List.replicate b.cap 0⟩

/-- BUF.RESET (R101): length 0, storage untouched. -/
def Buf.reset (b : Buf) : Buf := ⟨0, b.st⟩

/-- The count that BUF.PUSH appends and returns (R102). -/
def Buf.pushCount (b : Buf) (src : List Byte) : Nat := min src.length (b.cap - b.len)

/-- BUF.PUSH (R102): composed words from the current length on, silently truncated at the capacity. -/
def Buf.push (b : Buf) (tag : Byte) (src : List Byte) : Buf :=
  ⟨b.len + b.pushCount src, writeFrom b.len ((src.take (b.pushCount src)).map (composeWord tag)) b.st⟩

/-- The count that BUF.POP removes and returns (R103). -/
def Buf.popCount (b : Buf) (n : Nat) : Nat := min n b.len

/-- BUF.POP (R103): the removed tail slots, and no others, become 0. -/
def Buf.pop (b : Buf) (n : Nat) : Buf :=
  ⟨b.len - b.popCount n, writeFrom (b.len - b.popCount n) (List.replicate (b.popCount n) 0) b.st⟩

/-- The form every storage keeps (R21, R25): `len` at most the capacity, and the capacity as constructed. -/
def Buf.wf (b : Buf) (cap : Nat) : Bool := b.st.length == cap && decide (b.len ≤ cap)

/-- The canonical form of the block's two storages (R20 to R23): 4 slots and `W` slots. -/
def Memory.wf (s : State) : Bool := s.cb.wf cbCap && s.rb.wf s.cfg.w

/-! ### Fields of the state -/

/-- The buffer that `buf` names (spec/30_encoding.md R85). -/
def State.buf (s : State) : BufId → Buf
  | .cb => s.cb
  | .rb => s.rb

/-- The state with one buffer replaced. -/
def State.setBuf (s : State) (b : BufId) (v : Buf) : State :=
  match b with
  | .cb => { s with cb := v }
  | .rb => { s with rb := v }

/-- `emit(e)` (spec/00_scope.md R9, R33). -/
def State.emit (s : State) (e : Event) : State := { s with trace := s.trace ++ [e] }

/-- The state with the control record of requester `t` replaced (R29). -/
def State.setCtl (s : State) (t : Nat) (c : Ctl) : State :=
  { s with reqs := s.reqs.modify t fun q => { q with ctl := c } }

/-- The state with another environment. -/
def State.setEnv (s : State) (e : Env) : State := { s with env := e }

/-- The state with the harness told what its operation returned. -/
def State.setResult (s : State) (r : Result) : State := { s with result := r }

/-- `REQ[t]`, for a requester that exists (R29). -/
def State.ctl? (s : State) (t : Nat) : Option Ctl := s.reqs[t]?.map Requester.ctl

/-! ### Ports, cursor and lock -/

/-- SEL (R120): drives the port, records the level, emits the event, whatever the level was. -/
def State.select (s : State) (level : Level) : State := { s with cs := level }.emit (.sel level)

/-- The answer to the next transport call and the environment after it; `none` when it never comes (R30, R262). -/
def Env.answer (e : Env) : Option (Bool × Env) :=
  match e.answers with
  | a :: rest => some (a, { e with answers := rest })
  | [] => if e.silent then none else some (Config.transportAnswer e.drawn, { e with drawn := e.drawn + 1 })

/-- XFER (R121): one transport call with the valid words, in index order; the buffer is not changed and chip-select is
not looked at. -/
def State.transfer (s : State) (b : BufId) : Option (Bool × State) :=
  match s.env.answer with
  | some (ok, env) => some (ok, (s.setEnv env).emit (.xfer (s.buf b).valid ok))
  | none => none

/-- `CUR <- (row, col)` (spec/42_cursor_and_data.md R150). -/
def State.latch (s : State) (row col : Byte) : State := { s with cur := some ⟨row, col⟩ }

/-- The effect of a granted `Acquire(t)` (R190). -/
def State.acquire (s : State) (t : Nat) : State := { s with lock := .held t }.emit (.acq t)

/-- The effect of `Release(t)` (R191). -/
def State.release (s : State) (t : Nat) : State := { s with lock := .free }.emit (.rel t)

/-! ### Running a sequence -/

/-- One step of a sequence that cannot raise, run for requester `t`. -/
def Prim.apply (p : Prim) (t : Nat) (s : State) : State :=
  match p with
  | .reset b => s.setBuf b (s.buf b).reset
  | .push b tag src => s.setBuf b ((s.buf b).push tag src)
  | .sel level => s.select level
  | .latch row col => s.latch row col
  | .acq => s.acquire t
  | .rel => s.release t
  | .ret status => s.emit (.ret t status)

/-- Where a run stands when it ends: the state, the steps taken, the steps left and the ending. -/
structure RunEnd where
  state  : State
  steps  : Nat
  rest   : List Item
  ending : Ending
deriving DecidableEq, Repr, Inhabited

/-- THE ABNORMAL END (R224): the steps that stand in place of the rest of the sequence, run to their end. No step of it
can raise (R230); nothing is saved, restored or undone. -/
def runExit (t : Nat) : Nat → List Prim → State → RunEnd
  | k, [], s => ⟨s, k, [], .failed⟩
  | k, p :: ps, s =>
    match p.status? with
    | some status => ⟨p.apply t s, k + 1, ps.map .prim, .returned status⟩
    | none => runExit t (k + 1) ps (p.apply t s)

/-- A sequence run for requester `t` without another agent's step in between, from step number `k` on (spec/00_scope.md
R10): to its end, to the end of the exit path of its first failing transfer, or to a call that is never answered. -/
def run (t : Nat) : Nat → List Item → State → RunEnd
  | k, [], s => ⟨s, k, [], .completed⟩
  | k, .prim p :: rest, s =>
    match p.status? with
    | some status => ⟨p.apply t s, k + 1, rest, .returned status⟩
    | none => run t (k + 1) rest (p.apply t s)
  | k, .xfer b onFail :: rest, s =>
    match s.transfer b with
    | some (true, s') => run t (k + 1) rest s'
    | some (false, s') => runExit t (k + 1) onFail s'
    | none => ⟨s, k, .xfer b onFail :: rest, .stalled⟩

/-- The close of an open bracket, put before an exit path (R224 step 2). -/
def closing (exit : List Prim) : List Prim := .sel .inactive :: exit

/-- The exit path of a host operation (R192, R224 steps 3 and 4): release the lock, return the status. -/
def hostExit (status : Status) : List Prim := [.rel, .ret status]

/-- The host wrapper after its Acquire (R192): the body, then Release and Ret on every path. -/
def hostSequence (body : List Prim → List Item) : List Item :=
  body (hostExit .fail) ++ (hostExit .ok).map .prim

/-- A micro-operation of the harness: its sequence run to its end; its own abnormal end is `Fail`. It needs no lock
(log entry 14). -/
def execMicro (items : List Item) (s : State) : Host.Outcome State Fault Refusal :=
  let r := run s.who 0 items s
  if s.env.silent && r.ending == .stalled then .fault .transportSilent
  else .next (r.state.setResult r.ending.result)

/-- The control record after a run: returned, or standing at the call that is never answered (R29, R262). -/
def RunEnd.ctl (r : RunEnd) (op : HostOp) : Ctl :=
  match r.ending with
  | .returned status => .done op status
  | .completed | .failed | .stalled => .running op r.steps r.rest

/-- `HOST(t, P)` (R192), granted at once and run without another agent's step in between. -/
def State.runHost (s : State) (t : Nat) (op : HostOp) (sequence : List Item) : State :=
  let r := run t 0 sequence (s.acquire t)
  r.state.setCtl t (r.ctl op)

/-- A host operation issued by requester `who`: one outstanding operation per requester (R29); it runs when the lock is
free and waits at its Acquire otherwise (R190, R192). -/
def execHost (op : HostOp) (sequence : List Item) (s : State) : Host.Outcome State Fault Refusal :=
  match s.ctl? s.who with
  | none => .refused .noSuchRequester
  | some (.waiting ..) | some (.running ..) => .refused .requesterBusy
  | some .idle | some (.done ..) =>
    match s.lock with
    | .free => .next (s.runHost s.who op sequence)
    | .held _ => .next (s.setCtl s.who (.waiting op 0 sequence))

end Sys2Proof.Machine
end

