-- ==== Sys2Proof/Machine/Buffer.lean ====
section
/-!
DEFINITION. BUF.ERASE, BUF.RESET, BUF.PUSH, BUF.POP (spec/40_buffer_ops.md R100 to R104). None can raise, on a buffer of
any capacity, 0 included.
-/

namespace Sys2Proof.Machine

/-- BUF.ERASE `B` (R100). -/
def execBufErase (b : BufId) (s : State) : Host.Outcome State Fault Refusal :=
  .next ((s.setBuf b (s.buf b).erase).setResult .nothing)

/-- BUF.RESET `B` (R101). -/
def execBufReset (b : BufId) (s : State) : Host.Outcome State Fault Refusal :=
  .next ((s.setBuf b (s.buf b).reset).setResult .nothing)

/-- BUF.PUSH `B`, `tag`, `src` (R102): returns the count appended. -/
def execBufPush (b : BufId) (tag : Byte) (src : List Byte) (s : State) : Host.Outcome State Fault Refusal :=
  .next ((s.setBuf b ((s.buf b).push tag src)).setResult (.count ((s.buf b).pushCount src)))

/-- BUF.POP `B`, `n` (R103): returns the count removed. -/
def execBufPop (b : BufId) (n : Nat) (s : State) : Host.Outcome State Fault Refusal :=
  .next ((s.setBuf b ((s.buf b).pop n)).setResult (.count ((s.buf b).popCount n)))

end Sys2Proof.Machine
end

