-- ==== Sys2Proof/Machine/Command.lean ====
section
/-!
DEFINITION. SEL, XFER, the two command shapes and the 15 named controller commands (spec/41_command_encoder.md R120 to
R144). Every command is one `SEL 1`, one XFER, one `SEL 0` (R124), a compound command one transfer of two words (R125).
-/

namespace Sys2Proof.Machine

/-- The sequence of one command (R122, R123): RESET and PUSH of the command's words, then the bracket of one transfer,
closed whether or not it succeeds; on failure `exit` follows. -/
def commandSequence (bytes : List Byte) (exit : List Prim) : List Item :=
  [.prim (.reset .cb), .prim (.push .cb commandTag bytes), .prim (.sel .active), .xfer .cb (closing exit),
    .prim (.sel .inactive)]

/-- The sequence of the command `c` with an argument, in the shape that is `c`'s (R77, R130 to R144). -/
def command (cfg : Cfg) (c : CmdId) (arg : Byte) (exit : List Prim) : List Item :=
  commandSequence (commandBytes cfg c arg) exit

/-- SEL `level` (R120). -/
def execSel (level : Level) (s : State) : Host.Outcome State Fault Refusal :=
  .next ((s.select level).setResult .nothing)

/-- XFER `B` (R121): returns the transport's answer. -/
def execXfer (b : BufId) (s : State) : Host.Outcome State Fault Refusal :=
  match s.transfer b with
  | some (ok, s') => .next (s'.setResult (.answer ok))
  | none => .fault .transportSilent

/-- A command micro-operation of a given shape: an id of the other shape is refused (spec/30_encoding.md R86). -/
def execShaped (shape : Shape) (c : CmdId) (arg : Byte) (s : State) : Host.Outcome State Fault Refusal :=
  if c.shape = shape then execMicro (command s.cfg c arg []) s else .refused .wrongShape

/-- CMD.SIMPLE `c`, `arg` (R122). -/
def execCmdSimple (c : CmdId) (arg : Byte) (s : State) : Host.Outcome State Fault Refusal := execShaped .cmd1 c arg s

/-- CMD.COMPOUND `c`, `arg` (R123). -/
def execCmdCompound (c : CmdId) (arg : Byte) (s : State) : Host.Outcome State Fault Refusal := execShaped .cmd2 c arg s

/-- LCD.RESET `arg` = CMD.SIMPLE 0, `arg` (R130). -/
def execLcdReset (arg : Byte) (s : State) : Host.Outcome State Fault Refusal := execShaped .cmd1 .reset arg s

/-- LCD.ALLPTS `arg` = CMD.SIMPLE 1, `arg` (R131). -/
def execLcdAllpts (arg : Byte) (s : State) : Host.Outcome State Fault Refusal := execShaped .cmd1 .allpts arg s

/-- LCD.PWRCTL `arg` = CMD.SIMPLE 2, `arg` (R132). -/
def execLcdPwrctl (arg : Byte) (s : State) : Host.Outcome State Fault Refusal := execShaped .cmd1 .pwrctl arg s

/-- LCD.ONOFF `arg` = CMD.SIMPLE 3, `arg` (R133). -/
def execLcdOnoff (arg : Byte) (s : State) : Host.Outcome State Fault Refusal := execShaped .cmd1 .onoff arg s

/-- LCD.COMDIR `arg` = CMD.SIMPLE 4, `arg` (R134). -/
def execLcdComdir (arg : Byte) (s : State) : Host.Outcome State Fault Refusal := execShaped .cmd1 .comdir arg s

/-- LCD.SEGDIR `arg` = CMD.SIMPLE 5, `arg` (R135). -/
def execLcdSegdir (arg : Byte) (s : State) : Host.Outcome State Fault Refusal := execShaped .cmd1 .segdir arg s

/-- LCD.EVOL `arg` = CMD.SIMPLE 6, `arg` (R136). -/
def execLcdEvol (arg : Byte) (s : State) : Host.Outcome State Fault Refusal := execShaped .cmd1 .evol arg s

/-- LCD.REFRESH `arg` = CMD.COMPOUND 7, `arg` (R137). -/
def execLcdRefresh (arg : Byte) (s : State) : Host.Outcome State Fault Refusal := execShaped .cmd2 .refresh arg s

/-- LCD.CHGPUMP `arg` = CMD.COMPOUND 8, `arg` (R138). -/
def execLcdChgpump (arg : Byte) (s : State) : Host.Outcome State Fault Refusal := execShaped .cmd2 .chgpump arg s

/-- LCD.BIAS `arg` = CMD.SIMPLE 9, `arg` (R139). -/
def execLcdBias (arg : Byte) (s : State) : Host.Outcome State Fault Refusal := execShaped .cmd1 .bias arg s

/-- LCD.VOP `arg` = CMD.COMPOUND 10, `arg` (R140). -/
def execLcdVop (arg : Byte) (s : State) : Host.Outcome State Fault Refusal := execShaped .cmd2 .vop arg s

/-- LCD.REVERSE `arg` = CMD.SIMPLE 11, `arg` (R141). -/
def execLcdReverse (arg : Byte) (s : State) : Host.Outcome State Fault Refusal := execShaped .cmd1 .reverse arg s

/-- LCD.LINE `arg` = CMD.SIMPLE 12, `arg` (R142). -/
def execLcdLine (arg : Byte) (s : State) : Host.Outcome State Fault Refusal := execShaped .cmd1 .line arg s

/-- LCD.COLMSB `arg` = CMD.SIMPLE 13, `arg` (R143). -/
def execLcdColmsb (arg : Byte) (s : State) : Host.Outcome State Fault Refusal := execShaped .cmd1 .colmsb arg s

/-- LCD.COLLSB `arg` = CMD.SIMPLE 14, `arg` (R144). -/
def execLcdCollsb (arg : Byte) (s : State) : Host.Outcome State Fault Refusal := execShaped .cmd1 .collsb arg s

end Sys2Proof.Machine
end

