-- ==== Sys2Proof/Machine/Cursor.lean ====
section
/-!
DEFINITION. CURSOR, WRDATA and FILLROW (spec/42_cursor_and_data.md R150 to R154).
-/

namespace Sys2Proof.Machine

/-- CURSOR `x`, `y` (R150): line, column high, column low, each a command in its own bracket, then the ghost `CUR` with
the operands as given. No operand is rejected (R151). -/
def cursorSequence (cfg : Cfg) (x y : Byte) (exit : List Prim) : List Item :=
  command cfg .line y exit ++ command cfg .colmsb (columnHigh x) exit ++ command cfg .collsb x exit
    ++ [.prim (.latch y x)]

/-- The `while` loop of WRDATA (R152), `src` being `bytes[off : len(bytes)]`: RESET, PUSH of all that is left, which the
buffer truncates at `w`, XFER, and on with what was not appended. The first argument bounds the number of iterations;
`src.length` is enough, since each one takes at least one byte (`w >= 1`, R208). The offset advances by `w`, which is the
count that PUSH appends after RESET (log entry 20). No rule speaks of a row buffer that is changed between the two, by a
buffer operation of the harness, or by another requester that runs because the harness has released the lock (log entry
24): there the offset still advances by `w`, whatever PUSH appended (DESIGN CHOICE, log entry 25, unsafe). -/
def wrdataLoop (w : Nat) (exit : List Prim) : Nat → List Byte → List Item
  | 0, _ => []
  | _ + 1, [] => []
  | n + 1, b :: src =>
    .prim (.reset .rb) :: .prim (.push .rb dataTag (b :: src)) :: .xfer .rb exit
      :: wrdataLoop w exit n ((b :: src).drop w)

/-- WRDATA `bytes` (R152): streamed in chunks of the row buffer's capacity; chip-select is not driven (R153). -/
def wrdataSequence (cfg : Cfg) (bytes : List Byte) (exit : List Prim) : List Item :=
  wrdataLoop cfg.w exit bytes.length bytes

/-- FILLROW (R154): one blank row in the row buffer. -/
def fillrowSequence (cfg : Cfg) : List Item :=
  [.prim (.reset .rb), .prim (.push .rb dataTag (blanks cfg cfg.w))]

/-- The meaning of CURSOR `x`, `y` (R150). -/
def execCursor (x y : Byte) (s : State) : Host.Outcome State Fault Refusal := execMicro (cursorSequence s.cfg x y []) s

/-- The meaning of WRDATA `bytes` (R152). -/
def execWrdata (bytes : List Byte) (s : State) : Host.Outcome State Fault Refusal :=
  execMicro (wrdataSequence s.cfg bytes []) s

/-- The meaning of FILLROW (R154). -/
def execFillrow (s : State) : Host.Outcome State Fault Refusal := execMicro (fillrowSequence s.cfg) s

end Sys2Proof.Machine
end

