-- ==== Sys2Proof/Machine/Clear.lean ====
section
/-!
DEFINITION. CLEARALL.BODY and CLEARLINES.BODY (spec/43_clear_ops.md R165 to R168).
-/

namespace Sys2Proof.Machine

/-- CLEARALL.BODY (R165): a blank row, the cursor at (0, 0), then one bracket of `NROWS` whole-row transfers. -/
def clearallSequence (cfg : Cfg) (exit : List Prim) : List Item :=
  fillrowSequence cfg ++ cursorSequence cfg 0 0 exit ++ [.prim (.sel .active)]
    ++ List.replicate cfg.nrows (.xfer .rb (closing exit)) ++ [.prim (.sel .inactive)]

/-- One line of a line-range clear (R166): the cursor at (0, line), one bracket of one blank row. -/
def clearLineSequence (cfg : Cfg) (exit : List Prim) (line : Byte) : List Item :=
  cursorSequence cfg 0 line exit ++ [.prim (.sel .active), .xfer .rb (closing exit), .prim (.sel .inactive)]

/-- CLEARLINES.BODY `first`, `last` (R166, R167). -/
def clearlinesSequence (cfg : Cfg) (first last : Byte) (exit : List Prim) : List Item :=
  fillrowSequence cfg ++ (clearedLines first last).flatMap (clearLineSequence cfg exit)

/-- The meaning of CLEARALL.BODY (R165). -/
def execClearallBody (s : State) : Host.Outcome State Fault Refusal := execMicro (clearallSequence s.cfg []) s

/-- The meaning of CLEARLINES.BODY `first`, `last` (R166). -/
def execClearlinesBody (first last : Byte) (s : State) : Host.Outcome State Fault Refusal :=
  execMicro (clearlinesSequence s.cfg first last []) s

end Sys2Proof.Machine
end

