-- ==== Sys2Proof/Machine/Text.lean ====
section
/-!
DEFINITION. DRAWTEXT.BODY with its steps POLICYSTEP and GLYPHS (spec/44_text.md R180 to R184).
-/

namespace Sys2Proof.Machine

/-- A data bracket (R182, R183): `SEL 1`, data writes whose abnormal end closes it, `SEL 0`. -/
def dataBracket (exit : List Prim) (writes : List Prim → List Item) : List Item :=
  .prim (.sel .active) :: (writes (closing exit) ++ [.prim (.sel .inactive)])

/-- POLICYSTEP `line`, `col` (R182), by the active line-clear policy; ClearBoth runs the body of the line-range clear
(spec/45_host_ops.md R204). -/
def policySequence (cfg : Cfg) (policy : Policy) (line col : Byte) (exit : List Prim) : List Item :=
  match policy with
  | .none => []
  | .clearLeft => cursorSequence cfg 0 line exit ++ dataBracket exit (wrdataSequence cfg (blanks cfg col.toNat))
  | .clearRight =>
    cursorSequence cfg col line exit ++ dataBracket exit (wrdataSequence cfg (blanks cfg (columnsRight cfg col)))
  | .clearBoth => clearlinesSequence cfg line line exit

/-- GLYPHS `text` (R183): one WRDATA per character, all in one bracket, nothing wrapped or clipped (R184). -/
def glyphsSequence (cfg : Cfg) (text : List Byte) (exit : List Prim) : List Item :=
  dataBracket exit fun e => text.flatMap fun c => wrdataSequence cfg (cfg.glyph c) e

/-- DRAWTEXT.BODY `line`, `col`, `text` (R181): the policy step, the cursor at (col, line), the glyphs. -/
def drawtextSequence (cfg : Cfg) (policy : Policy) (line col : Byte) (text : List Byte) (exit : List Prim) : List Item :=
  policySequence cfg policy line col exit ++ cursorSequence cfg col line exit ++ glyphsSequence cfg text exit

/-- The meaning of DRAWTEXT.BODY `line`, `col`, `text` (R181). -/
def execDrawtextBody (line col : Byte) (text : List Byte) (s : State) : Host.Outcome State Fault Refusal :=
  execMicro (drawtextSequence s.cfg s.policy line col text []) s

end Sys2Proof.Machine
end

