-- ==== Sys2Proof/Machine/HostOps.lean ====
section
/-!
DEFINITION. The seven host operations and the three pseudo-operations of them (spec/45_host_ops.md R194 to R204,
spec/30_encoding.md R88). A host operation is its body in the host wrapper; the lock is taken by the outermost operation
alone (R204), and three times by OP.INIT (R203).
-/

namespace Sys2Proof.Machine

/-- Steps 1 to 7 of bring-up (R202): the commands up to the full clear. -/
def initFirst (cfg : Cfg) (exit : List Prim) : List Item :=
  command cfg .reset cfg.initArg.reset exit ++ command cfg .allpts cfg.initArg.allpts exit
    ++ command cfg .pwrctl cfg.initArg.pwrctl exit ++ command cfg .onoff cfg.initArg.onoff exit
    ++ command cfg .comdir cfg.initArg.comdir exit ++ command cfg .segdir cfg.initArg.segdir exit
    ++ command cfg .evol cfg.initArg.evol exit

/-- Steps 9 to 13 of bring-up (R202): the commands after the full clear. -/
def initLast (cfg : Cfg) (exit : List Prim) : List Item :=
  command cfg .refresh cfg.initArg.refresh exit ++ command cfg .chgpump cfg.initArg.chgpump exit
    ++ command cfg .bias cfg.initArg.bias exit ++ command cfg .vop cfg.initArg.vop exit
    ++ command cfg .reverse cfg.initArg.reverse exit

/-- Release, then ask for the lock again: a point where another requester may be granted it (R203, R255). -/
def window : List Prim := [.rel, .acq]

/-- The abnormal end of the full clear inside bring-up (R202, R230): the inner operation ends, bring-up re-acquires the
lock and leaves through its own exit. -/
def initClearExit : List Prim := window ++ hostExit .fail

/-- OP.INIT after its first Acquire (R202): three critical sections. -/
def initSequence (cfg : Cfg) : List Item :=
  initFirst cfg (hostExit .fail) ++ window.map .prim ++ clearallSequence cfg initClearExit ++ window.map .prim
    ++ initLast cfg (hostExit .fail) ++ (hostExit .ok).map .prim

/-- OP.CTL after its Acquire (R199): the code is tested first, then the argument, both before any buffer write or
transfer (R207, spec/60_exceptions.md R227). -/
def ctlSequence (cfg : Cfg) (code arg : Byte) : List Item :=
  match cfg.ctlEntry code with
  | none => (hostExit .notFound).map .prim
  | some e =>
    if cfg.isLegal e arg then hostSequence (command cfg e.cmd arg) else (hostExit .argRange).map .prim

/-- What the sequencer runs for a host operation once its first Acquire is granted (R192, R194 to R202). -/
def hostOpSequence (cfg : Cfg) (policy : Policy) : HostOp → List Item
  | .init => initSequence cfg
  | .setCursor x y => hostSequence (cursorSequence cfg x y)
  | .write bytes => hostSequence (wrdataSequence cfg bytes)
  | .clearAll => hostSequence (clearallSequence cfg)
  | .clearLines first last => hostSequence (clearlinesSequence cfg first last)
  | .drawText line col text => hostSequence (drawtextSequence cfg policy line col text)
  | .ctl code arg => ctlSequence cfg code arg

/-- The line-range clear as it is latched: `end <- start` when `end < start`, so that both forms are one operation with
one final state (spec/43_clear_ops.md R166, R167). -/
def clearLinesOp (first last : Byte) : HostOp := .clearLines first (rangeEnd first last)

/-- A host operation of requester `who`. -/
def runOp (op : HostOp) (s : State) : Host.Outcome State Fault Refusal :=
  execHost op (hostOpSequence s.cfg s.policy op) s

/-- OP.INIT (R202). -/
def execOpInit (s : State) : Host.Outcome State Fault Refusal := runOp .init s

/-- OP.SETCURSOR `x`, `y` (R194). -/
def execOpSetcursor (x y : Byte) (s : State) : Host.Outcome State Fault Refusal := runOp (.setCursor x y) s

/-- OP.WRITE `bytes` (R195): chip-select is as it is found, inactive (spec/70_reset_and_hazards.md R257). -/
def execOpWrite (bytes : List Byte) (s : State) : Host.Outcome State Fault Refusal := runOp (.write bytes) s

/-- OP.CLEARALL (R196). -/
def execOpClearall (s : State) : Host.Outcome State Fault Refusal := runOp .clearAll s

/-- OP.CLEARLINES `first`, `last` (R197). -/
def execOpClearlines (first last : Byte) (s : State) : Host.Outcome State Fault Refusal :=
  runOp (clearLinesOp first last) s

/-- OP.DRAWTEXT `line`, `col`, `text` (R198). -/
def execOpDrawtext (line col : Byte) (text : List Byte) (s : State) : Host.Outcome State Fault Refusal :=
  runOp (.drawText line col text) s

/-- OP.CTL `code`, `arg` (R199). -/
def execOpCtl (code arg : Byte) (s : State) : Host.Outcome State Fault Refusal := runOp (.ctl code arg) s

/-- CTL.CONTRAST `v` = OP.CTL 0x00, `v` (R88, R200). -/
def execCtlContrast (v : Byte) (s : State) : Host.Outcome State Fault Refusal := runOp (.ctl 0x00 v) s

/-- CTL.REFRESH `v` = OP.CTL 0x01, `v` (R88, R201). -/
def execCtlRefresh (v : Byte) (s : State) : Host.Outcome State Fault Refusal := runOp (.ctl 0x01 v) s

/-- OP.CLEARLINE `n` = OP.CLEARLINES `n`, `n` (R88, R197). -/
def execOpClearline (n : Byte) (s : State) : Host.Outcome State Fault Refusal := runOp (clearLinesOp n n) s

end Sys2Proof.Machine
end

