-- ==== Sys2Proof/Machine/Lock.lean ====
section
/-!
DEFINITION. LOCK.ACQ and LOCK.REL, the mutual-exclusion guard (spec/45_host_ops.md R190, R191).
-/

namespace Sys2Proof.Machine

/-- LOCK.ACQ of requester `who` (R190): enabled only when the lock is free; the lock is binary and not re-entrant, so
its holder waits too (R206). A LOCK.ACQ that waits at the port is granted before any waiting requester as soon as the lock
is free (DESIGN CHOICE, log entry 23). -/
def execLockAcq (s : State) : Host.Outcome State Fault Refusal :=
  match s.ctl? s.who with
  | none => .refused .noSuchRequester
  | some _ =>
    match s.lock with
    | .free => .next ((s.acquire s.who).setResult .nothing)
    | .held _ => .fault .lockHeld

/-- LOCK.REL of requester `who` (R191): refused unless it is the holder. That the harness may present it in the middle of
the holder's own operation is the model's choice (DESIGN CHOICE, log entry 24): the spec names no such case; the operation
then has no step until its requester holds the lock again. -/
def execLockRel (s : State) : Host.Outcome State Fault Refusal :=
  if s.lock = .held s.who then .next ((s.release s.who).setResult .nothing) else .refused .notHolder

end Sys2Proof.Machine
end

