-- ==== Sys2Proof/Machine/Dispatch.lean ====
section
/-! DEFINITION. The dispatch of an operation to its meaning, one arm per row of spec/opcode_table.json. -/

namespace Sys2Proof.Machine

def exec (i : Instr) (s : State) : Host.Outcome State Fault Refusal :=
  match i with
  | .opInit => Sys2Proof.Machine.execOpInit s
  | .opSetcursor x y => Sys2Proof.Machine.execOpSetcursor x y s
  | .opWrite bytes => Sys2Proof.Machine.execOpWrite bytes s
  | .opClearall => Sys2Proof.Machine.execOpClearall s
  | .opClearlines first last => Sys2Proof.Machine.execOpClearlines first last s
  | .opDrawtext line col text => Sys2Proof.Machine.execOpDrawtext line col text s
  | .opCtl code arg => Sys2Proof.Machine.execOpCtl code arg s
  | .ctlContrast v => Sys2Proof.Machine.execCtlContrast v s
  | .ctlRefresh v => Sys2Proof.Machine.execCtlRefresh v s
  | .opClearline n => Sys2Proof.Machine.execOpClearline n s
  | .bufErase buf => Sys2Proof.Machine.execBufErase buf s
  | .bufReset buf => Sys2Proof.Machine.execBufReset buf s
  | .bufPush buf tag src => Sys2Proof.Machine.execBufPush buf tag src s
  | .bufPop buf n => Sys2Proof.Machine.execBufPop buf n s
  | .sel level => Sys2Proof.Machine.execSel level s
  | .xfer buf => Sys2Proof.Machine.execXfer buf s
  | .cmdSimple c arg => Sys2Proof.Machine.execCmdSimple c arg s
  | .cmdCompound c arg => Sys2Proof.Machine.execCmdCompound c arg s
  | .cursor x y => Sys2Proof.Machine.execCursor x y s
  | .wrdata bytes => Sys2Proof.Machine.execWrdata bytes s
  | .fillrow => Sys2Proof.Machine.execFillrow s
  | .clearallBody => Sys2Proof.Machine.execClearallBody s
  | .clearlinesBody first last => Sys2Proof.Machine.execClearlinesBody first last s
  | .drawtextBody line col text => Sys2Proof.Machine.execDrawtextBody line col text s
  | .lockAcq => Sys2Proof.Machine.execLockAcq s
  | .lockRel => Sys2Proof.Machine.execLockRel s
  | .lcdReset arg => Sys2Proof.Machine.execLcdReset arg s
  | .lcdAllpts arg => Sys2Proof.Machine.execLcdAllpts arg s
  | .lcdPwrctl arg => Sys2Proof.Machine.execLcdPwrctl arg s
  | .lcdOnoff arg => Sys2Proof.Machine.execLcdOnoff arg s
  | .lcdComdir arg => Sys2Proof.Machine.execLcdComdir arg s
  | .lcdSegdir arg => Sys2Proof.Machine.execLcdSegdir arg s
  | .lcdEvol arg => Sys2Proof.Machine.execLcdEvol arg s
  | .lcdRefresh arg => Sys2Proof.Machine.execLcdRefresh arg s
  | .lcdChgpump arg => Sys2Proof.Machine.execLcdChgpump arg s
  | .lcdBias arg => Sys2Proof.Machine.execLcdBias arg s
  | .lcdVop arg => Sys2Proof.Machine.execLcdVop arg s
  | .lcdReverse arg => Sys2Proof.Machine.execLcdReverse arg s
  | .lcdLine arg => Sys2Proof.Machine.execLcdLine arg s
  | .lcdColmsb arg => Sys2Proof.Machine.execLcdColmsb arg s
  | .lcdCollsb arg => Sys2Proof.Machine.execLcdCollsb arg s

end Sys2Proof.Machine
end

