-- ==== Sys2Proof/Machine/Requester.lean ====
section
/-!
DEFINITION. The requesters (spec/00_scope.md R11, spec/10_state.md R29): each issues its requests one at a time, waits at
every Acquire until it is granted, runs its operation one micro-operation a step while it holds the lock, and returns.
Which of the agents that have a step moves next is open (spec/45_host_ops.md R190, log entry 5).
-/

namespace Sys2Proof.Machine

/-- The host operation that an accepted request stands for (spec/30_encoding.md R84, R88); none for a micro-operation. -/
def hostOp? : Instr → Option HostOp
  | .opInit => some .init
  | .opSetcursor x y => some (.setCursor x y)
  | .opWrite bytes => some (.write bytes)
  | .opClearall => some .clearAll
  | .opClearlines first last => some (clearLinesOp first last)
  | .opDrawtext line col text => some (.drawText line col text)
  | .opCtl code arg => some (.ctl code arg)
  | .ctlContrast v => some (.ctl 0x00 v)
  | .ctlRefresh v => some (.ctl 0x01 v)
  | .opClearline n => some (clearLinesOp n n)
  | .bufErase _ | .bufReset _ | .bufPush .. | .bufPop .. | .sel _ | .xfer _ | .cmdSimple .. | .cmdCompound ..
  | .cursor .. | .wrdata _ | .fillrow | .clearallBody | .clearlinesBody .. | .drawtextBody .. | .lockAcq | .lockRel
  | .lcdReset _ | .lcdAllpts _ | .lcdPwrctl _ | .lcdOnoff _ | .lcdComdir _ | .lcdSegdir _ | .lcdEvol _ | .lcdRefresh _
  | .lcdChgpump _ | .lcdBias _ | .lcdVop _ | .lcdReverse _ | .lcdLine _ | .lcdColmsb _ | .lcdCollsb _ => none

/-- The host operation that a request at the request port asks for; none where the port refuses it (R86). -/
def requestedOp (r : Request) : Option HostOp :=
  match decodeHost r with
  | .ok i => hostOp? i
  | .error _ => none

/-- Where a requester stands when `k` micro-operations are done and `rest` are to come (R29): waiting, if the next one is
an Acquire, and running otherwise. -/
def standing (op : HostOp) (k : Nat) : List Item → Ctl
  | .prim .acq :: rest => .waiting op (k + 1) rest
  | rest => .running op k rest

/-- The control record after a step that cannot raise (R29, R192): `Done` after the return. -/
def afterPrim (op : HostOp) (k : Nat) (p : Prim) (rest : List Item) : Ctl :=
  match p.status? with
  | some status => .done op status
  | none => standing op (k + 1) rest

/-- The request that a requester issues next, and the requester without it (R29): the first of those it has yet to issue,
and when they are used up the first of those that it issues again and again (log entry 6). -/
def Requester.next? (q : Requester) : Option (Request × Requester) :=
  match q.todo, q.forever with
  | r :: more, _ => some (r, { q with todo := more })
  | [], r :: more => some (r, { q with todo := more })
  | [], [] => none

/-- Requester `t` issues its next request (R29, R192): a host operation takes it to its Acquire; a refused request leaves
no trace in the block (spec/30_encoding.md R86, log entry 9). -/
def State.issue (s : State) (t : Nat) : State :=
  match s.reqs[t]? with
  | none => s
  | some q =>
    match q.next? with
    | none => s
    | some (r, q') =>
      { s with
        reqs := s.reqs.set t
          (match requestedOp r with
           | some op => { q' with ctl := .waiting op 0 (hostOpSequence s.cfg s.policy op) }
           | none => q') }

/-- Requester `t` runs its next micro-operation (R29). A transfer that is never answered is no step (R262). -/
def State.runItem (s : State) (t : Nat) (op : HostOp) (k : Nat) : List Item → State
  | [] => s
  | .prim p :: rest => (p.apply t s).setCtl t (afterPrim op k p rest)
  | .xfer b onFail :: rest =>
    match s.transfer b with
    | some (true, s') => s'.setCtl t (standing op (k + 1) rest)
    | some (false, s') => s'.setCtl t (standing op (k + 1) (onFail.map .prim))
    | none => s

/-- One step of requester `t` (R29, R190, R192). -/
def State.stepRequester (s : State) (t : Nat) : State :=
  match s.ctl? t with
  | none => s
  | some .idle | some (.done ..) => s.issue t
  | some (.waiting op k rest) => (s.acquire t).setCtl t (standing op k rest)
  | some (.running op k rest) => s.runItem t op k rest

/-- Whether the environment will answer the next transport call (R262). -/
def Env.answers? (e : Env) : Bool := !e.answers.isEmpty || !e.silent

/-- Whether requester `t` has a step: a request to issue, a free lock to be granted, or a micro-operation to run. Every
micro-operation but the return is run with `LOCK = Held(t)` (spec/45_host_ops.md R193); a requester whose lock the harness
has released stays where it is until it holds the lock again (log entry 24). -/
def Requester.hasStep (q : Requester) (t : Nat) (s : State) : Bool :=
  match q.ctl with
  | .idle | .done .. => q.next?.isSome
  | .waiting .. => s.lock == .free
  | .running _ _ rest =>
    match rest with
    | [] => false
    | .prim p :: _ => p.status?.isSome || s.lock == .held t
    | .xfer .. :: _ => s.lock == .held t && s.env.answers?

/-- The requesters that have a step. -/
def State.agents (s : State) : List Nat :=
  (List.range s.reqs.length).filter fun t =>
    match s.reqs[t]? with
    | some q => q.hasStep t s
    | none => false

/-- Whether a requester has nothing outstanding and nothing left to issue. -/
def Requester.isFinished (q : Requester) : Bool :=
  match q.ctl with
  | .idle | .done .. => q.next?.isNone
  | .waiting .. | .running .. => false

/-- A finished run (spec/70_reset_and_hazards.md R271): every requester `Idle` or `Done` with no request left, and nothing
at the harness port. -/
def State.finished (s : State) : Bool := s.port.isNone && s.reqs.all Requester.isFinished

/-- The choice among several agents that have a step, and the environment after it. The order of grants need not be fair
(spec/70_reset_and_hazards.md R267): choices made again and again can pass a requester over for ever (log entry 5). -/
def Env.choose (e : Env) : Nat × Env :=
  match e.choices, e.choicesForever with
  | n :: rest, _ => (n, { e with choices := rest })
  | [], n :: rest => (n, { e with choices := rest })
  | [], [] => (Config.agentChoice e.drawn, { e with drawn := e.drawn + 1 })

/-- One step of one of these agents, which is chosen. Without any, a finished machine waits for a request (R38, log entry
10), and one that is not finished is stuck (R271). -/
def moveOne (agents : List Nat) (s : State) : Host.Outcome State Fault Refusal :=
  match agents with
  | [] => if s.finished then .next s else .fault .stuck
  | [t] => .next (s.stepRequester t)
  | t :: u :: more =>
    .next ((s.setEnv s.env.choose.2).stepRequester
      ((t :: u :: more).getD (s.env.choose.1 % (more.length + 2)) t))

/-- One step of the requesters. -/
def schedule (s : State) : Host.Outcome State Fault Refusal := moveOne s.agents s

/-- The requesters that can move while a LOCK.ACQ waits at the harness port: the one that asks "takes no step at all until
the lock is free" (R190), so that a requester that asks for the lock it holds is stuck for good (R206, R256). -/
def State.othersAgents (s : State) : List Nat := s.agents.filter (· != s.who)

/-- A LOCK.ACQ at the harness port that is not enabled waits there while the other requesters move (R190, log entry 11). -/
def portOutcome (s : State) (o : Host.Outcome State Fault Refusal) : Host.Outcome State Fault Refusal :=
  match o with
  | .fault .lockHeld => moveOne s.othersAgents s
  | o => o

end Sys2Proof.Machine
end

