-- ==== Sys2Proof/Machine/Step.lean ====
section
/-!
DEFINITION. One step of the machine, and how the harness presents an operation (log entry 6).
-/

namespace Sys2Proof.Machine

/-- One step. An operation at the harness port is taken from it, decoded and run; without one, a requester moves. The port
is served before the requesters, a LOCK.ACQ that waits there too: where the spec lets any waiter be granted a free lock
(spec/45_host_ops.md R190, spec/70_reset_and_hazards.md R267), the model grants it to the port first (DESIGN CHOICE, log
entry 23). -/
def step (s : State) : Host.Outcome State Fault Refusal :=
  match s.port with
  | none => schedule s
  | some r =>
    match decode r with
    | .error e => .refused (.undecodable e)
    | .ok i => portOutcome s (exec i { s with port := none })

/-- The state with the operation of the opcode table's number `w` presented at the harness port, on behalf of requester
`who`, with an empty payload. -/
def State.withFetchWord (s : State) (nbits w : Nat) : State := { s with port := some (tableRequest nbits w) }

end Sys2Proof.Machine
end

