-- ==== Sys2Proof/Machine/Observe.lean ====
section
/-!
DEFINITION. What is seen of a run: `TRACE` and its parts (spec/10_state.md R33), what the link carries of it
(spec/30_encoding.md R71), what a failed call delivers (R30, D31), and the events and buffers that each rule states for
its operation when every transfer succeeds. Nothing of the machine reads these; claims are stated with them.
-/

namespace Sys2Proof.Machine

/-- What the LCD controller sees of an event: the chip-select and transfer events (R33). -/
def Event.seenByController : Event → Bool
  | .sel _ | .xfer .. => true
  | .acq _ | .rel _ | .ret .. => false

/-- What the requesters see of an event: the returns (R33). -/
def Event.seenByRequesters : Event → Bool
  | .ret .. => true
  | .acq _ | .rel _ | .sel _ | .xfer .. => false

/-- The words an event delivers to the controller: all of a successful call, none of a failed one (R30). -/
def Event.delivered : Event → List Word
  | .xfer ws true => ws
  | .xfer _ false | .acq _ | .rel _ | .sel _ | .ret .. => []

/-- The frames the link has carried, in order (R60, R71). -/
def framesOf (trace : List Event) : List Frame := (trace.flatMap Event.delivered).map frameOf

/-- Whether an event is a transport call that answered failure (R221). -/
def Event.isFailure : Event → Bool
  | .xfer _ ok => !ok
  | .acq _ | .rel _ | .sel _ | .ret .. => false

/-- "No failure so far", a predicate over `TRACE` (spec/10_state.md R35). -/
def noFailure (trace : List Event) : Bool := trace.all fun e => !e.isFailure

/-- The number of transport calls among events. -/
def transfersIn : List Event → Nat
  | [] => 0
  | .xfer .. :: es => transfersIn es + 1
  | _ :: es => transfersIn es

/-- The environment after `n` transport calls that all succeed; none when one of them does not. -/
def Env.afterSuccesses : Nat → Env → Option Env
  | 0, e => some e
  | n + 1, e =>
    match e.answer with
    | some (true, e') => e'.afterSuccesses n
    | some (false, _) => none
    | none => none

/-- The events up to a first failure, from those of the run without failure: `n` transfers succeed, the next one fails,
and an open bracket is closed (spec/60_exceptions.md R224, R228). -/
def failedAt (bracketOpen : Bool) : Nat → List Event → List Event
  | _, [] => []
  | 0, .xfer ws _ :: _ => .xfer ws false :: (if bracketOpen then [.sel .inactive] else [])
  | n + 1, .xfer ws ok :: es => .xfer ws ok :: failedAt bracketOpen n es
  | n, .sel level :: es => .sel level :: failedAt (level == .active) n es
  | n, .acq t :: es => .acq t :: failedAt bracketOpen n es
  | n, .rel t :: es => .rel t :: failedAt bracketOpen n es
  | n, .ret t st :: es => .ret t st :: failedAt bracketOpen n es

/-! ### The events that the rules state, all transfers succeeding -/

/-- One bracket of one transfer (spec/41_command_encoder.md R124). -/
def bracket (ws : List Word) (ok : Bool) : List Event := [.sel .active, .xfer ws ok, .sel .inactive]

/-- The words of one command, all of tag 0 (R73, R74). -/
def commandWords (cfg : Cfg) (c : CmdId) (arg : Byte) : List Word :=
  (commandBytes cfg c arg).map fun b => (0x00#8 ++ b : BitVec (8 + 8))

/-- A data word (R78). -/
def dataWord (b : Byte) : Word := (0x01#8 ++ b : BitVec (8 + 8))

/-- Three brackets: line, column high, column low (spec/42_cursor_and_data.md R150). -/
def cursorEvents (cfg : Cfg) (x y : Byte) : List Event :=
  bracket (commandWords cfg .line y) true ++ bracket (commandWords cfg .colmsb (columnHigh x)) true
    ++ bracket (commandWords cfg .collsb x) true

/-- A byte sequence cut into pieces of `w` bytes, the last one what is left; the first argument bounds their number. -/
def pieces (w : Nat) : Nat → List Byte → List (List Byte)
  | 0, _ => []
  | _ + 1, [] => []
  | n + 1, b :: src => (b :: src).take w :: pieces w n ((b :: src).drop w)

/-- The chunks of a bulk data write (R152). -/
def chunks (cfg : Cfg) (bytes : List Byte) : List (List Byte) := pieces cfg.w bytes.length bytes

/-- One transfer per chunk, no chip-select event (R152, R153). -/
def writeEvents (cfg : Cfg) (bytes : List Byte) : List Event :=
  (chunks cfg bytes).map fun c => .xfer (c.map dataWord) true

/-- The words of one blank row (R78, R154). -/
def blankRow (cfg : Cfg) : List Word := List.replicate cfg.w (dataWord cfg.blank)

/-- Full-screen clear: the cursor, then one bracket of `NROWS` rows (spec/43_clear_ops.md R165). -/
def clearallEvents (cfg : Cfg) : List Event :=
  cursorEvents cfg 0 0 ++ [.sel .active] ++ List.replicate cfg.nrows (.xfer (blankRow cfg) true) ++ [.sel .inactive]

/-- Line-range clear: four brackets for each line (R166). -/
def clearlinesEvents (cfg : Cfg) (first last : Byte) : List Event :=
  (clearedLines first last).flatMap fun line => cursorEvents cfg 0 line ++ bracket (blankRow cfg) true

/-- The policy step (spec/44_text.md R182). -/
def policyEvents (cfg : Cfg) (policy : Policy) (line col : Byte) : List Event :=
  match policy with
  | .none => []
  | .clearLeft =>
    cursorEvents cfg 0 line ++ [.sel .active] ++ writeEvents cfg (blanks cfg col.toNat) ++ [.sel .inactive]
  | .clearRight =>
    cursorEvents cfg col line ++ [.sel .active] ++ writeEvents cfg (blanks cfg (columnsRight cfg col)) ++ [.sel .inactive]
  | .clearBoth => clearlinesEvents cfg line line

/-- Text rendering (R181, R183). -/
def drawtextEvents (cfg : Cfg) (policy : Policy) (line col : Byte) (text : List Byte) : List Event :=
  policyEvents cfg policy line col ++ cursorEvents cfg col line ++ [.sel .active]
    ++ text.flatMap (fun c => writeEvents cfg (cfg.glyph c)) ++ [.sel .inactive]

/-- The brackets of a list of commands with their arguments. -/
def commandsEvents (cfg : Cfg) (cs : List (CmdId × Byte)) : List Event :=
  cs.flatMap fun c => bracket (commandWords cfg c.1 c.2) true

/-- Bring-up steps 1 to 7 (spec/45_host_ops.md R202). -/
def bringUpFirst (a : InitArgs) : List (CmdId × Byte) :=
  [(.reset, a.reset), (.allpts, a.allpts), (.pwrctl, a.pwrctl), (.onoff, a.onoff), (.comdir, a.comdir),
    (.segdir, a.segdir), (.evol, a.evol)]

/-- Bring-up steps 9 to 13 (R202). -/
def bringUpLast (a : InitArgs) : List (CmdId × Byte) :=
  [(.refresh, a.refresh), (.chgpump, a.chgpump), (.bias, a.bias), (.vop, a.vop), (.reverse, a.reverse)]

/-- The events of OP.INIT between its first Acquire and its last Release (R202, R203). -/
def bringUpEvents (cfg : Cfg) (t : Nat) : List Event :=
  commandsEvents cfg (bringUpFirst cfg.initArg) ++ [.rel t, .acq t] ++ clearallEvents cfg ++ [.rel t, .acq t]
    ++ commandsEvents cfg (bringUpLast cfg.initArg)

/-- How OP.INIT leaves after its transfer number `n` (from 0) failed: inside the full clear it re-acquires the lock
first (R202). -/
def bringUpExit (cfg : Cfg) (t n : Nat) : List Event :=
  if 7 ≤ n ∧ n < 10 + cfg.nrows then [.rel t, .acq t, .rel t, .ret t .fail] else [.rel t, .ret t .fail]

/-- The micro-operation that is the body of a host operation (R194 to R198); OP.INIT and OP.CTL have none. -/
def HostOp.body? : HostOp → Option Instr
  | .setCursor x y => some (.cursor x y)
  | .write bytes => some (.wrdata bytes)
  | .clearAll => some .clearallBody
  | .clearLines first last => some (.clearlinesBody first last)
  | .drawText line col text => some (.drawtextBody line col text)
  | .init | .ctl .. => none

/-- The events of that body when every transfer succeeds. -/
def HostOp.bodyEvents (cfg : Cfg) (policy : Policy) : HostOp → List Event
  | .setCursor x y => cursorEvents cfg x y
  | .write bytes => writeEvents cfg bytes
  | .clearAll => clearallEvents cfg
  | .clearLines first last => clearlinesEvents cfg first last
  | .drawText line col text => drawtextEvents cfg policy line col text
  | .init | .ctl .. => []

/-- Which host operation can end with which status (spec/60_exceptions.md R241): a write of no bytes cannot fail. -/
def HostOp.mayEndWith : HostOp → Status → Bool
  | .ctl .., _ => true
  | .write [], .fail => false
  | _, .ok | _, .fail => true
  | _, .argRange | _, .notFound => false

/-- Requester `who` exists, has nothing outstanding, and the lock is free: its next operation is granted at once. -/
def State.ready (s : State) : Bool :=
  match s.ctl? s.who with
  | some .idle | some (.done ..) => s.lock == .free
  | some (.waiting ..) | some (.running ..) | none => false

/-- `REQ` with requester `who` at `Done(op, status)` (R29, R192). -/
def State.returned (s : State) (op : HostOp) (status : Status) : List Requester := (s.setCtl s.who (.done op status)).reqs

/-- A word list that the engine may send in one call (spec/30_encoding.md R81): one command word, two command words, or 1
to `W` data words. -/
def uniformTransfer (cfg : Cfg) (ws : List Word) : Prop :=
  ((ws.length = 1 ∨ ws.length = 2) ∧ ∀ w ∈ ws, wordTag w = 0x00#8)
    ∨ (1 ≤ ws.length ∧ ws.length ≤ cfg.w ∧ ∀ w ∈ ws, wordTag w = 0x01#8)

/-! ### The buffers that the rules state -/

/-- A buffer that was reset and then given these words: they stand at slot 0 on, the rest is stale (R101, R102, R122). -/
def Buf.loaded (b : Buf) (ws : List Word) : Buf := ⟨ws.length, ws ++ b.st.drop ws.length⟩

/-- The row buffer after a bulk data write: the last chunk over what stood there before (R152). -/
def rowAfterWrite (cfg : Cfg) (rb : Buf) (bytes : List Byte) : Buf :=
  (chunks cfg bytes).foldl (fun b c => b.loaded (c.map dataWord)) rb

/-- The row buffer after the policy step (R182). -/
def rowAfterPolicy (cfg : Cfg) (policy : Policy) (rb : Buf) (col : Byte) : Buf :=
  match policy with
  | .none => rb
  | .clearLeft => rowAfterWrite cfg rb (blanks cfg col.toNat)
  | .clearRight => rowAfterWrite cfg rb (blanks cfg (columnsRight cfg col))
  | .clearBoth => rb.loaded (blankRow cfg)

/-- The row buffer after text rendering (R181). -/
def rowAfterText (cfg : Cfg) (policy : Policy) (rb : Buf) (col : Byte) (text : List Byte) : Buf :=
  text.foldl (fun b c => rowAfterWrite cfg b (cfg.glyph c)) (rowAfterPolicy cfg policy rb col)

/-- A buffer after these transport calls: every call of words of this tag, answered or not, was made from it when it had
just been reset and given those words (R122, R152; spec/60_exceptions.md R225). -/
def Buf.afterCalls (b : Buf) (tag : Byte) : List Event → Buf
  | [] => b
  | .xfer ws _ :: es => (if ws.all (fun w => wordTag w == tag) then b.loaded ws else b).afterCalls tag es
  | _ :: es => b.afterCalls tag es

/-- The number of command transfers that succeeded. -/
def commandCalls : List Event → Nat
  | [] => 0
  | .xfer ws ok :: es => (if ok && ws.all (fun w => wordTag w == commandTag) then 1 else 0) + commandCalls es
  | _ :: es => commandCalls es

/-- The positions that an operation addresses, in order (R150, R165, R166, R181, R182); bring-up and control sequences are
not made of cursor sequences. -/
def HostOp.cursors (policy : Policy) : HostOp → List CursorPos
  | .setCursor x y => [⟨y, x⟩]
  | .clearAll => [⟨0, 0⟩]
  | .clearLines first last => (clearedLines first last).map fun line => ⟨line, 0⟩
  | .drawText line col _ =>
    match policy with
    | .none => [⟨line, col⟩]
    | .clearRight => [⟨line, col⟩, ⟨line, col⟩]
    | .clearLeft | .clearBoth => [⟨line, 0⟩, ⟨line, col⟩]
  | .write _ | .init | .ctl .. => []

/-- `CUR` after these events of an operation, "as the last completed CURSOR left it" (spec/60_exceptions.md R225): a cursor
sequence is completed by its third command. -/
def HostOp.curAfter (op : HostOp) (policy : Policy) (cur : Option CursorPos) (es : List Event) : Option CursorPos :=
  ((op.cursors policy).take (commandCalls es / 3)).foldl (fun _ p => some p) cur

/-- The row buffer before the first transfer of an operation: CLEARALL.BODY and CLEARLINES.BODY fill it first (R165, R166),
and with the policy ClearBoth so does DRAWTEXT.BODY (R182). -/
def HostOp.rowBefore (cfg : Cfg) (policy : Policy) (rb : Buf) : HostOp → Buf
  | .clearAll | .clearLines .. => rb.loaded (blankRow cfg)
  | .drawText .. => if policy = .clearBoth then rb.loaded (blankRow cfg) else rb
  | .setCursor .. | .write _ | .init | .ctl .. => rb

/-- The command buffer after a cursor sequence: the column-low word over stale ones (R150). -/
def cbAfterCursor (cfg : Cfg) (cb : Buf) (x : Byte) : Buf := cb.loaded (commandWords cfg .collsb x)

end Sys2Proof.Machine
end

