-- ==== Sys2Proof/Safety.lean ====
section
/-!
DEFINITION. What a safe run of the requesters is: every sequence keeps the lock and the bracket discipline
(spec/45_host_ops.md R192, R193), at most the holder is inside a critical section, chip-select is inactive whenever the
lock is free, and the trace is one serial order (R205, spec/20_memory.md R60).
-/

namespace Sys2Proof.Machine

/-- Where a sequence stands: whether its requester holds the lock, and whether its bracket is open. -/
structure Phase where
  holds   : Bool
  bracket : Bool
deriving DecidableEq, Repr, Inhabited

/-- The phase after a step that cannot raise, if the discipline allows the step there: buffers, chip-select and cursor
only while the lock is held, `SEL` alternating, the lock taken and released outside a bracket, no return while it is held
(R192, R193, R205). -/
def Prim.phase (p : Prim) (φ : Phase) : Option Phase :=
  match p with
  | .reset _ | .push .. | .latch .. => if φ.holds then some φ else none
  | .sel .active => if φ.holds && !φ.bracket then some ⟨true, true⟩ else none
  | .sel .inactive => if φ.holds && φ.bracket then some ⟨true, false⟩ else none
  | .acq => if !φ.holds && !φ.bracket then some ⟨true, false⟩ else none
  | .rel => if φ.holds && !φ.bracket then some ⟨false, false⟩ else none
  | .ret _ => if !φ.holds && !φ.bracket then some φ else none

/-- An exit path that keeps the discipline and ends with the return. -/
def exitDisciplined (φ : Phase) : List Prim → Bool
  | [] => false
  | p :: ps =>
    match p.phase φ with
    | none => false
    | some φ' => if p.status?.isSome then ps.isEmpty else exitDisciplined φ' ps

/-- A sequence that keeps the discipline, on every path, and ends with the return. -/
def disciplined (φ : Phase) : List Item → Bool
  | [] => false
  | .prim p :: rest =>
    match p.phase φ with
    | none => false
    | some φ' => if p.status?.isSome then rest.isEmpty else disciplined φ' rest
  | .xfer _ onFail :: rest => φ.holds && exitDisciplined φ onFail && disciplined φ rest

/-- Whether only the return is left of a sequence. -/
def returning : List Item → Bool
  | [.prim (.ret _)] => true
  | _ => false

/-- What holds of each requester (R193): idle, waiting and done ones do not hold the lock; a running one holds it, or has
only its return left; what is left of its sequence keeps the discipline. -/
def Requester.safe (q : Requester) (s : State) (t : Nat) : Bool :=
  match q.ctl with
  | .idle | .done .. => s.lock != .held t
  | .waiting _ _ rest => s.lock != .held t && disciplined ⟨true, false⟩ rest
  | .running _ _ rest =>
    if s.lock == .held t then disciplined ⟨true, s.cs == .active⟩ rest else returning rest

/-- Mutual exclusion (R193, R205): the holder is a requester, chip-select is inactive while the lock is free, and every
requester is safe. -/
def State.exclusive (s : State) : Prop :=
  (s.lock = .free → s.cs = .inactive) ∧ (∀ t, s.lock = .held t → t < s.reqs.length)
    ∧ ∀ (t : Nat) (q : Requester), s.reqs[t]? = some q → q.safe s t = true

/-- The lock and the chip-select level after one event, if a serial trace may have the event there (R205): an Acquire of
a free lock, a Release by the holder, chip-select and transfers only while the lock is held, chip-select inactive at every
Acquire and Release, a return of a requester that does not hold the lock. -/
def scanEvent (at_ : Lock × Level) (e : Event) : Option (Lock × Level) :=
  match e, at_ with
  | .acq t, (.free, .inactive) => some (.held t, .inactive)
  | .rel t, (.held u, .inactive) => if t = u then some (.free, .inactive) else none
  | .sel level, (.held u, c) => if level = c then none else some (.held u, level)
  | .xfer .., (.held u, c) => some (.held u, c)
  | .ret t _, (lock, c) => if lock = .held t then none else some (lock, c)
  | .acq _, _ => none
  | .rel _, _ => none
  | .sel _, (.free, _) => none
  | .xfer .., (.free, _) => none

/-- The lock and the chip-select level after a whole trace, if it is serial. -/
def scanTrace (at_ : Lock × Level) : List Event → Option (Lock × Level)
  | [] => some at_
  | e :: es =>
    match scanEvent at_ e with
    | some next => scanTrace next es
    | none => none

/-- The trace is serial and agrees with the lock and the chip-select port (R205). -/
def State.serial (s : State) : Prop := scanTrace (.free, .inactive) s.trace = some (s.lock, s.cs)

/-- A safe state of a machine whose harness port is not used. -/
def State.safe (s : State) : Prop := s.port = none ∧ s.exclusive ∧ s.serial

end Sys2Proof.Machine
end

