-- ==== Sys2Proof/Certificates/Slice0/Obligations.lean ====
section
/-!
DEFINITION. The statements for the provers. Every one holds for every configuration, since the configuration is part of
the state; a final state written as `{ s with … }` says that every field it does not name is as it was. The answers of
the transport are read from the environment of the state, so a statement that names them holds for every answer.
-/

open Sys2Proof Sys2Proof.Machine

/-! ### Encoding -/

/-- Decoding what the encoder writes for a well-formed operation gives that operation, under the most particular name that
R88 gives it (the choice of the name is the model's, log entry 7). -/
def Obligations.DecodeOfEncodeGivesTheOperation : Prop :=
  ∀ i : Instr, i.wellFormed = true → decode (encode i) = .ok i.named

/-- Whatever the decoder accepts is a well-formed operation. -/
def Obligations.DecodedOperationsAreWellFormed : Prop :=
  ∀ (r : Request) (i : Instr), decode r = .ok i → i.wellFormed = true

/-- R88: a pseudo-operation, and each LCD.<name>, has the encoding and the effect of what it is short for; LCD.<name> is no
host operation. -/
def Obligations.ShorthandsExpandAsStated : Prop :=
  (∀ v s, exec (.ctlContrast v) s = exec (.opCtl 0x00 v) s ∧ encode (.ctlContrast v) = encode (.opCtl 0x00 v))
  ∧ (∀ v s, exec (.ctlRefresh v) s = exec (.opCtl 0x01 v) s ∧ encode (.ctlRefresh v) = encode (.opCtl 0x01 v))
  ∧ (∀ n s, exec (.opClearline n) s = exec (.opClearlines n n) s ∧ encode (.opClearline n) = encode (.opClearlines n n))
  ∧ ∀ (c : CmdId) arg s,
      requestedOp (encode (c.named arg)) = none ∧
      match c.shape with
      | .cmd1 => exec (c.named arg) s = exec (.cmdSimple c arg) s ∧ encode (c.named arg) = encode (.cmdSimple c arg)
      | .cmd2 => exec (c.named arg) s = exec (.cmdCompound c arg) s ∧ encode (c.named arg) = encode (.cmdCompound c arg)

/-- R86: reserved operation codes are refused, micro-operation codes are not accepted from a requester; a refused request
of a requester changes nothing but the model's list of requests to come, one at the harness port is no step. -/
def Obligations.ReservedRequestsAreRefused : Prop :=
  (∀ r : Request, (headerOp r.header = 0x00#8 ∨ (0x08 ≤ (headerOp r.header).toNat ∧ (headerOp r.header).toNat ≤ 0x7F)
      ∨ 0x90 ≤ (headerOp r.header).toNat) → decode r = .error .undefinedOp ∧ requestedOp r = none)
  ∧ (∀ r : Request, 0x80 ≤ (headerOp r.header).toNat → (headerOp r.header).toNat ≤ 0x8F →
      decodeHost r = .error .microOperation ∧ requestedOp r = none)
  ∧ (∀ (s : State) (t : Nat) (q : Requester) (r : Request) (more : List Request), s.reqs[t]? = some q →
      (q.ctl = .idle ∨ ∃ op st, q.ctl = .done op st) → (q.todo = r :: more ∨ q.todo = [] ∧ q.forever = r :: more) →
      requestedOp r = none → s.stepRequester t = { s with reqs := s.reqs.set t { q with todo := more } })
  ∧ ∀ (s : State) (r : Request) (e : DecodeError), s.port = some r → decode r = .error e →
      step s = .refused (.undecodable e)

/-- R86 (c) and (e): command ids 15 to 255, ids of the wrong shape, `buf > 1` and `level > 1` are refused, by the decoder
and, for the shape, by the operation itself. -/
def Obligations.IllegalOperandsAreRefused : Prop :=
  (∀ id arg payload, 15 ≤ BitVec.toNat id → decode ⟨makeHeader 0x86 id arg, payload⟩ = .error .badCommandId
      ∧ decode ⟨makeHeader 0x87 id arg, payload⟩ = .error .badCommandId)
  ∧ (∀ (c : CmdId) arg payload s, c.shape = .cmd2 → decode ⟨makeHeader 0x86 c.code arg, payload⟩ = .error .wrongShape
      ∧ exec (.cmdSimple c arg) s = .refused .wrongShape)
  ∧ (∀ (c : CmdId) arg payload s, c.shape = .cmd1 → decode ⟨makeHeader 0x87 c.code arg, payload⟩ = .error .wrongShape
      ∧ exec (.cmdCompound c arg) s = .refused .wrongShape)
  ∧ ∀ a b payload, 2 ≤ BitVec.toNat a →
      (∀ op ∈ [0x80#8, 0x81#8, 0x82#8, 0x83#8, 0x85#8], decode ⟨makeHeader op a b, payload⟩ = .error .badBuffer)
      ∧ decode ⟨makeHeader 0x84 a b, payload⟩ = .error .badLevel

/-- One header of each family, written out from the tables of R84, R85 and R88. Three of these words have two names; that
the decoder answers CTL.CONTRAST, LCD.EVOL and LCD.REFRESH for them is the model's choice (log entry 7). -/
def Obligations.SampleHeadersDecode : Prop :=
  decode ⟨0x022503#24, []⟩ = .ok (.opSetcursor 0x25 3)
  ∧ decode ⟨0x050502#24, []⟩ = .ok (.opClearlines 5 2)
  ∧ decode ⟨0x060102#24, [0x41, 0x42]⟩ = .ok (.opDrawtext 1 2 [0x41, 0x42])
  ∧ decode ⟨0x070010#24, []⟩ = .ok (.ctlContrast 16)
  ∧ decode ⟨0x077E00#24, []⟩ = .ok (.opCtl 0x7E 0)
  ∧ decode ⟨0x820100#24, [0x41]⟩ = .ok (.bufPush .rb 0 [0x41])
  ∧ decode ⟨0x840100#24, []⟩ = .ok (.sel .active)
  ∧ decode ⟨0x860610#24, []⟩ = .ok (.lcdEvol 16)
  ∧ decode ⟨0x870703#24, []⟩ = .ok (.lcdRefresh 3)
  ∧ decode ⟨0x8F0000#24, []⟩ = .ok .lockRel

/-- A step runs the operation that the request at the harness port decodes to, the port emptied; a LOCK.ACQ that is not
enabled stays there while the requesters other than the one that asks move (R190; log entries 6, 11 and 23). -/
def Obligations.StepRunsTheDecodedOperation : Prop :=
  ∀ (s : State) (r : Request) (i : Instr), s.port = some r → decode r = .ok i →
    (exec i { s with port := none } ≠ .fault .lockHeld → step s = exec i { s with port := none })
    ∧ (exec i { s with port := none } = .fault .lockHeld → step s = moveOne s.othersAgents s)

/-- R70, R71: the composed word is `(tag << 8) | byte`; its frame is a data frame exactly when bit 0 of the tag is set. -/
def Obligations.ComposedWordsHoldTagAndByte : Prop :=
  ∀ tag byte : Byte, wordTag (composeWord tag byte) = tag ∧ wordByte (composeWord tag byte) = byte
    ∧ (composeWord tag byte).toNat = tag.toNat * 256 + byte.toNat
    ∧ Frame.isData (frameOf (composeWord tag byte)) = tag.getLsbD 0
    ∧ (frameOf (composeWord tag byte)).extractLsb' 0 8 = byte

/-! ### The Transaction Buffer -/

/-- BUF.ERASE (R100); what it returns is written to the model's result register (log entry 18). -/
def Obligations.EraseZeroesEverySlot : Prop :=
  ∀ (s : State) (b : BufId), encode (.bufErase b) = ⟨makeHeader 0x80 b.code 0, []⟩ ∧ ∃ t, exec (.bufErase b) s = .next t
    ∧ t = (s.setBuf b (t.buf b)).setResult .nothing
    ∧ (t.buf b).len = 0 ∧ (t.buf b).cap = (s.buf b).cap ∧ ∀ i, (t.buf b).read i = 0

/-- BUF.RESET (R101). -/
def Obligations.BufferResetLeavesStorage : Prop :=
  ∀ (s : State) (b : BufId), encode (.bufReset b) = ⟨makeHeader 0x81 b.code 0, []⟩ ∧ ∃ t, exec (.bufReset b) s = .next t
    ∧ t = (s.setBuf b (t.buf b)).setResult .nothing
    ∧ (t.buf b).len = 0 ∧ (t.buf b).cap = (s.buf b).cap ∧ ∀ i, (t.buf b).read i = (s.buf b).read i

/-- BUF.PUSH (R102): the count, the length, the appended words, and every other slot. -/
def Obligations.PushAppendsComposedWords : Prop :=
  ∀ (s : State) (b : BufId) (tag : Byte) (src : List Byte),
    encode (.bufPush b tag src) = ⟨makeHeader 0x82 b.code tag, src⟩ ∧ ∃ t k, exec (.bufPush b tag src) s = .next t
    ∧ t = (s.setBuf b (t.buf b)).setResult (.count k)
    ∧ k = min src.length ((s.buf b).cap - (s.buf b).len)
    ∧ (t.buf b).len = (s.buf b).len + k ∧ (t.buf b).cap = (s.buf b).cap
    ∧ (∀ j x, j < k → src[j]? = some x → (t.buf b).read ((s.buf b).len + j) = (tag ++ x : BitVec (8 + 8)))
    ∧ ∀ i, (i < (s.buf b).len ∨ (s.buf b).len + k ≤ i) → (t.buf b).read i = (s.buf b).read i

/-- BUF.POP (R103): the count, the length, the zeroed tail slots, and every other slot. -/
def Obligations.PopZeroesTheRemovedTail : Prop :=
  ∀ (s : State) (b : BufId) (n : Nat),
    encode (.bufPop b n) = ⟨makeHeader 0x83 b.code (BitVec.ofNat 8 n), []⟩ ∧ ∃ t k, exec (.bufPop b n) s = .next t
    ∧ t = (s.setBuf b (t.buf b)).setResult (.count k)
    ∧ k = min n (s.buf b).len
    ∧ (t.buf b).len = (s.buf b).len - k ∧ (t.buf b).cap = (s.buf b).cap
    ∧ (∀ i, (s.buf b).len - k ≤ i → i < (s.buf b).len → (t.buf b).read i = 0)
    ∧ ∀ i, (i < (s.buf b).len - k ∨ (s.buf b).len ≤ i) → (t.buf b).read i = (s.buf b).read i

/-- R104: a buffer of capacity 0 accepts no push and performs no pop, and no operation changes it. -/
def Obligations.ZeroCapacityBufferIsInert : Prop :=
  ∀ (b : Buf) (tag : Byte) (src : List Byte) (n : Nat), b.cap = 0 → b.len = 0 →
    b.pushCount src = 0 ∧ b.push tag src = b ∧ b.popCount n = 0 ∧ b.pop n = b ∧ b.reset = b ∧ b.erase = b

/-! ### Chip-select, transfer, commands -/

/-- SEL (R120), whatever the level was before. -/
def Obligations.SelectDrivesThePin : Prop :=
  ∀ (s : State) (level : Level),
    encode (.sel level) = ⟨makeHeader 0x84 (if level = .active then 1 else 0) 0, []⟩ ∧
    exec (.sel level) s = .next { s with cs := level, trace := s.trace ++ [.sel level], result := .nothing }

/-- XFER (R121): one call with exactly the valid words in index order; the answer is returned and nothing else of the
block changes; a call that is never answered is no step (R262). -/
def Obligations.TransferSendsTheValidWords : Prop :=
  ∀ (s : State) (b : BufId),
    (∀ ok e, Memory.wf s = true → s.env.answer = some (ok, e) →
      exec (.xfer b) s = .next { s with
        env := e
        trace := s.trace ++ [.xfer ((List.range (s.buf b).len).map (s.buf b).read) ok]
        result := .answer ok })
    ∧ (s.env.answer = none → exec (.xfer b) s = .fault .transportSilent)

/-- CMD.SIMPLE (R122) and the twelve LCD.<name> of shape `CMD1`. -/
def Obligations.SimpleCommandSendsOneWord : Prop :=
  ∀ (s : State) (c : CmdId) (arg : Byte) (ok : Bool) (e : Env) (i : Instr), Memory.wf s = true → c.shape = .cmd1 →
    s.env.answer = some (ok, e) → i ∈ [.cmdSimple c arg, c.named arg] →
    exec i s =
      let w : Word := (0x00#8 ++ ((s.cfg.cmd.get c).base ||| (arg &&& (s.cfg.cmd.get c).mask)) : BitVec (8 + 8))
      .next { s with
        cb := ⟨1, w :: s.cb.st.drop 1⟩
        cs := .inactive
        env := e
        trace := s.trace ++ [.sel .active, .xfer [w] ok, .sel .inactive]
        result := if ok then .nothing else .failed }

/-- CMD.COMPOUND (R123, R125) and the three LCD.<name> of shape `CMD2`. -/
def Obligations.CompoundCommandSendsTwoWordsAtOnce : Prop :=
  ∀ (s : State) (c : CmdId) (arg : Byte) (ok : Bool) (e : Env) (i : Instr), Memory.wf s = true → c.shape = .cmd2 →
    s.env.answer = some (ok, e) → i ∈ [.cmdCompound c arg, c.named arg] →
    exec i s =
      let w₀ : Word := (0x00#8 ++ (s.cfg.cmd.get c).base : BitVec (8 + 8))
      let w₁ : Word := (0x00#8 ++ (arg &&& (s.cfg.cmd.get c).mask) : BitVec (8 + 8))
      .next { s with
        cb := ⟨2, w₀ :: w₁ :: s.cb.st.drop 2⟩
        cs := .inactive
        env := e
        trace := s.trace ++ [.sel .active, .xfer [w₀, w₁] ok, .sel .inactive]
        result := if ok then .nothing else .failed }

/-! ### Cursor, data, clears, text: every transfer succeeding -/

/-- CURSOR (R150, R151): for every x and y. -/
def Obligations.CursorSendsThreeCommands : Prop :=
  ∀ (s : State) (x y : Byte) (e : Env), Memory.wf s = true → s.env.afterSuccesses 3 = some e →
    exec (.cursor x y) s = .next { s with
      cb := s.cb.loaded (commandWords s.cfg .collsb x)
      cs := .inactive
      cur := some ⟨y, x⟩
      env := e
      trace := s.trace ++ bracket (commandWords s.cfg .line y) true
        ++ bracket (commandWords s.cfg .colmsb (x >>> 4)) true ++ bracket (commandWords s.cfg .collsb x) true
      result := .nothing }

/-- WRDATA (R152, R153): the chunks, the events, the row buffer; chip-select is not driven. -/
def Obligations.WriteStreamsChunks : Prop :=
  ∀ (s : State) (bytes : List Byte) (e : Env), Memory.wf s = true →
    s.env.afterSuccesses (chunks s.cfg bytes).length = some e →
    exec (.wrdata bytes) s = .next { s with
      rb := rowAfterWrite s.cfg s.rb bytes
      env := e
      trace := s.trace ++ (chunks s.cfg bytes).map fun c => .xfer (c.map dataWord) true
      result := .nothing }

/-- R152, R259: WRDATA of `n` bytes adds `ceil(n / W)` transfers to the trace and no other event; joined, their words are
the source bytes in order with tag 1, so that none is dropped; every call but the last carries `W` words, and none is
empty. -/
def Obligations.WriteDropsNoByte : Prop :=
  ∀ (s : State) (bytes : List Byte) (e : Env), Memory.wf s = true →
    s.env.afterSuccesses ((bytes.length + s.cfg.w - 1) / s.cfg.w) = some e →
    ∃ (t : State) (calls : List (List Word)), exec (.wrdata bytes) s = .next t
      ∧ t.trace = s.trace ++ calls.map (fun ws => .xfer ws true) ∧ t.env = e ∧ t.cs = s.cs
      ∧ calls.flatten = bytes.map (fun b => (0x01#8 ++ b : BitVec (8 + 8)))
      ∧ calls.length = (bytes.length + s.cfg.w - 1) / s.cfg.w
      ∧ (∀ ws ∈ calls, 1 ≤ ws.length ∧ ws.length ≤ s.cfg.w)
      ∧ ∀ ws ∈ calls.dropLast, ws.length = s.cfg.w

/-- FILLROW (R154). -/
def Obligations.FillRowBlanksTheRowBuffer : Prop :=
  ∀ s : State, Memory.wf s = true →
    exec .fillrow s = .next { s with
      rb := ⟨s.cfg.w, List.replicate s.cfg.w (0x01#8 ++ s.cfg.blank : BitVec (8 + 8))⟩
      result := .nothing }

/-- CLEARALL.BODY (R165). -/
def Obligations.FullClearSendsEveryRow : Prop :=
  ∀ (s : State) (e : Env), Memory.wf s = true → s.env.afterSuccesses (3 + s.cfg.nrows) = some e →
    exec .clearallBody s = .next { s with
      cb := cbAfterCursor s.cfg s.cb 0
      rb := ⟨s.cfg.w, blankRow s.cfg⟩
      cs := .inactive
      cur := some ⟨0, 0⟩
      env := e
      trace := s.trace ++ cursorEvents s.cfg 0 0 ++ [.sel .active]
        ++ List.replicate s.cfg.nrows (.xfer (blankRow s.cfg) true) ++ [.sel .inactive]
      result := .nothing }

/-- CLEARLINES.BODY (R166, R167): four brackets for each line of the range, in order. -/
def Obligations.LineClearSendsEveryLine : Prop :=
  ∀ (s : State) (first last : Byte) (e : Env), Memory.wf s = true →
    s.env.afterSuccesses (4 * ((rangeEnd first last).toNat - first.toNat + 1)) = some e →
    exec (.clearlinesBody first last) s = .next { s with
      cb := cbAfterCursor s.cfg s.cb 0
      rb := ⟨s.cfg.w, blankRow s.cfg⟩
      cs := .inactive
      cur := some ⟨if last.toNat < first.toNat then first else last, 0⟩
      env := e
      trace := s.trace ++ (clearedLines first last).flatMap fun line =>
        cursorEvents s.cfg 0 line ++ bracket (blankRow s.cfg) true
      result := .nothing }

/-- R166, D26: the lines visited are `start` to the end of the range, each once, in order, without a wrap at 255. -/
def Obligations.ClearedLinesAreTheRange : Prop :=
  ∀ first last : Byte,
    (clearedLines first last).map BitVec.toNat
      = if last.toNat < first.toNat then [first.toNat]
        else (List.range (last.toNat - first.toNat + 1)).map (first.toNat + ·)

/-- R167: `end < start` clears exactly line `start`: the same outcome as `start, start`, as body and as host operation. -/
def Obligations.BackwardRangeClearsOneLine : Prop :=
  ∀ (s : State) (first last : Byte), last.toNat < first.toNat →
    clearedLines first last = [first]
    ∧ exec (.clearlinesBody first last) s = exec (.clearlinesBody first first) s
    ∧ exec (.opClearlines first last) s = exec (.opClearlines first first) s

/-- DRAWTEXT.BODY (R181 to R184), for every policy, text and column. -/
def Obligations.DrawTextSendsPolicyCursorGlyphs : Prop :=
  ∀ (s : State) (line col : Byte) (text : List Byte) (e : Env), Memory.wf s = true →
    s.env.afterSuccesses (transfersIn (drawtextEvents s.cfg s.policy line col text)) = some e →
    exec (.drawtextBody line col text) s = .next { s with
      cb := cbAfterCursor s.cfg s.cb col
      rb := rowAfterText s.cfg s.policy s.rb col text
      cs := .inactive
      cur := some ⟨line, col⟩
      env := e
      trace := s.trace ++ policyEvents s.cfg s.policy line col ++ cursorEvents s.cfg col line ++ [.sel .active]
        ++ text.flatMap (fun c => writeEvents s.cfg (s.cfg.glyph c)) ++ [.sel .inactive]
      result := .nothing }

/-- R182: what DRAWTEXT.BODY sends before it addresses the cursor and streams the glyphs, under each policy: nothing; the
cursor at column 0 and `col` blank bytes; the cursor at `col` and `W - col` blank bytes, saturating; or the cursor at column
0 and one blank row. The number of transfers that have to succeed is the rules' own. -/
def Obligations.PolicyStepBlanksItsColumns : Prop :=
  ∀ (s : State) (line col : Byte) (text : List Byte) (e : Env) (policy : Policy) (transfers : Nat) (blanking : List Event),
    Memory.wf s = true →
    (policy, transfers, blanking) ∈
      [(.none, 0, []),
       (.clearLeft, 3 + (col.toNat + s.cfg.w - 1) / s.cfg.w,
        cursorEvents s.cfg 0 line ++ [.sel .active] ++ writeEvents s.cfg (List.replicate col.toNat s.cfg.blank)
          ++ [.sel .inactive]),
       (.clearRight, 3 + (if col.toNat < s.cfg.w then 1 else 0),
        cursorEvents s.cfg col line ++ [.sel .active]
          ++ (if col.toNat < s.cfg.w then
                [.xfer (List.replicate (s.cfg.w - col.toNat) (0x01#8 ++ s.cfg.blank : BitVec (8 + 8))) true] else [])
          ++ [.sel .inactive]),
       (.clearBoth, 4,
        cursorEvents s.cfg 0 line
          ++ bracket (List.replicate s.cfg.w (0x01#8 ++ s.cfg.blank : BitVec (8 + 8))) true)] →
    s.policy = policy →
    s.env.afterSuccesses (transfers + 3 + text.length * ((s.cfg.gw + s.cfg.w - 1) / s.cfg.w)) = some e →
    ∃ t, exec (.drawtextBody line col text) s = .next t
      ∧ t.trace = s.trace ++ blanking ++ cursorEvents s.cfg col line ++ [.sel .active]
          ++ text.flatMap (fun c => writeEvents s.cfg (s.cfg.glyph c)) ++ [.sel .inactive]
      ∧ t.env = e ∧ t.cs = .inactive ∧ t.cur = some ⟨line, col⟩

/-! ### A transfer fails -/

/-- R224, R228: after `n` successful transfers of a body the next one fails: the events up to it are those of the run
without failure, the open bracket is closed, no later step is run, and the body ends with `Fail`. R225: the buffer of that
transfer holds its words, both buffers are as their last loading left them, `CUR` as the last completed CURSOR left it.
CURSOR, WRDATA, CLEARALL.BODY, CLEARLINES.BODY and DRAWTEXT.BODY. -/
def Obligations.FirstFailureEndsABody : Prop :=
  ∀ (s : State) (op : HostOp) (i : Instr) (n : Nat) (e₁ e₂ : Env), Memory.wf s = true → op.body? = some i →
    n < transfersIn (op.bodyEvents s.cfg s.policy) → s.env.afterSuccesses n = some e₁ → e₁.answer = some (false, e₂) →
    ∃ t events b ws, exec i s = .next t ∧ events = failedAt false n (op.bodyEvents s.cfg s.policy)
      ∧ t.trace = s.trace ++ events ∧ .xfer ws false ∈ events ∧ (t.buf b).valid = ws
      ∧ t.cb = s.cb.afterCalls 0x00 events ∧ t.rb = (op.rowBefore s.cfg s.policy s.rb).afterCalls 0x01 events
      ∧ t.cur = op.curAfter s.policy s.cur events
      ∧ t.result = .failed ∧ t.env = e₂ ∧ (s.cs = .inactive → t.cs = .inactive)
      ∧ t.lock = s.lock ∧ t.reqs = s.reqs ∧ t.policy = s.policy ∧ t.cfg = s.cfg ∧ t.port = s.port ∧ t.who = s.who

/-- R150: a cursor sequence that fails leaves `CUR` as it was and the row buffer alone. -/
def Obligations.FailedCursorKeepsTheOldPosition : Prop :=
  ∀ (s : State) (x y : Byte) (n : Nat) (e₁ e₂ : Env), Memory.wf s = true → n < 3 →
    s.env.afterSuccesses n = some e₁ → e₁.answer = some (false, e₂) →
    ∃ t, exec (.cursor x y) s = .next t ∧ t.cur = s.cur ∧ t.rb = s.rb ∧ t.result = .failed
      ∧ transfersIn t.trace = transfersIn s.trace + n + 1

/-- R192, R224, R225: a host operation whose transfer fails closes the bracket, releases the lock and returns FAIL; the
buffer of that transfer holds its words, both buffers are as their last loading left them, `CUR` as the last completed
CURSOR left it. OP.SETCURSOR, OP.WRITE, OP.CLEARALL, OP.CLEARLINES, OP.CLEARLINE and OP.DRAWTEXT. -/
def Obligations.FirstFailureEndsAHostOperation : Prop :=
  ∀ (s : State) (i j : Instr) (op : HostOp) (n : Nat) (e₁ e₂ : Env), Memory.wf s = true → s.ready = true →
    hostOp? i = some op → op.body? = some j → n < transfersIn (op.bodyEvents s.cfg s.policy) →
    s.env.afterSuccesses n = some e₁ → e₁.answer = some (false, e₂) →
    ∃ t events b ws, exec i s = .next t ∧ events = failedAt false n (op.bodyEvents s.cfg s.policy)
      ∧ t.trace = s.trace ++ [.acq s.who] ++ events ++ [.rel s.who, .ret s.who .fail]
      ∧ .xfer ws false ∈ events ∧ (t.buf b).valid = ws
      ∧ t.cb = s.cb.afterCalls 0x00 events ∧ t.rb = (op.rowBefore s.cfg s.policy s.rb).afterCalls 0x01 events
      ∧ t.cur = op.curAfter s.policy s.cur events
      ∧ t.reqs = s.returned op .fail ∧ t.lock = .free ∧ (s.cs = .inactive → t.cs = .inactive)
      ∧ t.env = e₂ ∧ t.policy = s.policy ∧ t.cfg = s.cfg ∧ t.port = s.port ∧ t.who = s.who ∧ t.result = s.result

/-! ### Host operations: every transfer succeeding -/

/-- OP.SETCURSOR (R194). -/
def Obligations.SetCursorRunsUnderTheLock : Prop :=
  ∀ (s : State) (x y : Byte) (e : Env), Memory.wf s = true → s.ready = true → s.env.afterSuccesses 3 = some e →
    exec (.opSetcursor x y) s = .next { s with
      cb := cbAfterCursor s.cfg s.cb x
      cs := .inactive
      cur := some ⟨y, x⟩
      reqs := s.returned (.setCursor x y) .ok
      env := e
      trace := s.trace ++ [.acq s.who] ++ cursorEvents s.cfg x y ++ [.rel s.who, .ret s.who .ok] }

/-- OP.WRITE (R195, R257): chip-select is as it was found. -/
def Obligations.HostWriteLeavesChipSelect : Prop :=
  ∀ (s : State) (bytes : List Byte) (e : Env), Memory.wf s = true → s.ready = true →
    s.env.afterSuccesses (transfersIn (writeEvents s.cfg bytes)) = some e →
    exec (.opWrite bytes) s = .next { s with
      rb := rowAfterWrite s.cfg s.rb bytes
      reqs := s.returned (.write bytes) .ok
      env := e
      trace := s.trace ++ [.acq s.who] ++ writeEvents s.cfg bytes ++ [.rel s.who, .ret s.who .ok] }

/-- OP.CLEARALL (R196). -/
def Obligations.HostFullClearRunsUnderTheLock : Prop :=
  ∀ (s : State) (e : Env), Memory.wf s = true → s.ready = true → s.env.afterSuccesses (3 + s.cfg.nrows) = some e →
    exec .opClearall s = .next { s with
      cb := cbAfterCursor s.cfg s.cb 0
      rb := ⟨s.cfg.w, blankRow s.cfg⟩
      cs := .inactive
      cur := some ⟨0, 0⟩
      reqs := s.returned .clearAll .ok
      env := e
      trace := s.trace ++ [.acq s.who] ++ clearallEvents s.cfg ++ [.rel s.who, .ret s.who .ok] }

/-- OP.CLEARLINES and OP.CLEARLINE (R197, R88). -/
def Obligations.HostLineClearRunsUnderTheLock : Prop :=
  ∀ (s : State) (first last : Byte) (e : Env) (i : Instr), Memory.wf s = true → s.ready = true →
    s.env.afterSuccesses (transfersIn (clearlinesEvents s.cfg first last)) = some e →
    (i = .opClearlines first last ∨ (i = .opClearline first ∧ last = first)) →
    exec i s = .next { s with
      cb := cbAfterCursor s.cfg s.cb 0
      rb := ⟨s.cfg.w, blankRow s.cfg⟩
      cs := .inactive
      cur := some ⟨rangeEnd first last, 0⟩
      reqs := s.returned (.clearLines first (rangeEnd first last)) .ok
      env := e
      trace := s.trace ++ [.acq s.who] ++ clearlinesEvents s.cfg first last ++ [.rel s.who, .ret s.who .ok] }

/-- OP.DRAWTEXT (R198): one Acquire and one Release around the policy step, the cursor and all glyphs. -/
def Obligations.HostDrawTextRunsUnderTheLock : Prop :=
  ∀ (s : State) (line col : Byte) (text : List Byte) (e : Env), Memory.wf s = true → s.ready = true →
    s.env.afterSuccesses (transfersIn (drawtextEvents s.cfg s.policy line col text)) = some e →
    exec (.opDrawtext line col text) s = .next { s with
      cb := cbAfterCursor s.cfg s.cb col
      rb := rowAfterText s.cfg s.policy s.rb col text
      cs := .inactive
      cur := some ⟨line, col⟩
      reqs := s.returned (.drawText line col text) .ok
      env := e
      trace := s.trace ++ [.acq s.who] ++ drawtextEvents s.cfg s.policy line col text ++ [.rel s.who, .ret s.who .ok] }

/-- OP.CTL (R199) of a recognised code and a legal argument: one command in the shape of its id, OK or FAIL by the
transport's answer. -/
def Obligations.ControlSendsItsCommand : Prop :=
  ∀ (s : State) (code arg : Byte) (entry : CtlEntry) (ok : Bool) (e : Env), Memory.wf s = true → s.ready = true →
    s.cfg.ctlEntry code = some entry → s.cfg.isLegal entry arg = true → s.env.answer = some (ok, e) →
    exec (.opCtl code arg) s = .next { s with
      cb := s.cb.loaded (commandWords s.cfg entry.cmd arg)
      cs := .inactive
      reqs := s.returned (.ctl code arg) (if ok then .ok else .fail)
      env := e
      trace := s.trace ++ [.acq s.who] ++ bracket (commandWords s.cfg entry.cmd arg) ok
        ++ [.rel s.who, .ret s.who (if ok then .ok else .fail)] }

/-- R207, R222, R223, R227: an unrecognised code is NOT_FOUND whatever the argument, an illegal argument is ARG_RANGE;
neither touches a buffer, chip-select, the cursor or the transport, and both take and release the lock. -/
def Obligations.RejectedControlTouchesNothing : Prop :=
  ∀ (s : State) (code arg : Byte), s.ready = true →
    (s.cfg.ctlEntry code = none →
      exec (.opCtl code arg) s = .next { s with
        reqs := s.returned (.ctl code arg) .notFound
        trace := s.trace ++ [.acq s.who, .rel s.who, .ret s.who .notFound] })
    ∧ ∀ entry, s.cfg.ctlEntry code = some entry → s.cfg.isLegal entry arg = false →
      exec (.opCtl code arg) s = .next { s with
        reqs := s.returned (.ctl code arg) .argRange
        trace := s.trace ++ [.acq s.who, .rel s.who, .ret s.who .argRange] }

/-- CTL.CONTRAST (R200) and CTL.REFRESH (R201) under the default control table: LCD.EVOL and LCD.REFRESH when `v` is at
most the command's mask, ARG_RANGE otherwise. -/
def Obligations.ContrastAndRefreshUseTheirMasks : Prop :=
  ∀ (s : State) (v : Byte), Memory.wf s = true → s.ready = true → s.cfg.ctl = defaultCtl →
    (∀ (i : Instr) (code : Byte) (c : CmdId), (i, code, c) ∈ [(.ctlContrast v, 0x00#8, .evol), (.ctlRefresh v, 0x01#8, .refresh)] →
      (∀ ok e, v.toNat ≤ (s.cfg.cmd.get c).mask.toNat → s.env.answer = some (ok, e) →
        exec i s = .next { s with
          cb := s.cb.loaded (commandWords s.cfg c v)
          cs := .inactive
          reqs := s.returned (.ctl code v) (if ok then .ok else .fail)
          env := e
          trace := s.trace ++ [.acq s.who] ++ bracket (commandWords s.cfg c v) ok
            ++ [.rel s.who, .ret s.who (if ok then .ok else .fail)] })
      ∧ ((s.cfg.cmd.get c).mask.toNat < v.toNat →
        exec i s = .next { s with
          reqs := s.returned (.ctl code v) .argRange
          trace := s.trace ++ [.acq s.who, .rel s.who, .ret s.who .argRange] }))

/-- OP.INIT (R202, R203, R253): seven commands, the window, the full clear, the window, five commands; and what it leaves
in the block. -/
def Obligations.BringUpRunsItsThirteenSteps : Prop :=
  ∀ (s : State) (e : Env), Memory.wf s = true → s.ready = true →
    s.env.afterSuccesses (15 + s.cfg.nrows) = some e →
    exec .opInit s = .next { s with
      cb := (s.cb.loaded (commandWords s.cfg .vop s.cfg.initArg.vop)).loaded
        (commandWords s.cfg .reverse s.cfg.initArg.reverse)
      rb := ⟨s.cfg.w, blankRow s.cfg⟩
      cs := .inactive
      cur := some ⟨0, 0⟩
      reqs := s.returned .init .ok
      env := e
      trace := s.trace ++ [.acq s.who] ++ bringUpEvents s.cfg s.who ++ [.rel s.who, .ret s.who .ok] }

/-- OP.INIT (R202, R239): the first failing transfer, number `n` from 0, ends bring-up with FAIL; inside the full clear
the lock is re-acquired and released once more. R225: the buffer of that transfer holds its words, the command buffer is as
the last command left it, the row buffer is filled from the full clear on, `CUR` is (0, 0) once the full clear has
addressed it. -/
def Obligations.BringUpFailsAtItsFirstFailure : Prop :=
  ∀ (s : State) (n : Nat) (e₁ e₂ : Env), Memory.wf s = true → s.ready = true → n < 15 + s.cfg.nrows →
    s.env.afterSuccesses n = some e₁ → e₁.answer = some (false, e₂) →
    ∃ t events b ws, exec .opInit s = .next t ∧ events = failedAt false n (bringUpEvents s.cfg s.who)
      ∧ t.trace = s.trace ++ [.acq s.who] ++ events ++ bringUpExit s.cfg s.who n
      ∧ .xfer ws false ∈ events ∧ (t.buf b).valid = ws
      ∧ t.cb = s.cb.afterCalls 0x00 events ∧ t.rb = (if n < 7 then s.rb else ⟨s.cfg.w, blankRow s.cfg⟩)
      ∧ t.cur = (if n < 10 then s.cur else some ⟨0, 0⟩)
      ∧ t.reqs = s.returned .init .fail ∧ t.lock = .free ∧ (s.cs = .inactive → t.cs = .inactive)
      ∧ t.env = e₂ ∧ t.policy = s.policy ∧ t.cfg = s.cfg ∧ t.port = s.port ∧ t.who = s.who ∧ t.result = s.result

/-! ### The lock -/

/-- LOCK.ACQ (R190): granted when the lock is free; not enabled otherwise, for its holder too (R206). -/
def Obligations.AcquireTakesAFreeLock : Prop :=
  ∀ (s : State) (q : Requester), s.reqs[s.who]? = some q →
    (s.lock = .free →
      exec .lockAcq s = .next { s with
        lock := .held s.who, trace := s.trace ++ [.acq s.who], result := .nothing })
    ∧ ∀ u, s.lock = .held u → exec .lockAcq s = .fault .lockHeld

/-- LOCK.REL (R191): requires the holder; refused otherwise. -/
def Obligations.OnlyTheHolderReleases : Prop :=
  ∀ s : State,
    (s.lock = .held s.who →
      exec .lockRel s = .next { s with lock := .free, trace := s.trace ++ [.rel s.who], result := .nothing })
    ∧ (s.lock ≠ .held s.who → exec .lockRel s = .refused .notHolder)

/-- R190, R192: a host operation issued while the lock is held waits at its Acquire; nothing else changes. -/
def Obligations.HeldLockMakesOperationsWait : Prop :=
  ∀ (s : State) (i : Instr) (op : HostOp) (u : Nat) (c : Ctl), hostOp? i = some op → s.ctl? s.who = some c →
    (c = .idle ∨ ∃ o st, c = .done o st) → s.lock = .held u →
    exec i s = .next (s.setCtl s.who (.waiting op 0 (hostOpSequence s.cfg s.policy op)))

/-- R192, R224, R225, R241: whatever the transport answers, a host operation ends with the lock free, chip-select
inactive, the policy as it was and a status that the table of R241 allows it, returned after its Release. -/
def Obligations.EveryHostOperationReturns : Prop :=
  ∀ (s : State) (i : Instr) (op : HostOp), hostOp? i = some op → s.ready = true → s.cs = .inactive →
    s.env.silent = false →
    ∃ t st before, exec i s = .next t ∧ t.lock = .free ∧ t.cs = .inactive ∧ t.policy = s.policy
      ∧ t.reqs = s.returned op st ∧ op.mayEndWith st = true
      ∧ t.trace = s.trace ++ [.acq s.who] ++ before ++ [.rel s.who, .ret s.who st]
      ∧ (st = .fail ↔ noFailure before = false)

/-- R81: every transfer of a host operation carries one command word, two command words, or 1 to `W` data words; it never
mixes them and is never empty. -/
def Obligations.EngineTransfersAreUniform : Prop :=
  ∀ (s t : State) (i : Instr) (op : HostOp), Memory.wf s = true → hostOp? i = some op → exec i s = .next t →
    ∃ after, t.trace = s.trace ++ after ∧ ∀ ws ok, Event.xfer ws ok ∈ after → uniformTransfer s.cfg ws

/-! ### The machine -/

/-- What reset leaves (R38, R250); the storage words themselves are free values (log entry 3). -/
def Obligations.ResetStateIsAsListed : Prop :=
  State.reset.cb.len = 0 ∧ State.reset.cb.cap = 4 ∧ State.reset.rb.len = 0 ∧ State.reset.rb.cap = State.reset.cfg.w
  ∧ State.reset.policy = State.reset.cfg.policy0 ∧ State.reset.lock = .free ∧ State.reset.cs = .inactive
  ∧ State.reset.cur = none ∧ State.reset.reqs.length = State.reset.cfg.nreq
  ∧ (∀ q ∈ State.reset.reqs, q.ctl = .idle) ∧ State.reset.trace = []

/-- Reset meets the invariants that steps keep. -/
def Obligations.ResetMeetsTheInvariants : Prop :=
  Memory.wf State.reset = true ∧ State.reset.safe

/-- R21, R25: every step, whatever it runs, keeps the form of both storages: 4 and `W` slots, `len` at most that. -/
def Obligations.EveryStepKeepsTheStorages : Prop :=
  ∀ s t : State, Memory.wf s = true → step s = .next t → Memory.wf t = true

/-- R6, R25, R26: no step changes the configuration, the policy, the capacities or the number of requesters. -/
def Obligations.ConfigurationAndPolicyNeverChange : Prop :=
  ∀ s t : State, step s = .next t →
    t.cfg = s.cfg ∧ t.policy = s.policy ∧ t.cb.cap = s.cb.cap ∧ t.rb.cap = s.rb.cap ∧ t.reqs.length = s.reqs.length

/-- R193, R205: while the harness is not used, every step keeps mutual exclusion, the bracket discipline and the serial
trace. -/
def Obligations.EveryStepKeepsMutualExclusion : Prop :=
  ∀ s t : State, s.safe → step s = .next t → t.safe

/-- R193: in a safe state at most one requester is inside a critical section, and it is the holder of the lock. -/
def Obligations.OnlyTheHolderIsInside : Prop :=
  ∀ (s : State) (t : Nat) (op : HostOp) (k : Nat) (rest : List Item), s.safe →
    s.ctl? t = some (.running op k rest) → returning rest = false → s.lock = .held t

/-- R271: a finished run of a safe machine leaves the lock free and chip-select inactive. -/
def Obligations.FinishedRunsReleaseEverything : Prop :=
  ∀ s : State, s.safe → s.finished = true → s.lock = .free ∧ s.cs = .inactive

/-- R190, R267, R271, D7: any waiter may be the one that is granted a free lock, and no waiter need ever be. The second
clause is the hanging run of the unfair wait: requester 0 waits, requester 1 writes nothing again and again, the choice is
always requester 1; after any number of its operations the run still goes on, and requester 0 stands where it stood. -/
def Obligations.AnyWaiterMayBeGranted : Prop :=
  (∀ (s : State) (t : Nat) (op : HostOp) (k : Nat) (rest : List Item), s.port = none → s.lock = .free →
    s.ctl? t = some (.waiting op k rest) →
    ∃ choices u, step { s with env := { s.env with choices := choices } } = .next u ∧ u.lock = .held t
      ∧ u.trace = s.trace ++ [.acq t] ∧ u.ctl? t = some (standing op k rest))
  ∧ ∀ (s : State) (p q : Requester) (op : HostOp) (k : Nat) (rest : List Item), s.port = none → s.lock = .free →
    s.reqs = [p, q] → p.ctl = .waiting op k rest → (q.ctl = .idle ∨ ∃ o st, q.ctl = .done o st) → q.todo = [] →
    q.forever = [⟨0x030000#24, []⟩] → s.env.choices = [] → s.env.choicesForever = [1] →
    ∀ n, ∃ u, Host.Core.run Sys2Proof.core (4 * n) s = .next u ∧ u.reqs[0]? = some p
      ∧ u.trace = s.trace ++ (List.replicate n [.acq 1, .rel 1, .ret 1 .ok]).flatten

/-- R203, R255: when bring-up reaches a release of its window, the lock is free, bring-up waits, and another waiting
requester can be granted before it. -/
def Obligations.BringUpWindowLetsOthersIn : Prop :=
  ∀ (s : State) (t u k k' : Nat) (op' : HostOp) (rest rest' : List Item), t ≠ u →
    s.ctl? t = some (.running .init k (.prim .rel :: .prim .acq :: rest)) → s.ctl? u = some (.waiting op' k' rest') →
    (s.stepRequester t).lock = .free
    ∧ (s.stepRequester t).ctl? t = some (.waiting .init (k + 2) rest)
    ∧ u ∈ (s.stepRequester t).agents
    ∧ ((s.stepRequester t).stepRequester u).lock = .held u

/-- R202, R203: bring-up has exactly two such points, before and after the full clear. -/
def Obligations.BringUpHasTwoWindows : Prop :=
  ∀ cfg : Cfg, ∃ a b c, initSequence cfg = a ++ [.prim .rel, .prim .acq] ++ b ++ [.prim .rel, .prim .acq] ++ c
    ++ [.prim .rel, .prim (.ret .ok)]
    ∧ ∀ i ∈ a ++ b ++ c, i ≠ .prim .rel ∧ i ≠ .prim .acq ∧ ∀ st, i ≠ .prim (.ret st)

/-- R206, R256, R271: a requester that asks for the lock it holds is stuck, and with it the machine, when every other
requester waits too or has nothing left to issue; what its own operation still has to run does not matter. -/
def Obligations.SelfDeadlockIsStuck : Prop :=
  ∀ (s : State) (r : Request) (q : Requester), s.port = some r → decode r = .ok .lockAcq → s.reqs[s.who]? = some q →
    s.lock = .held s.who →
    (∀ u q', s.reqs[u]? = some q' → u ≠ s.who → (∃ o j l, q'.ctl = .waiting o j l) ∨ q'.isFinished = true) →
    step s = .fault .stuck

/-- R262, R271: a transfer that is never answered leaves its holder without a step, and every waiter too: the machine is
stuck. -/
def Obligations.SilentTransportIsStuck : Prop :=
  ∀ (s : State) (t : Nat) (op : HostOp) (k : Nat) (b : BufId) (f : List Prim) (rest : List Item), s.port = none →
    s.lock = .held t → s.ctl? t = some (.running op k (.xfer b f :: rest)) → s.env.answer = none →
    (∀ u q, s.reqs[u]? = some q → u ≠ t → (∃ o j l, q.ctl = .waiting o j l) ∨ q.isFinished = true) →
    step s = .fault .stuck

/-- R29, R192 against R10, between the model's two ways to run an operation (log entries 6 and 8): the run of the requesters' machine, in which every step is one micro-operation, from a request
just issued, ends in the very state that the whole host operation gives, when no other requester has anything to do and
the transport answers. -/
def Obligations.UndisturbedRunIsTheHostOperation : Prop :=
  ∀ (s : State) (i : Instr) (op : HostOp), hostOp? i = some op → s.port = none → s.ready = true → s.cs = .inactive →
    s.env.silent = false →
    (∀ t q, s.reqs[t]? = some q → t ≠ s.who → q.isFinished = true) →
    ∃ n u, exec i s = .next u
      ∧ Host.Core.run Sys2Proof.core n (s.setCtl s.who (.waiting op 0 (hostOpSequence s.cfg s.policy op))) = .next u

/-- R190, R206, R256: while a LOCK.ACQ waits at the harness port, its requester takes no step at all and the request stays
there; when that requester holds the lock itself, it keeps it for good, and no step of another touches a buffer,
chip-select, the cursor or the transport. -/
def Obligations.AskingForTheLockStopsTheRequester : Prop :=
  ∀ (s t : State) (r : Request) (u : Nat), s.port = some r → decode r = .ok .lockAcq → s.lock = .held u →
    step s = .next t →
    t.port = s.port ∧ t.who = s.who ∧ t.reqs[s.who]? = s.reqs[s.who]?
    ∧ (u = s.who → t.lock = s.lock ∧ t.cb = s.cb ∧ t.rb = s.rb ∧ t.cs = s.cs ∧ t.cur = s.cur
        ∧ (t.trace = s.trace ∨ ∃ v st, t.trace = s.trace ++ [.ret v st]))

/-- R29, R192: an idle or done requester whose next request is accepted goes to `Waiting` with that operation; nothing else
changes but its list of requests to come, and such a step can always be the next one when the harness port is empty. -/
def Obligations.AcceptedRequestsWaitAtTheirAcquire : Prop :=
  ∀ (s : State) (t : Nat) (q : Requester) (r : Request) (more : List Request) (op : HostOp),
    s.reqs[t]? = some q → (q.ctl = .idle ∨ ∃ o st, q.ctl = .done o st) →
    (q.todo = r :: more ∨ q.todo = [] ∧ q.forever = r :: more) → requestedOp r = some op →
    s.stepRequester t =
      { s with
        reqs := s.reqs.set t { q with ctl := .waiting op 0 (hostOpSequence s.cfg s.policy op), todo := more } }
    ∧ (s.port = none → ∃ choices u, step { s with env := { s.env with choices := choices } } = .next u
        ∧ u = { s.stepRequester t with env := u.env })
end

