-- ==== Sys2Proof/Laws/State.lean ====
section
/-!
SUPPORT. One lemma per field per update of the state: what the update leaves in the field. Later proofs cite these and
unfold no record update.
-/

namespace Sys2Proof.Machine

@[simp] theorem State.setBuf_cfg (s : State) (b : BufId) (v : Buf) : (s.setBuf b v).cfg = s.cfg := by
  cases b <;> rfl

@[simp] theorem State.setBuf_policy (s : State) (b : BufId) (v : Buf) : (s.setBuf b v).policy = s.policy := by
  cases b <;> rfl

@[simp] theorem State.setBuf_lock (s : State) (b : BufId) (v : Buf) : (s.setBuf b v).lock = s.lock := by
  cases b <;> rfl

@[simp] theorem State.setBuf_cs (s : State) (b : BufId) (v : Buf) : (s.setBuf b v).cs = s.cs := by
  cases b <;> rfl

@[simp] theorem State.setBuf_cur (s : State) (b : BufId) (v : Buf) : (s.setBuf b v).cur = s.cur := by
  cases b <;> rfl

@[simp] theorem State.setBuf_reqs (s : State) (b : BufId) (v : Buf) : (s.setBuf b v).reqs = s.reqs := by
  cases b <;> rfl

@[simp] theorem State.setBuf_trace (s : State) (b : BufId) (v : Buf) : (s.setBuf b v).trace = s.trace := by
  cases b <;> rfl

@[simp] theorem State.setBuf_env (s : State) (b : BufId) (v : Buf) : (s.setBuf b v).env = s.env := by
  cases b <;> rfl

@[simp] theorem State.setBuf_port (s : State) (b : BufId) (v : Buf) : (s.setBuf b v).port = s.port := by
  cases b <;> rfl

@[simp] theorem State.setBuf_who (s : State) (b : BufId) (v : Buf) : (s.setBuf b v).who = s.who := by
  cases b <;> rfl

@[simp] theorem State.setBuf_result (s : State) (b : BufId) (v : Buf) : (s.setBuf b v).result = s.result := by
  cases b <;> rfl

@[simp] theorem State.emit_cfg (s : State) (e : Event) : (s.emit e).cfg = s.cfg := rfl

@[simp] theorem State.emit_cb (s : State) (e : Event) : (s.emit e).cb = s.cb := rfl

@[simp] theorem State.emit_rb (s : State) (e : Event) : (s.emit e).rb = s.rb := rfl

@[simp] theorem State.emit_policy (s : State) (e : Event) : (s.emit e).policy = s.policy := rfl

@[simp] theorem State.emit_lock (s : State) (e : Event) : (s.emit e).lock = s.lock := rfl

@[simp] theorem State.emit_cs (s : State) (e : Event) : (s.emit e).cs = s.cs := rfl

@[simp] theorem State.emit_cur (s : State) (e : Event) : (s.emit e).cur = s.cur := rfl

@[simp] theorem State.emit_reqs (s : State) (e : Event) : (s.emit e).reqs = s.reqs := rfl

@[simp] theorem State.emit_trace (s : State) (e : Event) : (s.emit e).trace = s.trace ++ [e] := rfl

@[simp] theorem State.emit_env (s : State) (e : Event) : (s.emit e).env = s.env := rfl

@[simp] theorem State.emit_port (s : State) (e : Event) : (s.emit e).port = s.port := rfl

@[simp] theorem State.emit_who (s : State) (e : Event) : (s.emit e).who = s.who := rfl

@[simp] theorem State.emit_result (s : State) (e : Event) : (s.emit e).result = s.result := rfl

@[simp] theorem State.setCtl_cfg (s : State) (t : Nat) (c : Ctl) : (s.setCtl t c).cfg = s.cfg := rfl

@[simp] theorem State.setCtl_cb (s : State) (t : Nat) (c : Ctl) : (s.setCtl t c).cb = s.cb := rfl

@[simp] theorem State.setCtl_rb (s : State) (t : Nat) (c : Ctl) : (s.setCtl t c).rb = s.rb := rfl

@[simp] theorem State.setCtl_policy (s : State) (t : Nat) (c : Ctl) : (s.setCtl t c).policy = s.policy := rfl

@[simp] theorem State.setCtl_lock (s : State) (t : Nat) (c : Ctl) : (s.setCtl t c).lock = s.lock := rfl

@[simp] theorem State.setCtl_cs (s : State) (t : Nat) (c : Ctl) : (s.setCtl t c).cs = s.cs := rfl

@[simp] theorem State.setCtl_cur (s : State) (t : Nat) (c : Ctl) : (s.setCtl t c).cur = s.cur := rfl

@[simp] theorem State.setCtl_reqs (s : State) (t : Nat) (c : Ctl) : (s.setCtl t c).reqs = s.reqs.modify t fun q => { q with ctl := c } := rfl

@[simp] theorem State.setCtl_trace (s : State) (t : Nat) (c : Ctl) : (s.setCtl t c).trace = s.trace := rfl

@[simp] theorem State.setCtl_env (s : State) (t : Nat) (c : Ctl) : (s.setCtl t c).env = s.env := rfl

@[simp] theorem State.setCtl_port (s : State) (t : Nat) (c : Ctl) : (s.setCtl t c).port = s.port := rfl

@[simp] theorem State.setCtl_who (s : State) (t : Nat) (c : Ctl) : (s.setCtl t c).who = s.who := rfl

@[simp] theorem State.setCtl_result (s : State) (t : Nat) (c : Ctl) : (s.setCtl t c).result = s.result := rfl

@[simp] theorem State.setResult_cfg (s : State) (r : Result) : (s.setResult r).cfg = s.cfg := rfl

@[simp] theorem State.setResult_cb (s : State) (r : Result) : (s.setResult r).cb = s.cb := rfl

@[simp] theorem State.setResult_rb (s : State) (r : Result) : (s.setResult r).rb = s.rb := rfl

@[simp] theorem State.setResult_policy (s : State) (r : Result) : (s.setResult r).policy = s.policy := rfl

@[simp] theorem State.setResult_lock (s : State) (r : Result) : (s.setResult r).lock = s.lock := rfl

@[simp] theorem State.setResult_cs (s : State) (r : Result) : (s.setResult r).cs = s.cs := rfl

@[simp] theorem State.setResult_cur (s : State) (r : Result) : (s.setResult r).cur = s.cur := rfl

@[simp] theorem State.setResult_reqs (s : State) (r : Result) : (s.setResult r).reqs = s.reqs := rfl

@[simp] theorem State.setResult_trace (s : State) (r : Result) : (s.setResult r).trace = s.trace := rfl

@[simp] theorem State.setResult_env (s : State) (r : Result) : (s.setResult r).env = s.env := rfl

@[simp] theorem State.setResult_port (s : State) (r : Result) : (s.setResult r).port = s.port := rfl

@[simp] theorem State.setResult_who (s : State) (r : Result) : (s.setResult r).who = s.who := rfl

@[simp] theorem State.setResult_result (s : State) (r : Result) : (s.setResult r).result = r := rfl

@[simp] theorem State.select_cfg (s : State) (level : Level) : (s.select level).cfg = s.cfg := rfl

@[simp] theorem State.select_cb (s : State) (level : Level) : (s.select level).cb = s.cb := rfl

@[simp] theorem State.select_rb (s : State) (level : Level) : (s.select level).rb = s.rb := rfl

@[simp] theorem State.select_policy (s : State) (level : Level) : (s.select level).policy = s.policy := rfl

@[simp] theorem State.select_lock (s : State) (level : Level) : (s.select level).lock = s.lock := rfl

@[simp] theorem State.select_cs (s : State) (level : Level) : (s.select level).cs = level := rfl

@[simp] theorem State.select_cur (s : State) (level : Level) : (s.select level).cur = s.cur := rfl

@[simp] theorem State.select_reqs (s : State) (level : Level) : (s.select level).reqs = s.reqs := rfl

@[simp] theorem State.select_trace (s : State) (level : Level) : (s.select level).trace = s.trace ++ [.sel level] := rfl

@[simp] theorem State.select_env (s : State) (level : Level) : (s.select level).env = s.env := rfl

@[simp] theorem State.select_port (s : State) (level : Level) : (s.select level).port = s.port := rfl

@[simp] theorem State.select_who (s : State) (level : Level) : (s.select level).who = s.who := rfl

@[simp] theorem State.select_result (s : State) (level : Level) : (s.select level).result = s.result := rfl

@[simp] theorem State.latch_cfg (s : State) (row col : Byte) : (s.latch row col).cfg = s.cfg := rfl

@[simp] theorem State.latch_cb (s : State) (row col : Byte) : (s.latch row col).cb = s.cb := rfl

@[simp] theorem State.latch_rb (s : State) (row col : Byte) : (s.latch row col).rb = s.rb := rfl

@[simp] theorem State.latch_policy (s : State) (row col : Byte) : (s.latch row col).policy = s.policy := rfl

@[simp] theorem State.latch_lock (s : State) (row col : Byte) : (s.latch row col).lock = s.lock := rfl

@[simp] theorem State.latch_cs (s : State) (row col : Byte) : (s.latch row col).cs = s.cs := rfl

@[simp] theorem State.latch_cur (s : State) (row col : Byte) : (s.latch row col).cur = some ⟨row, col⟩ := rfl

@[simp] theorem State.latch_reqs (s : State) (row col : Byte) : (s.latch row col).reqs = s.reqs := rfl

@[simp] theorem State.latch_trace (s : State) (row col : Byte) : (s.latch row col).trace = s.trace := rfl

@[simp] theorem State.latch_env (s : State) (row col : Byte) : (s.latch row col).env = s.env := rfl

@[simp] theorem State.latch_port (s : State) (row col : Byte) : (s.latch row col).port = s.port := rfl

@[simp] theorem State.latch_who (s : State) (row col : Byte) : (s.latch row col).who = s.who := rfl

@[simp] theorem State.latch_result (s : State) (row col : Byte) : (s.latch row col).result = s.result := rfl

@[simp] theorem State.acquire_cfg (s : State) (t : Nat) : (s.acquire t).cfg = s.cfg := rfl

@[simp] theorem State.acquire_cb (s : State) (t : Nat) : (s.acquire t).cb = s.cb := rfl

@[simp] theorem State.acquire_rb (s : State) (t : Nat) : (s.acquire t).rb = s.rb := rfl

@[simp] theorem State.acquire_policy (s : State) (t : Nat) : (s.acquire t).policy = s.policy := rfl

@[simp] theorem State.acquire_lock (s : State) (t : Nat) : (s.acquire t).lock = .held t := rfl

@[simp] theorem State.acquire_cs (s : State) (t : Nat) : (s.acquire t).cs = s.cs := rfl

@[simp] theorem State.acquire_cur (s : State) (t : Nat) : (s.acquire t).cur = s.cur := rfl

@[simp] theorem State.acquire_reqs (s : State) (t : Nat) : (s.acquire t).reqs = s.reqs := rfl

@[simp] theorem State.acquire_trace (s : State) (t : Nat) : (s.acquire t).trace = s.trace ++ [.acq t] := rfl

@[simp] theorem State.acquire_env (s : State) (t : Nat) : (s.acquire t).env = s.env := rfl

@[simp] theorem State.acquire_port (s : State) (t : Nat) : (s.acquire t).port = s.port := rfl

@[simp] theorem State.acquire_who (s : State) (t : Nat) : (s.acquire t).who = s.who := rfl

@[simp] theorem State.acquire_result (s : State) (t : Nat) : (s.acquire t).result = s.result := rfl

@[simp] theorem State.release_cfg (s : State) (t : Nat) : (s.release t).cfg = s.cfg := rfl

@[simp] theorem State.release_cb (s : State) (t : Nat) : (s.release t).cb = s.cb := rfl

@[simp] theorem State.release_rb (s : State) (t : Nat) : (s.release t).rb = s.rb := rfl

@[simp] theorem State.release_policy (s : State) (t : Nat) : (s.release t).policy = s.policy := rfl

@[simp] theorem State.release_lock (s : State) (t : Nat) : (s.release t).lock = .free := rfl

@[simp] theorem State.release_cs (s : State) (t : Nat) : (s.release t).cs = s.cs := rfl

@[simp] theorem State.release_cur (s : State) (t : Nat) : (s.release t).cur = s.cur := rfl

@[simp] theorem State.release_reqs (s : State) (t : Nat) : (s.release t).reqs = s.reqs := rfl

@[simp] theorem State.release_trace (s : State) (t : Nat) : (s.release t).trace = s.trace ++ [.rel t] := rfl

@[simp] theorem State.release_env (s : State) (t : Nat) : (s.release t).env = s.env := rfl

@[simp] theorem State.release_port (s : State) (t : Nat) : (s.release t).port = s.port := rfl

@[simp] theorem State.release_who (s : State) (t : Nat) : (s.release t).who = s.who := rfl

@[simp] theorem State.release_result (s : State) (t : Nat) : (s.release t).result = s.result := rfl

@[simp] theorem State.setEnv_cfg (s : State) (e : Env) : (s.setEnv e).cfg = s.cfg := rfl

@[simp] theorem State.setEnv_cb (s : State) (e : Env) : (s.setEnv e).cb = s.cb := rfl

@[simp] theorem State.setEnv_rb (s : State) (e : Env) : (s.setEnv e).rb = s.rb := rfl

@[simp] theorem State.setEnv_policy (s : State) (e : Env) : (s.setEnv e).policy = s.policy := rfl

@[simp] theorem State.setEnv_lock (s : State) (e : Env) : (s.setEnv e).lock = s.lock := rfl

@[simp] theorem State.setEnv_cs (s : State) (e : Env) : (s.setEnv e).cs = s.cs := rfl

@[simp] theorem State.setEnv_cur (s : State) (e : Env) : (s.setEnv e).cur = s.cur := rfl

@[simp] theorem State.setEnv_reqs (s : State) (e : Env) : (s.setEnv e).reqs = s.reqs := rfl

@[simp] theorem State.setEnv_trace (s : State) (e : Env) : (s.setEnv e).trace = s.trace := rfl

@[simp] theorem State.setEnv_env (s : State) (e : Env) : (s.setEnv e).env = e := rfl

@[simp] theorem State.setEnv_port (s : State) (e : Env) : (s.setEnv e).port = s.port := rfl

@[simp] theorem State.setEnv_who (s : State) (e : Env) : (s.setEnv e).who = s.who := rfl

@[simp] theorem State.setEnv_result (s : State) (e : Env) : (s.setEnv e).result = s.result := rfl

@[simp] theorem State.setEnv_buf (s : State) (e : Env) (b : BufId) : (s.setEnv e).buf b = s.buf b := by
  cases b <;> rfl

@[simp] theorem State.setEnv_setEnv (s : State) (e e' : Env) : (s.setEnv e).setEnv e' = s.setEnv e' := rfl

theorem State.setEnv_setBuf (s : State) (e : Env) (b : BufId) (v : Buf) :
    (s.setEnv e).setBuf b v = (s.setBuf b v).setEnv e := by
  cases b <;> rfl

theorem State.setEnv_emit (s : State) (e : Env) (x : Event) : (s.setEnv e).emit x = (s.emit x).setEnv e := rfl

@[simp] theorem State.setBuf_cb_cb (s : State) (v : Buf) : (s.setBuf .cb v).cb = v := rfl

@[simp] theorem State.setBuf_cb_rb (s : State) (v : Buf) : (s.setBuf .cb v).rb = s.rb := rfl

@[simp] theorem State.setBuf_rb_cb (s : State) (v : Buf) : (s.setBuf .rb v).cb = s.cb := rfl

@[simp] theorem State.setBuf_rb_rb (s : State) (v : Buf) : (s.setBuf .rb v).rb = v := rfl

@[simp] theorem State.buf_setBuf (s : State) (b : BufId) (v : Buf) : (s.setBuf b v).buf b = v := by
  cases b <;> rfl

@[simp] theorem State.buf_cb (s : State) : s.buf .cb = s.cb := rfl

@[simp] theorem State.buf_rb (s : State) : s.buf .rb = s.rb := rfl

end Sys2Proof.Machine
end

