-- ==== Sys2Proof/Laws/Buffer.lean ====
section
/-!
SUPPORT. What the Transaction Buffer operations do, slot by slot and as whole buffers, and that each keeps the form of the
storages.
-/

namespace Sys2Proof.Machine

@[simp] theorem writeFrom_length (ws : List Word) (i : Nat) (st : List Word) :
    (writeFrom i ws st).length = st.length := by
  induction ws generalizing i st with
  | nil => rfl
  | cons w ws ih => simp [writeFrom, ih]

/-- A slot after a write: the word written there, if any, and else what stood there. -/
theorem writeFrom_getElem? (ws : List Word) (i : Nat) (st : List Word) (j : Nat) :
    (writeFrom i ws st)[j]? = if i ≤ j ∧ j < i + ws.length ∧ j < st.length then ws[j - i]? else st[j]? := by
  induction ws generalizing i st with
  | nil =>
    rw [if_neg (by simp; omega)]
    rfl
  | cons w ws ih =>
    rw [writeFrom, ih]
    simp only [List.length_set, List.length_cons, List.getElem?_set]
    by_cases hj : j = i
    · subst hj
      by_cases hl : j < st.length
      · simp [hl]
      · simp [hl]
    · by_cases h1 : i + 1 ≤ j ∧ j < i + 1 + ws.length ∧ j < st.length
      · rw [if_pos h1, if_pos (by omega), show j - i = (j - (i + 1)) + 1 by omega, List.getElem?_cons_succ]
      · rw [if_neg h1, if_neg (by omega), if_neg (by omega)]

/-- A write that fits the storage, as a whole. -/
theorem writeFrom_eq (ws : List Word) (i : Nat) (st : List Word) (h : i + ws.length ≤ st.length) :
    writeFrom i ws st = st.take i ++ ws ++ st.drop (i + ws.length) := by
  induction ws generalizing i st with
  | nil => simp [writeFrom]
  | cons w ws ih =>
    have hi : i < st.length := by simp at h; omega
    have hw : i + 1 + ws.length ≤ (st.set i w).length := by simp at h ⊢; omega
    have ht : (st.set i w).take (i + 1) = st.take i ++ [w] := by
      rw [List.take_succ_eq_append_getElem (by simpa using hi), List.take_set_of_le (Nat.le_refl i)]
      simp
    rw [writeFrom, ih _ _ hw, ht, List.drop_set_of_lt (by omega)]
    simp [Nat.add_assoc, Nat.add_comm 1]

@[simp] theorem Buf.erase_cap (b : Buf) : b.erase.cap = b.cap := by simp [Buf.erase, Buf.cap]

@[simp] theorem Buf.reset_cap (b : Buf) : b.reset.cap = b.cap := rfl

@[simp] theorem Buf.push_cap (b : Buf) (tag : Byte) (src : List Byte) : (b.push tag src).cap = b.cap := by
  simp [Buf.push, Buf.cap]

@[simp] theorem Buf.pop_cap (b : Buf) (n : Nat) : (b.pop n).cap = b.cap := by simp [Buf.pop, Buf.cap]

theorem Buf.wf_iff (b : Buf) (cap : Nat) : b.wf cap = true ↔ b.cap = cap ∧ b.len ≤ cap := by
  simp [Buf.wf, Buf.cap]

theorem Buf.erase_wf {b : Buf} {cap : Nat} (h : b.wf cap = true) : b.erase.wf cap = true := by
  rw [Buf.wf_iff] at *
  exact ⟨by simpa using h.1, Nat.zero_le _⟩

theorem Buf.reset_wf {b : Buf} {cap : Nat} (h : b.wf cap = true) : b.reset.wf cap = true := by
  rw [Buf.wf_iff] at *
  exact ⟨by simpa using h.1, Nat.zero_le _⟩

theorem Buf.push_wf {b : Buf} {cap : Nat} (tag : Byte) (src : List Byte) (h : b.wf cap = true) :
    (b.push tag src).wf cap = true := by
  rw [Buf.wf_iff] at *
  refine ⟨by simpa using h.1, ?_⟩
  simp only [Buf.push, Buf.pushCount]
  omega

theorem Buf.pop_wf {b : Buf} {cap : Nat} (n : Nat) (h : b.wf cap = true) : (b.pop n).wf cap = true := by
  rw [Buf.wf_iff] at *
  refine ⟨by simpa using h.1, ?_⟩
  simp only [Buf.pop]
  omega

/-- RESET then PUSH of bytes that fit: the words from slot 0 on, stale words above (R24, R102). -/
theorem Buf.reset_push (b : Buf) (tag : Byte) (src : List Byte) (h : src.length ≤ b.cap) :
    b.reset.push tag src = b.loaded (src.map (composeWord tag)) := by
  have hc : b.reset.pushCount src = src.length := by
    simp [Buf.pushCount, Buf.reset, Buf.cap] at *
    omega
  have h0 : b.reset.len = 0 := rfl
  have hst : b.reset.st = b.st := rfl
  simp only [Buf.push, hc, h0, hst, List.take_length, Nat.zero_add, Buf.loaded, List.length_map]
  rw [writeFrom_eq _ _ _ (by simpa [Buf.cap] using h)]
  simp

/-- RESET then PUSH of any bytes: those that fit. -/
theorem Buf.reset_push_take (b : Buf) (tag : Byte) (src : List Byte) :
    b.reset.push tag src = b.loaded ((src.take b.cap).map (composeWord tag)) := by
  have hc : b.reset.pushCount src = (src.take b.cap).length := by
    simp [Buf.pushCount, Buf.reset, Buf.cap, Nat.min_comm]
  have h0 : b.reset.len = 0 := rfl
  have hst : b.reset.st = b.st := rfl
  have ht : src.take (src.take b.cap).length = src.take b.cap := by
    simp [List.take_eq_take_iff]
  simp only [Buf.push, hc, h0, hst, ht, Nat.zero_add, Buf.loaded, List.length_map]
  rw [writeFrom_eq _ _ _ (by simp [Buf.cap])]
  simp

/-- A loaded buffer shows exactly the words it was given. -/
@[simp] theorem Buf.loaded_valid (b : Buf) (ws : List Word) : (b.loaded ws).valid = ws := by
  simp [Buf.loaded, Buf.valid]

/-- The valid words, in index order (R24, R121). -/
theorem Buf.valid_eq_read (b : Buf) (h : b.len ≤ b.cap) : b.valid = (List.range b.len).map b.read := by
  apply List.ext_getElem?
  intro i
  simp only [Buf.cap] at h
  rw [Buf.valid, List.getElem?_take]
  by_cases hi : i < b.len
  · have hl : i < b.st.length := by omega
    simp [hi, hl, Buf.read]
  · simp [hi]

theorem Buf.loaded_cap (b : Buf) (ws : List Word) (h : ws.length ≤ b.cap) : (b.loaded ws).cap = b.cap := by
  simp [Buf.loaded, Buf.cap] at *
  omega

/-- Loading again leaves what the second load did not reach. -/
theorem Buf.loaded_loaded (b : Buf) (us vs : List Word) (h : us.length ≤ vs.length) :
    (b.loaded us).loaded vs = b.loaded vs := by
  simp [Buf.loaded, List.drop_append, List.drop_eq_nil_of_le h]
  omega

/-- A word of the engine, the tag in the high byte and the source byte in the low one (R70, R78). -/
theorem composeWord_eq_append (tag byte : Byte) : composeWord tag byte = (tag ++ byte : BitVec (8 + 8)) := by
  apply BitVec.eq_of_getLsbD_eq
  intro i hi
  rw [BitVec.getLsbD_append]
  by_cases h : i < 8
  · simp [composeWord, h]
    omega
  · have hb : byte.getLsbD i = false := BitVec.getLsbD_of_ge byte i (by omega)
    simp [composeWord, h, hb, hi]

end Sys2Proof.Machine
end

