-- ==== Sys2Proof/Laws/Decode.lean ====
section
/-!
SUPPORT. The small laws of the encoding: the fields of a header, of a word and of a frame, and that each code names what
it was written for.
-/

namespace Sys2Proof

/-- Bit `i` of two bytes side by side. -/
theorem append_getLsbD (a b : Byte) (i : Nat) :
    BitVec.getLsbD (w := 16) (a ++ b : BitVec (8 + 8)) i = if i < 8 then b.getLsbD i else a.getLsbD (i - 8) :=
  BitVec.getLsbD_append

/-- Bit `i` of a header (R83). -/
theorem makeHeader_getLsbD (op a b : Byte) (i : Nat) :
    (makeHeader op a b).getLsbD i =
      if i < 8 then b.getLsbD i else if i < 16 then a.getLsbD (i - 8) else op.getLsbD (i - 16) := by
  have h : (makeHeader op a b).getLsbD i
      = BitVec.getLsbD ((op ++ a : BitVec (8 + 8)) ++ b : BitVec (8 + 8 + 8)) i := rfl
  rw [h, BitVec.getLsbD_append]
  split
  · rfl
  · rw [BitVec.getLsbD_append]
    have : i - 8 < 8 ↔ i < 16 := by omega
    simp only [this, Nat.sub_sub]

@[simp] theorem headerOp_makeHeader (op a b : Byte) : headerOp (makeHeader op a b) = op := by
  apply BitVec.eq_of_getLsbD_eq
  intro i hi
  rw [headerOp, BitVec.getLsbD_extractLsb', makeHeader_getLsbD, if_neg (by omega), if_neg (by omega)]
  simp [hi]

@[simp] theorem headerA_makeHeader (op a b : Byte) : headerA (makeHeader op a b) = a := by
  apply BitVec.eq_of_getLsbD_eq
  intro i hi
  rw [headerA, BitVec.getLsbD_extractLsb', makeHeader_getLsbD, if_neg (by omega), if_pos (by omega)]
  simp [hi]

@[simp] theorem headerB_makeHeader (op a b : Byte) : headerB (makeHeader op a b) = b := by
  apply BitVec.eq_of_getLsbD_eq
  intro i hi
  rw [headerB, BitVec.getLsbD_extractLsb', makeHeader_getLsbD, if_pos (by omega)]
  simp [hi]

@[simp] theorem CmdId.ofCode_code (c : CmdId) : CmdId.ofCode c.code = .ok c := by cases c <;> rfl

@[simp] theorem BufId.ofCode_code (b : BufId) : BufId.ofCode b.code = .ok b := by cases b <;> rfl

@[simp] theorem Level.ofCode_code (l : Level) : Level.ofCode l.code = .ok l := by cases l <;> rfl

theorem CmdId.ofCode_of_ge {id : Byte} (h : 15 ≤ id.toNat) : CmdId.ofCode id = .error .badCommandId := by
  unfold CmdId.ofCode
  split <;> first | rfl | omega

theorem BufId.ofCode_of_ge {b : Byte} (h : 2 ≤ b.toNat) : BufId.ofCode b = .error .badBuffer := by
  unfold BufId.ofCode
  split <;> first | rfl | omega

theorem Level.ofCode_of_ge {b : Byte} (h : 2 ≤ b.toNat) : Level.ofCode b = .error .badLevel := by
  unfold Level.ofCode
  split <;> first | rfl | omega

/-- Everything an accepted operation with a payload tells (R83). -/
theorem decodePayload_ok {p : List Byte} {i j : Instr} (h : decodePayload p i = .ok j) : payloadFits p = true ∧ i = j := by
  unfold decodePayload at h
  split at h <;> simp_all

/-- Everything an accepted command micro-operation tells (R85, R86). -/
theorem decodeCommand_ok {shape : Shape} {id arg : Byte} {i : Instr} (h : decodeCommand shape id arg = .ok i) :
    ∃ c : CmdId, CmdId.ofCode id = .ok c ∧ c.shape = shape ∧ i = c.named arg := by
  unfold decodeCommand at h
  split at h
  · cases h
  · split at h
    · exact ⟨_, ‹_›, ‹_›, by simpa using h.symm⟩
    · cases h

end Sys2Proof
end

