-- ==== Sys2Proof/Laws/Run.lean ====
section
/-!
SUPPORT. How a sequence runs: what each step leaves alone, how two sequences run one after the other, the run in which
every transfer succeeds (`walk`), and the run up to a first failing transfer.
-/

namespace Sys2Proof.Machine

/-! ### One step -/

/-- The events of a step that cannot raise. -/
def Prim.events (p : Prim) (t : Nat) : List Event :=
  match p with
  | .sel level => [.sel level]
  | .acq => [.acq t]
  | .rel => [.rel t]
  | .ret status => [.ret t status]
  | .reset _ | .push .. | .latch .. => []

theorem Prim.apply_trace (p : Prim) (t : Nat) (s : State) : (p.apply t s).trace = s.trace ++ p.events t := by
  cases p <;> simp [Prim.apply, Prim.events]

@[simp] theorem Prim.apply_cfg (p : Prim) (t : Nat) (s : State) : (p.apply t s).cfg = s.cfg := by
  cases p <;> simp [Prim.apply]

@[simp] theorem Prim.apply_policy (p : Prim) (t : Nat) (s : State) : (p.apply t s).policy = s.policy := by
  cases p <;> simp [Prim.apply]

@[simp] theorem Prim.apply_reqs (p : Prim) (t : Nat) (s : State) : (p.apply t s).reqs = s.reqs := by
  cases p <;> simp [Prim.apply]

@[simp] theorem Prim.apply_env (p : Prim) (t : Nat) (s : State) : (p.apply t s).env = s.env := by
  cases p <;> simp [Prim.apply]

@[simp] theorem Prim.apply_port (p : Prim) (t : Nat) (s : State) : (p.apply t s).port = s.port := by
  cases p <;> simp [Prim.apply]

@[simp] theorem Prim.apply_who (p : Prim) (t : Nat) (s : State) : (p.apply t s).who = s.who := by
  cases p <;> simp [Prim.apply]

@[simp] theorem Prim.apply_result (p : Prim) (t : Nat) (s : State) : (p.apply t s).result = s.result := by
  cases p <;> simp [Prim.apply]

theorem Prim.apply_setEnv (p : Prim) (t : Nat) (s : State) (e : Env) :
    p.apply t (s.setEnv e) = (p.apply t s).setEnv e := by
  cases p <;> simp [Prim.apply, State.setEnv_setBuf] <;> rfl

theorem State.setBuf_wf {s : State} {b : BufId} {v : Buf} (h : Memory.wf s = true)
    (hv : ∀ cap, (s.buf b).wf cap = true → v.wf cap = true) : Memory.wf (s.setBuf b v) = true := by
  simp only [Memory.wf, Bool.and_eq_true] at *
  cases b
  · exact ⟨hv _ h.1, h.2⟩
  · exact ⟨h.1, hv _ h.2⟩

/-- A step that cannot raise keeps the form of the storages. -/
theorem Prim.apply_wf (p : Prim) (t : Nat) (s : State) (h : Memory.wf s = true) : Memory.wf (p.apply t s) = true := by
  cases p with
  | reset b => exact State.setBuf_wf h fun _ => Buf.reset_wf
  | push b tag src => exact State.setBuf_wf h fun _ => Buf.push_wf tag src
  | sel _ => exact h
  | latch _ _ => exact h
  | acq => exact h
  | rel => exact h
  | ret _ => exact h

/-- Everything a transport call can do: the answer and the environment after it come from the environment, the event
carries the valid words, and nothing else changes (R121). -/
theorem State.transfer_some {s s' : State} {b : BufId} {ok : Bool} (h : s.transfer b = some (ok, s')) :
    ∃ e, s.env.answer = some (ok, e) ∧ s' = (s.setEnv e).emit (.xfer (s.buf b).valid ok) := by
  unfold State.transfer at h
  split at h
  · rename_i ok' e he
    simp only [Option.some.injEq, Prod.mk.injEq] at h
    obtain ⟨rfl, rfl⟩ := h
    exact ⟨e, he, rfl⟩
  · cases h

theorem State.transfer_of_answer {s : State} {ok : Bool} {e : Env} (b : BufId) (h : s.env.answer = some (ok, e)) :
    s.transfer b = some (ok, (s.setEnv e).emit (.xfer (s.buf b).valid ok)) := by
  simp [State.transfer, h]

theorem State.transfer_wf {s s' : State} {b : BufId} {ok : Bool} (h : s.transfer b = some (ok, s'))
    (hw : Memory.wf s = true) : Memory.wf s' = true := by
  obtain ⟨e, -, rfl⟩ := State.transfer_some h
  exact hw

/-! ### Whole sequences -/

/-- A sequence in which no step of its own returns to the requester. -/
def noReturn (items : List Item) : Bool :=
  items.all fun i => match i with
    | .prim p => p.status?.isNone
    | .xfer .. => true

/-- The state after the run of a sequence in which every transfer succeeds, the environment apart. -/
def walk (t : Nat) : List Item → State → State
  | [], s => s
  | .prim p :: rest, s => walk t rest (p.apply t s)
  | .xfer b _ :: rest, s => walk t rest (s.emit (.xfer (s.buf b).valid true))

/-- The events of that run. -/
def seen (t : Nat) : List Item → State → List Event
  | [], _ => []
  | .prim p :: rest, s => p.events t ++ seen t rest (p.apply t s)
  | .xfer b _ :: rest, s => .xfer (s.buf b).valid true :: seen t rest (s.emit (.xfer (s.buf b).valid true))

theorem walk_trace (t : Nat) (items : List Item) (s : State) : (walk t items s).trace = s.trace ++ seen t items s := by
  induction items generalizing s with
  | nil => simp [walk, seen]
  | cons i rest ih => cases i <;> simp [walk, seen, ih, Prim.apply_trace]

theorem walk_append (t : Nat) (a b : List Item) (s : State) : walk t (a ++ b) s = walk t b (walk t a s) := by
  induction a generalizing s with
  | nil => rfl
  | cons i rest ih => cases i <;> simp [walk, ih]

theorem seen_append (t : Nat) (a b : List Item) (s : State) :
    seen t (a ++ b) s = seen t a s ++ seen t b (walk t a s) := by
  induction a generalizing s with
  | nil => rfl
  | cons i rest ih => cases i <;> simp [seen, walk, ih]

@[simp] theorem walk_cfg (t : Nat) (items : List Item) (s : State) : (walk t items s).cfg = s.cfg := by
  induction items generalizing s with
  | nil => rfl
  | cons i rest ih => cases i <;> simp [walk, ih]

@[simp] theorem walk_reqs (t : Nat) (items : List Item) (s : State) : (walk t items s).reqs = s.reqs := by
  induction items generalizing s with
  | nil => rfl
  | cons i rest ih => cases i <;> simp [walk, ih]

theorem walk_setEnv (t : Nat) (items : List Item) (s : State) (e : Env) :
    walk t items (s.setEnv e) = (walk t items s).setEnv e := by
  induction items generalizing s with
  | nil => rfl
  | cons i rest ih => cases i <;> simp [walk, Prim.apply_setEnv, State.setEnv_emit, ih]

theorem seen_setEnv (t : Nat) (items : List Item) (s : State) (e : Env) :
    seen t items (s.setEnv e) = seen t items s := by
  induction items generalizing s with
  | nil => rfl
  | cons i rest ih => cases i <;> simp [seen, Prim.apply_setEnv, State.setEnv_emit, ih]

theorem transfersIn_append (a b : List Event) : transfersIn (a ++ b) = transfersIn a + transfersIn b := by
  induction a with
  | nil => simp [transfersIn]
  | cons e es ih => cases e <;> simp [transfersIn, ih]; try omega

@[simp] theorem transfersIn_prim (p : Prim) (t : Nat) : transfersIn (p.events t) = 0 := by
  cases p <;> rfl

theorem afterSuccesses_append (m n : Nat) (e : Env) :
    e.afterSuccesses (m + n) = (e.afterSuccesses m).bind fun e' => e'.afterSuccesses n := by
  induction m generalizing e with
  | zero => simp [Env.afterSuccesses]
  | succ m ih =>
    rw [Nat.add_right_comm]
    cases h : e.answer with
    | none => simp [Env.afterSuccesses, h]
    | some p =>
      obtain ⟨ok, e'⟩ := p
      cases ok <;> simp [Env.afterSuccesses, h, ih]

theorem afterSuccesses_succ {n : Nat} {e e' : Env} (h : e.afterSuccesses (n + 1) = some e') :
    ∃ e₁, e.answer = some (true, e₁) ∧ e₁.afterSuccesses n = some e' := by
  unfold Env.afterSuccesses at h
  split at h
  · exact ⟨_, ‹_›, h⟩
  · cases h
  · cases h

/-- THE RUN WITHOUT FAILURE: when the coming transfers succeed, a sequence runs to its end, with the effect and the
events of `walk` and `seen`. -/
theorem run_of_successes {t : Nat} {items : List Item} {s : State} {e : Env} (k : Nat) (hn : noReturn items = true)
    (h : s.env.afterSuccesses (transfersIn (seen t items s)) = some e) :
    run t k items s = ⟨(walk t items s).setEnv e, k + items.length, [], .completed⟩ := by
  induction items generalizing s k with
  | nil =>
    simp only [seen, transfersIn, Env.afterSuccesses, Option.some.injEq] at h
    subst h
    rfl
  | cons i rest ih =>
    simp only [noReturn, List.all_cons, Bool.and_eq_true] at hn
    cases i with
    | prim p =>
      simp only [seen, transfersIn_append, transfersIn_prim, Nat.zero_add] at h
      have hp : p.status? = none := by simpa using hn.1
      simp only [run, hp, walk]
      rw [ih (k + 1) hn.2 (by simpa using h)]
      simp
      omega
    | xfer b f =>
      simp only [seen, transfersIn] at h
      obtain ⟨e₁, ha, h'⟩ := afterSuccesses_succ h
      simp only [run, State.transfer_of_answer b ha, walk]
      rw [State.setEnv_emit, ih (k + 1) hn.2 (by rw [seen_setEnv]; exact h'), walk_setEnv]
      simp
      omega

/-- What follows a run of the first of two sequences: the second one, unless the first ended otherwise. -/
def RunEnd.andThen (r : RunEnd) (t : Nat) (b : List Item) : RunEnd :=
  match r.ending with
  | .completed => run t r.steps b r.state
  | .stalled => { r with rest := r.rest ++ b }
  | .failed | .returned _ => r

theorem runExit_ending (t k : Nat) (ps : List Prim) (s : State) :
    (runExit t k ps s).ending = .failed ∨ ∃ st, (runExit t k ps s).ending = .returned st := by
  induction ps generalizing k s with
  | nil => exact .inl rfl
  | cons p ps ih =>
    unfold runExit
    split
    · exact .inr ⟨_, rfl⟩
    · exact ih _ _

theorem runExit_andThen (t k : Nat) (ps : List Prim) (s : State) (b : List Item) :
    (runExit t k ps s).andThen t b = runExit t k ps s := by
  unfold RunEnd.andThen
  obtain h | ⟨st, h⟩ := runExit_ending t k ps s <;> rw [h]

/-- TWO SEQUENCES ONE AFTER THE OTHER. -/
theorem run_append (t k : Nat) (a b : List Item) (s : State) (hn : noReturn a = true) :
    run t k (a ++ b) s = (run t k a s).andThen t b := by
  induction a generalizing k s with
  | nil => rfl
  | cons i rest ih =>
    simp only [noReturn, List.all_cons, Bool.and_eq_true] at hn
    cases i with
    | prim p =>
      have hp : p.status? = none := by simpa using hn.1
      simp only [List.cons_append, run, hp]
      exact ih _ _ hn.2
    | xfer c f =>
      simp only [List.cons_append, run]
      split
      · exact ih _ _ hn.2
      · exact (runExit_andThen t _ f _ b).symm
      · rfl

/-! ### What a run leaves alone -/

/-- A property of states that every step of a sequence keeps is kept by the whole run. -/
theorem runExit_keeps {P : State → Prop} {t : Nat} (hp : ∀ p s, P s → P (Prim.apply p t s)) (k : Nat) (ps : List Prim)
    {s : State} (h : P s) : P (runExit t k ps s).state := by
  induction ps generalizing k s with
  | nil => exact h
  | cons p ps ih =>
    unfold runExit
    split
    · exact hp _ _ h
    · exact ih _ (hp _ _ h)

theorem run_keeps {P : State → Prop} {t : Nat} (hp : ∀ p s, P s → P (Prim.apply p t s))
    (hx : ∀ b ok s s', P s → s.transfer b = some (ok, s') → P s') (k : Nat) (items : List Item) {s : State} (h : P s) :
    P (run t k items s).state := by
  induction items generalizing k s with
  | nil => exact h
  | cons i rest ih =>
    cases i with
    | prim p =>
      unfold run
      split
      · exact hp _ _ h
      · exact ih _ (hp _ _ h)
    | xfer b f =>
      unfold run
      split
      · exact ih _ (hx _ _ _ _ h ‹_›)
      · exact runExit_keeps hp _ _ (hx _ _ _ _ h ‹_›)
      · exact h

/-- No run changes the configuration, the policy, the requesters, the harness's side or its answer (R20, R26). -/
theorem run_frame (t k : Nat) (items : List Item) (s : State) :
    (run t k items s).state.cfg = s.cfg ∧ (run t k items s).state.policy = s.policy
      ∧ (run t k items s).state.reqs = s.reqs ∧ (run t k items s).state.port = s.port
      ∧ (run t k items s).state.who = s.who ∧ (run t k items s).state.result = s.result :=
  run_keeps (P := fun x => x.cfg = s.cfg ∧ x.policy = s.policy ∧ x.reqs = s.reqs ∧ x.port = s.port ∧ x.who = s.who
      ∧ x.result = s.result)
    (fun p x h => by simpa using h)
    (fun b ok x x' h hx => by
      obtain ⟨e, -, rfl⟩ := State.transfer_some hx
      simpa using h)
    k items ⟨rfl, rfl, rfl, rfl, rfl, rfl⟩

/-- Every run keeps the form of the storages. -/
theorem run_wf (t k : Nat) (items : List Item) (s : State) (h : Memory.wf s = true) :
    Memory.wf (run t k items s).state = true :=
  run_keeps (P := fun x => Memory.wf x = true) (fun p x => Prim.apply_wf p t x)
    (fun _ _ _ _ hw hx => State.transfer_wf hx hw) k items h

/-! ### The run up to a first failure -/

/-- A sequence whose brackets open and close in turn and every transfer of which fails into the exit path `exit`, through
the close of the bracket where one is open; the value is whether a bracket is open after it. -/
def failsInto (exit : List Prim) : Bool → List Item → Option Bool
  | o, [] => some o
  | o, .prim (.sel level) :: rest => if o = (level == .active) then none else failsInto exit (level == .active) rest
  | o, .prim (.reset _) :: rest => failsInto exit o rest
  | o, .prim (.push ..) :: rest => failsInto exit o rest
  | o, .prim (.latch ..) :: rest => failsInto exit o rest
  | _, .prim .acq :: _ => none
  | _, .prim .rel :: _ => none
  | _, .prim (.ret _) :: _ => none
  | o, .xfer _ f :: rest => if f = (if o then closing exit else exit) then failsInto exit o rest else none

theorem failsInto_append (exit : List Prim) (o : Bool) (a b : List Item) :
    failsInto exit o (a ++ b) = (failsInto exit o a).bind fun o' => failsInto exit o' b := by
  fun_induction failsInto exit o a <;> simp_all [failsInto]

/-- The state `s'` is that of the run without failure before some transfer of the sequence, as far as the buffers and the
cursor go, and `es` are the events up to that transfer, recorded as failed, and the close of an open bracket (R225). -/
def StandsBefore (t : Nat) (items : List Item) (s s' : State) (es : List Event) : Prop :=
  ∃ before b f later close, items = before ++ .xfer b f :: later ∧ (close = [] ∨ close = [.sel .inactive])
    ∧ es = seen t before s ++ .xfer ((walk t before s).buf b).valid false :: close
    ∧ s'.cb = (walk t before s).cb ∧ s'.rb = (walk t before s).rb ∧ s'.cur = (walk t before s).cur

theorem StandsBefore.cons {t : Nat} {i : Item} {items : List Item} {s s₁ s' : State} {es : List Event} {es₁ : List Event}
    (h : StandsBefore t items s₁ s' es) (hw : ∀ before, walk t (i :: before) s = walk t before s₁)
    (hs : ∀ before, seen t (i :: before) s = es₁ ++ seen t before s₁) : StandsBefore t (i :: items) s s' (es₁ ++ es) := by
  obtain ⟨before, b, f, later, close, rfl, hc, rfl, h₁, h₂, h₃⟩ := h
  exact ⟨i :: before, b, f, later, close, rfl, hc, by rw [hs, hw, List.append_assoc], by rw [hw, h₁], by rw [hw, h₂],
    by rw [hw, h₃]⟩

/-- A state that differs in its environment alone stands before the same transfer. -/
theorem StandsBefore.of_setEnv {t : Nat} {items : List Item} {s s' : State} {es : List Event} {e : Env}
    (h : StandsBefore t items (s.setEnv e) s' es) : StandsBefore t items s s' es := by
  obtain ⟨before, b, f, later, close, hi, hc, he, h₁, h₂, h₃⟩ := h
  rw [walk_setEnv] at *
  rw [seen_setEnv] at he
  exact ⟨before, b, f, later, close, hi, hc, by simpa using he, by simpa using h₁, by simpa using h₂, by simpa using h₃⟩

/-- The run of a sequence from step `k` on stands at its exit path after `n` successful transfers and a failed one: the
events are those that `failedAt` cuts out of the run without failure, an open bracket is closed, the environment is `e`,
the buffers and the cursor are as before that transfer, and nothing else changed but chip-select. -/
def StopsAtFailure (t k : Nat) (exit : List Prim) (items : List Item) (s : State) (o : Bool) (n : Nat) (e : Env) : Prop :=
  ∃ k' s', run t k items s = runExit t k' exit s' ∧ s'.trace = s.trace ++ failedAt o n (seen t items s)
    ∧ s'.env = e ∧ s'.lock = s.lock ∧ s'.reqs = s.reqs ∧ s'.cfg = s.cfg ∧ s'.policy = s.policy ∧ s'.port = s.port
    ∧ s'.who = s.who ∧ s'.result = s.result ∧ (s.cs = (if o then .active else .inactive) → s'.cs = .inactive)
    ∧ StandsBefore t items s s' (failedAt o n (seen t items s))

/-- THE RUN WITH A FAILURE (R224, R228). -/
theorem run_of_failure {t : Nat} {exit : List Prim} {items : List Item} {s : State} {n : Nat} {e₁ e₂ : Env} {o o' : Bool}
    (k : Nat) (hf : failsInto exit o items = some o') (h₁ : s.env.afterSuccesses n = some e₁)
    (h₂ : e₁.answer = some (false, e₂)) (hn : n < transfersIn (seen t items s)) :
    StopsAtFailure t k exit items s o n e₂ := by
  induction items generalizing s k n o with
  | nil => simp [seen, transfersIn] at hn
  | cons i rest ih =>
    cases i with
    | prim p =>
      simp only [seen, transfersIn_append, transfersIn_prim, Nat.zero_add] at hn
      have key : ∀ o₁, failsInto exit o₁ rest = some o' → p.status? = none →
          (p.apply t s).lock = s.lock → (∀ es, failedAt o n (p.events t ++ es) = p.events t ++ failedAt o₁ n es) →
          (s.cs = (if o then .active else .inactive) → (p.apply t s).cs = if o₁ then .active else .inactive) →
          StopsAtFailure t k exit (.prim p :: rest) s o n e₂ := by
        intro o₁ hf₁ hs hl he hc
        obtain ⟨k', s', hr, ht, henv, hlock, hreqs, hcfg, hpol, hport, hwho, hres, hcs, hst⟩ :=
          ih (s := p.apply t s) (k := k + 1) hf₁ (by simpa using h₁) hn
        refine ⟨k', s', ?_, ?_, henv, hlock.trans hl, by simpa using hreqs, by simpa using hcfg, by simpa using hpol,
          by simpa using hport, by simpa using hwho, by simpa using hres, fun h => hcs (hc h), ?_⟩
        · simp only [run, hs]
          exact hr
        · simp only [seen, he, ht, Prim.apply_trace, List.append_assoc]
        · simp only [seen, he]
          exact hst.cons (fun _ => rfl) fun _ => rfl
      cases p with
      | sel level =>
        refine key (level == .active) ?_ rfl rfl (fun es => by simp [Prim.events, failedAt])
          (fun _ => by cases level <;> rfl)
        by_cases ho : o = (level == .active)
        · simp [failsInto, ho] at hf
        · simpa [failsInto, ho] using hf
      | reset b =>
        exact key _ (by simpa [failsInto] using hf) rfl (by simp [Prim.apply]) (fun es => by simp [Prim.events])
          (fun h => by simpa [Prim.apply] using h)
      | push b tag src =>
        exact key _ (by simpa [failsInto] using hf) rfl (by simp [Prim.apply]) (fun es => by simp [Prim.events])
          (fun h => by simpa [Prim.apply] using h)
      | latch row col =>
        exact key _ (by simpa [failsInto] using hf) rfl (by simp [Prim.apply]) (fun es => by simp [Prim.events])
          (fun h => by simpa [Prim.apply] using h)
      | acq => simp [failsInto] at hf
      | rel => simp [failsInto] at hf
      | ret st => simp [failsInto] at hf
    | xfer b f =>
      have hf' : f = (if o then closing exit else exit) ∧ failsInto exit o rest = some o' := by
        by_cases hfo : f = (if o then closing exit else exit)
        · exact ⟨hfo, by simpa [failsInto, if_pos hfo] using hf⟩
        · simp [failsInto, if_neg hfo] at hf
      cases n with
      | zero =>
        simp only [Env.afterSuccesses, Option.some.injEq] at h₁
        subst h₁
        have hr : run t k (.xfer b f :: rest) s
            = runExit t (k + 1) f ((s.setEnv e₂).emit (.xfer (s.buf b).valid false)) := by
          simp only [run, State.transfer_of_answer b h₂]
        cases o with
        | false =>
          rw [show f = exit from hf'.1] at hr ⊢
          exact ⟨k + 1, _, hr, by simp [seen, failedAt], rfl, rfl, rfl, rfl, rfl, rfl, rfl, rfl,
            fun h => by simpa using h, [], b, _, rest, [], rfl, .inl rfl, by simp [seen, failedAt, walk], rfl, rfl, rfl⟩
        | true =>
          rw [show f = closing exit from hf'.1] at hr ⊢
          exact ⟨k + 2, ((s.setEnv e₂).emit (.xfer (s.buf b).valid false)).select .inactive, hr,
            by simp [seen, failedAt], rfl, rfl, rfl, rfl, rfl, rfl, rfl, rfl, fun _ => rfl,
            [], b, _, rest, [.sel .inactive], rfl, .inr rfl, by simp [seen, failedAt, walk], rfl, rfl, rfl⟩
      | succ n =>
        obtain ⟨ea, ha, h₁'⟩ := afterSuccesses_succ h₁
        simp only [seen, transfersIn] at hn
        have hseen := seen_setEnv t rest (s.emit (.xfer (s.buf b).valid true)) ea
        obtain ⟨k', s', hr, ht, henv, hlock, hreqs, hcfg, hpol, hport, hwho, hres, hcs, hst⟩ :=
          ih (s := (s.emit (.xfer (s.buf b).valid true)).setEnv ea) (k := k + 1) hf'.2 h₁'
            (by rw [hseen]; omega)
        refine ⟨k', s', ?_, ?_, henv, hlock, hreqs, hcfg, hpol, hport, hwho, hres, hcs, ?_⟩
        · simp only [run, State.transfer_of_answer b ha]
          exact hr
        · rw [ht, hseen]
          simp [seen, failedAt]
        · rw [hseen] at hst
          exact hst.of_setEnv.cons (es₁ := [.xfer (s.buf b).valid true]) (fun _ => rfl) fun _ => rfl

end Sys2Proof.Machine
end

