-- ==== Sys2Proof/Laws/Sequences.lean ====
section
/-!
SUPPORT. What each sequence of the engine does when every transfer succeeds, as one state, and that each of its transfers
fails into the exit path it was given, through the close of the bracket where one is open.
-/

namespace Sys2Proof.Machine

theorem seen_of_walk {t : Nat} {items : List Item} {s : State} {es : List Event}
    (h : (walk t items s).trace = s.trace ++ es) : seen t items s = es := by
  rw [walk_trace] at h
  exact List.append_cancel_left h

theorem walk_wf (t : Nat) (items : List Item) {s : State} (h : Memory.wf s = true) : Memory.wf (walk t items s) = true := by
  induction items generalizing s with
  | nil => exact h
  | cons i rest ih =>
    cases i with
    | prim p => exact ih (Prim.apply_wf p t s h)
    | xfer b f => exact ih h

theorem Memory.wf_iff (s : State) :
    Memory.wf s = true ↔ (s.cb.cap = 4 ∧ s.cb.len ≤ 4) ∧ (s.rb.cap = s.cfg.w ∧ s.rb.len ≤ s.cfg.w) := by
  simp [Memory.wf, Buf.wf_iff, cbCap]

theorem noReturn_append (a b : List Item) : noReturn (a ++ b) = (noReturn a && noReturn b) := by
  simp [noReturn]

theorem noReturn_of_failsInto {exit : List Prim} {items : List Item} {o o' : Bool}
    (h : failsInto exit o items = some o') : noReturn items = true := by
  fun_induction failsInto exit o items <;> simp_all [noReturn, Prim.status?]

theorem commandBytes_length (cfg : Cfg) (c : CmdId) (arg : Byte) : (commandBytes cfg c arg).length ≤ 2 := by
  unfold commandBytes compoundBytes
  split <;> simp

theorem commandWords_length (cfg : Cfg) (c : CmdId) (arg : Byte) : (commandWords cfg c arg).length ≤ 2 := by
  simpa [commandWords] using commandBytes_length cfg c arg

theorem commandWords_cmd1 (cfg : Cfg) (c : CmdId) (arg : Byte) (h : c.shape = .cmd1) :
    (commandWords cfg c arg).length = 1 := by
  simp [commandWords, commandBytes, h]

/-- Two simple commands have words of one length (R73). -/
theorem commandWords_le (cfg : Cfg) {c c' : CmdId} (arg arg' : Byte) (h : c.shape = .cmd1) (h' : c'.shape = .cmd1) :
    (commandWords cfg c arg).length ≤ (commandWords cfg c' arg').length := by
  rw [commandWords_cmd1 _ _ _ h, commandWords_cmd1 _ _ _ h']

theorem commandWords_eq (cfg : Cfg) (c : CmdId) (arg : Byte) :
    (commandBytes cfg c arg).map (composeWord commandTag) = commandWords cfg c arg := by
  simp [commandWords, composeWord_eq_append, commandTag]

theorem map_dataWord (bytes : List Byte) : bytes.map (composeWord dataTag) = bytes.map dataWord := by
  simp [dataWord, composeWord_eq_append, dataTag]

/-! ### The walk of each sequence -/

/-- One command (R122, R123). -/
theorem walk_command (t : Nat) (cfg : Cfg) (c : CmdId) (arg : Byte) (exit : List Prim) (s : State)
    (hw : Memory.wf s = true) :
    walk t (command cfg c arg exit) s =
      { s with cb := s.cb.loaded (commandWords cfg c arg), cs := .inactive,
               trace := s.trace ++ bracket (commandWords cfg c arg) true } := by
  have hc := (Memory.wf_iff s).1 hw
  have h2 := commandBytes_length cfg c arg
  have hp : s.cb.reset.push commandTag (commandBytes cfg c arg) = s.cb.loaded (commandWords cfg c arg) := by
    rw [Buf.reset_push _ _ _ (by omega), commandWords_eq]
  simp only [command, commandSequence, walk, Prim.apply, State.buf, State.setBuf, hp, State.select, State.emit,
    Buf.loaded_valid]
  simp [bracket]

/-- The cursor sequence (R150). -/
theorem walk_cursor (t : Nat) (cfg : Cfg) (x y : Byte) (exit : List Prim) (s : State) (hw : Memory.wf s = true) :
    walk t (cursorSequence cfg x y exit) s =
      { s with cb := cbAfterCursor cfg s.cb x, cs := .inactive, cur := some ⟨y, x⟩,
               trace := s.trace ++ cursorEvents cfg x y } := by
  have h1 := walk_wf t (command cfg .line y exit) hw
  have h2 := walk_wf t (command cfg .colmsb (columnHigh x) exit) h1
  simp only [cursorSequence, walk_append]
  rw [walk_command _ _ _ _ _ _ h2, walk_command _ _ _ _ _ _ h1, walk_command _ _ _ _ _ _ hw]
  simp only [walk, Prim.apply, State.latch, cursorEvents, cbAfterCursor, List.append_assoc]
  rw [Buf.loaded_loaded _ _ _ (commandWords_le _ _ _ rfl rfl), Buf.loaded_loaded _ _ _ (commandWords_le _ _ _ rfl rfl)]

/-- The loop of the bulk data write (R152). -/
theorem walk_wrdataLoop (t : Nat) (w n : Nat) (bytes : List Byte) (exit : List Prim) (s : State) (hc : s.rb.cap = w) :
    walk t (wrdataLoop w exit n bytes) s =
      { s with rb := (pieces w n bytes).foldl (fun b c => b.loaded (c.map dataWord)) s.rb,
               trace := s.trace ++ (pieces w n bytes).map fun c => .xfer (c.map dataWord) true } := by
  induction n generalizing bytes s with
  | zero => simp [wrdataLoop, walk, pieces]
  | succ n ih =>
    cases bytes with
    | nil => simp [wrdataLoop, walk, pieces]
    | cons b src =>
      have hp : s.rb.reset.push dataTag (b :: src) = s.rb.loaded (((b :: src).take w).map dataWord) := by
        rw [Buf.reset_push_take, hc, map_dataWord]
      simp only [wrdataLoop, walk, Prim.apply, State.buf, State.setBuf, hp, State.emit, Buf.loaded_valid, pieces,
        List.foldl_cons, List.map_cons]
      rw [ih]
      · simp
      · exact (Buf.loaded_cap _ _ (by simp [hc])).trans hc

/-- The bulk data write (R152, R153). -/
theorem walk_wrdata (t : Nat) (cfg : Cfg) (bytes : List Byte) (exit : List Prim) (s : State) (hc : s.rb.cap = cfg.w) :
    walk t (wrdataSequence cfg bytes exit) s =
      { s with rb := rowAfterWrite cfg s.rb bytes, trace := s.trace ++ writeEvents cfg bytes } :=
  walk_wrdataLoop t cfg.w bytes.length bytes exit s hc

theorem rowAfterWrite_cap (cfg : Cfg) (rb : Buf) (bytes : List Byte) (hc : rb.cap = cfg.w) :
    (rowAfterWrite cfg rb bytes).cap = cfg.w := by
  have : ∀ n (src : List Byte) (b : Buf), b.cap = cfg.w →
      ((pieces cfg.w n src).foldl (fun b c => b.loaded (c.map dataWord)) b).cap = cfg.w := by
    intro n
    induction n with
    | zero => exact fun _ _ h => h
    | succ n ih =>
      intro src b h
      cases src with
      | nil => exact h
      | cons x src =>
        simp only [pieces, List.foldl_cons]
        exact ih _ _ ((Buf.loaded_cap _ _ (by simp [h])).trans h)
  exact this _ _ _ hc

/-- One blank row (R154). -/
theorem walk_fillrow (t : Nat) (cfg : Cfg) (s : State) (hc : s.rb.cap = cfg.w) :
    walk t (fillrowSequence cfg) s = { s with rb := s.rb.loaded (blankRow cfg) } := by
  have hp : s.rb.reset.push dataTag (blanks cfg cfg.w) = s.rb.loaded (blankRow cfg) := by
    rw [Buf.reset_push _ _ _ (by simp [blanks, hc]), map_dataWord]
    simp [blanks, blankRow]
  simp only [fillrowSequence, walk, Prim.apply, State.buf, State.setBuf, hp]

/-- Row transfers without a refill in between (R165). -/
theorem walk_rows (t n : Nat) (exit : List Prim) (s : State) :
    walk t (List.replicate n (.xfer .rb exit)) s =
      { s with trace := s.trace ++ List.replicate n (.xfer s.rb.valid true) } := by
  induction n generalizing s with
  | zero => simp [walk]
  | succ n ih =>
    simp only [List.replicate_succ, walk, ih, State.emit, State.buf]
    simp

/-- The full-screen clear (R165). -/
theorem walk_clearall (t : Nat) (cfg : Cfg) (exit : List Prim) (s : State) (hw : Memory.wf s = true) (hcfg : s.cfg = cfg) :
    walk t (clearallSequence cfg exit) s =
      { s with cb := cbAfterCursor cfg s.cb 0, rb := s.rb.loaded (blankRow cfg), cs := .inactive, cur := some ⟨0, 0⟩,
               trace := s.trace ++ clearallEvents cfg } := by
  subst hcfg
  have hc := (Memory.wf_iff s).1 hw
  have h1 := walk_wf t (fillrowSequence s.cfg) hw
  simp only [clearallSequence, walk_append]
  rw [walk_cursor _ _ _ _ _ _ h1, walk_fillrow _ _ _ hc.2.1]
  simp only [walk, Prim.apply, State.select, State.emit, walk_rows, Buf.loaded_valid, clearallEvents, List.append_assoc]

/-- One line of a line-range clear, the row buffer holding a blank row (R166). -/
theorem walk_clearLine (t : Nat) (cfg : Cfg) (exit : List Prim) (line : Byte) (s : State) (hw : Memory.wf s = true)
    (hv : s.rb.valid = blankRow cfg) :
    walk t (clearLineSequence cfg exit line) s =
      { s with cb := cbAfterCursor cfg s.cb 0, cs := .inactive, cur := some ⟨line, 0⟩,
               trace := s.trace ++ (cursorEvents cfg 0 line ++ bracket (blankRow cfg) true) } := by
  simp only [clearLineSequence, walk_append]
  rw [walk_cursor _ _ _ _ _ _ hw]
  simp only [walk, Prim.apply, State.select, State.emit, State.buf, hv, bracket]
  simp

theorem cbAfterCursor_twice (cfg : Cfg) (cb : Buf) (x x' : Byte) :
    cbAfterCursor cfg (cbAfterCursor cfg cb x) x' = cbAfterCursor cfg cb x' :=
  Buf.loaded_loaded _ _ _ (commandWords_le _ _ _ rfl rfl)

/-- Line after line, for at least one line (R166). -/
theorem walk_clearLineList (t : Nat) (cfg : Cfg) (exit : List Prim) (line : Byte) (lines : List Byte) (s : State)
    (hw : Memory.wf s = true) (hv : s.rb.valid = blankRow cfg) :
    walk t ((line :: lines).flatMap (clearLineSequence cfg exit)) s =
      { s with cb := cbAfterCursor cfg s.cb 0, cs := .inactive, cur := some ⟨(line :: lines).getLast (by simp), 0⟩,
               trace := s.trace ++
                 (line :: lines).flatMap fun l => cursorEvents cfg 0 l ++ bracket (blankRow cfg) true } := by
  induction lines generalizing line s with
  | nil =>
    rw [List.flatMap_cons, List.flatMap_nil, List.append_nil, walk_clearLine _ _ _ _ _ hw hv]
    simp
  | cons l lines ih =>
    rw [List.flatMap_cons, walk_append]
    have h1 := walk_wf t (clearLineSequence cfg exit line) hw
    rw [walk_clearLine _ _ _ _ _ hw hv] at h1 ⊢
    rw [ih _ _ h1 hv]
    simp [cbAfterCursor_twice]

theorem rangeEnd_ge (first last : Byte) : first.toNat ≤ (rangeEnd first last).toNat := by
  unfold rangeEnd
  split <;> omega

/-- The lines of a range: its first line first, its end last (R166, R167). -/
theorem clearedLines_eq (first last : Byte) :
    ∃ lines, clearedLines first last = first :: lines ∧ (first :: lines).getLast (by simp) = rangeEnd first last := by
  have hge := rangeEnd_ge first last
  have hlt := (rangeEnd first last).isLt
  have hhead : clearedLines first last = first ::
      (List.range ((rangeEnd first last).toNat - first.toNat)).map fun j => BitVec.ofNat 8 (first.toNat + (j + 1)) := by
    simp only [clearedLines, List.range_succ_eq_map, List.map_cons, List.map_map]
    simp [Function.comp_def]
  refine ⟨_, hhead, ?_⟩
  simp only [← hhead]
  simp only [clearedLines, List.range_succ, List.map_append, List.map_cons, List.map_nil, List.getLast_append_of_ne_nil,
    ne_eq, List.cons_ne_self, not_false_eq_true, List.getLast_singleton]
  apply BitVec.eq_of_toNat_eq
  simp
  omega

/-- The line-range clear (R166, R167). -/
theorem walk_clearlines (t : Nat) (cfg : Cfg) (first last : Byte) (exit : List Prim) (s : State) (hw : Memory.wf s = true)
    (hcfg : s.cfg = cfg) :
    walk t (clearlinesSequence cfg first last exit) s =
      { s with cb := cbAfterCursor cfg s.cb 0, rb := s.rb.loaded (blankRow cfg), cs := .inactive,
               cur := some ⟨rangeEnd first last, 0⟩, trace := s.trace ++ clearlinesEvents cfg first last } := by
  subst hcfg
  have hc := (Memory.wf_iff s).1 hw
  have h1 := walk_wf t (fillrowSequence s.cfg) hw
  obtain ⟨lines, hl, he⟩ := clearedLines_eq first last
  simp only [clearlinesSequence, walk_append, clearlinesEvents, hl]
  rw [walk_fillrow _ _ _ hc.2.1] at h1 ⊢
  rw [walk_clearLineList _ _ _ _ _ _ h1 (Buf.loaded_valid _ _), he]

/-- A bracket of one bulk data write (R182). -/
theorem walk_dataBracket_wrdata (t : Nat) (cfg : Cfg) (bytes : List Byte) (exit : List Prim) (s : State)
    (hc : s.rb.cap = cfg.w) :
    walk t (dataBracket exit (wrdataSequence cfg bytes)) s =
      { s with rb := rowAfterWrite cfg s.rb bytes, cs := .inactive,
               trace := s.trace ++ ([.sel .active] ++ writeEvents cfg bytes ++ [.sel .inactive]) } := by
  simp only [dataBracket, walk, walk_append, Prim.apply]
  rw [walk_wrdata _ _ _ _ _ (by simpa using hc)]
  simp [State.select, State.emit]

/-- The policy step (R182). -/
theorem walk_policy (t : Nat) (cfg : Cfg) (policy : Policy) (line col : Byte) (exit : List Prim) (s : State)
    (hw : Memory.wf s = true) (hcfg : s.cfg = cfg) :
    ∃ cb cs cur, walk t (policySequence cfg policy line col exit) s =
        { s with cb := cb, rb := rowAfterPolicy cfg policy s.rb col, cs := cs, cur := cur,
                 trace := s.trace ++ policyEvents cfg policy line col }
      ∧ ∀ x, cbAfterCursor cfg cb x = cbAfterCursor cfg s.cb x := by
  have hc : s.rb.cap = cfg.w := hcfg ▸ ((Memory.wf_iff s).1 hw).2.1
  cases policy with
  | none => exact ⟨s.cb, s.cs, s.cur, by simp [policySequence, walk, rowAfterPolicy, policyEvents], fun _ => rfl⟩
  | clearLeft =>
    refine ⟨cbAfterCursor cfg s.cb 0, .inactive, some ⟨line, 0⟩, ?_, fun x => cbAfterCursor_twice ..⟩
    simp only [policySequence, walk_append, walk_cursor _ _ _ _ _ _ hw]
    rw [walk_dataBracket_wrdata]
    · simp [rowAfterPolicy, policyEvents]
    · exact hc
  | clearRight =>
    refine ⟨cbAfterCursor cfg s.cb col, .inactive, some ⟨line, col⟩, ?_, fun x => cbAfterCursor_twice ..⟩
    simp only [policySequence, walk_append, walk_cursor _ _ _ _ _ _ hw]
    rw [walk_dataBracket_wrdata]
    · simp [rowAfterPolicy, policyEvents]
    · exact hc
  | clearBoth =>
    refine ⟨cbAfterCursor cfg s.cb 0, .inactive, some ⟨rangeEnd line line, 0⟩, ?_, fun x => cbAfterCursor_twice ..⟩
    rw [policySequence, walk_clearlines _ _ _ _ _ _ hw hcfg]
    simp [rowAfterPolicy, policyEvents]

/-- The glyphs of a text inside their bracket (R183). -/
theorem walk_glyphList (t : Nat) (cfg : Cfg) (text : List Byte) (exit : List Prim) (s : State) (hc : s.rb.cap = cfg.w) :
    walk t (text.flatMap fun c => wrdataSequence cfg (cfg.glyph c) exit) s =
      { s with rb := text.foldl (fun b c => rowAfterWrite cfg b (cfg.glyph c)) s.rb,
               trace := s.trace ++ text.flatMap fun c => writeEvents cfg (cfg.glyph c) } := by
  induction text generalizing s with
  | nil => simp [walk]
  | cons c text ih =>
    rw [List.flatMap_cons, walk_append, walk_wrdata _ _ _ _ _ hc, ih _ (rowAfterWrite_cap _ _ _ hc)]
    simp

/-- Text rendering (R181). -/
theorem walk_drawtext (t : Nat) (cfg : Cfg) (policy : Policy) (line col : Byte) (text : List Byte) (exit : List Prim)
    (s : State) (hw : Memory.wf s = true) (hcfg : s.cfg = cfg) :
    walk t (drawtextSequence cfg policy line col text exit) s =
      { s with cb := cbAfterCursor cfg s.cb col, rb := rowAfterText cfg policy s.rb col text, cs := .inactive,
               cur := some ⟨line, col⟩, trace := s.trace ++ drawtextEvents cfg policy line col text } := by
  have h1 := walk_wf t (policySequence cfg policy line col exit) hw
  obtain ⟨cb, cs, cur, he, hcb⟩ := walk_policy t cfg policy line col exit s hw hcfg
  have hc : (rowAfterPolicy cfg policy s.rb col).cap = cfg.w := by
    have := ((Memory.wf_iff _).1 h1).2.1
    rw [he] at this
    exact this.trans (by rw [hcfg])
  simp only [drawtextSequence, walk_append]
  rw [he] at h1 ⊢
  rw [walk_cursor _ _ _ _ _ _ h1, glyphsSequence, dataBracket]
  simp only [walk, walk_append, Prim.apply, State.select, State.emit]
  rw [walk_glyphList _ _ _ _ _ hc]
  simp [hcb, rowAfterText, drawtextEvents]

/-! ### How many transfers, and what the wrappers answer -/

@[simp] theorem transfersIn_cursor (cfg : Cfg) (x y : Byte) : transfersIn (cursorEvents cfg x y) = 3 := by
  simp [cursorEvents, bracket, transfersIn]

theorem transfersIn_write (cfg : Cfg) (bytes : List Byte) :
    transfersIn (writeEvents cfg bytes) = (chunks cfg bytes).length := by
  unfold writeEvents
  induction chunks cfg bytes <;> simp_all [transfersIn]

theorem transfersIn_rows (n : Nat) (ws : List Word) : transfersIn (List.replicate n (.xfer ws true)) = n := by
  induction n <;> simp_all [transfersIn, List.replicate_succ]

theorem transfersIn_clearall (cfg : Cfg) : transfersIn (clearallEvents cfg) = 3 + cfg.nrows := by
  simp [clearallEvents, transfersIn_append, transfersIn_rows, transfersIn]

theorem transfersIn_lineList (cfg : Cfg) (lines : List Byte) :
    transfersIn (lines.flatMap fun line => cursorEvents cfg 0 line ++ bracket (blankRow cfg) true) = 4 * lines.length := by
  induction lines with
  | nil => rfl
  | cons l lines ih =>
    simp [List.flatMap_cons, transfersIn_append, bracket, transfersIn] at *
    omega

theorem transfersIn_clearlines (cfg : Cfg) (first last : Byte) :
    transfersIn (clearlinesEvents cfg first last) = 4 * ((rangeEnd first last).toNat - first.toNat + 1) := by
  rw [clearlinesEvents, transfersIn_lineList]
  simp [clearedLines]

/-- A buffer of capacity `W` that was given a blank row holds nothing else (R154). -/
theorem Buf.loaded_blankRow (cfg : Cfg) (b : Buf) (h : b.cap = cfg.w) : b.loaded (blankRow cfg) = ⟨cfg.w, blankRow cfg⟩ := by
  have : b.st.length ≤ cfg.w := h.le
  simp [Buf.loaded, blankRow, this]

/-- One command, whatever its transfer answers (R122 to R125): the bracket is closed, and a failure goes on into the exit
path. -/
theorem run_command (t k : Nat) (cfg : Cfg) (c : CmdId) (arg : Byte) (exit : List Prim) {s : State} {ok : Bool} {e : Env}
    (hw : Memory.wf s = true) (ha : s.env.answer = some (ok, e)) :
    run t k (command cfg c arg exit) s =
      let s' := { s with cb := s.cb.loaded (commandWords cfg c arg), cs := .inactive, env := e,
                         trace := s.trace ++ bracket (commandWords cfg c arg) ok }
      if ok then ⟨s', k + 5, [], .completed⟩ else runExit t (k + 5) exit s' := by
  have hc := (Memory.wf_iff s).1 hw
  have h2 := commandBytes_length cfg c arg
  have hp : s.cb.reset.push commandTag (commandBytes cfg c arg) = s.cb.loaded (commandWords cfg c arg) := by
    rw [Buf.reset_push _ _ _ (by omega), commandWords_eq]
  simp only [command, commandSequence, run, Prim.apply, State.buf, State.setBuf, hp, State.select, State.emit, Prim.status?]
  rw [State.transfer_of_answer .cb (ok := ok) (e := e) (by exact ha)]
  cases ok <;>
    simp [closing, runExit, Prim.status?, Prim.apply, State.select, State.emit, State.setEnv, bracket, State.buf]

/-- A micro-operation all of whose transfers succeed. -/
theorem execMicro_of_successes {items : List Item} {s : State} {e : Env} (hn : noReturn items = true)
    (h : s.env.afterSuccesses (transfersIn (seen s.who items s)) = some e) :
    execMicro items s = .next (((walk s.who items s).setEnv e).setResult .nothing) := by
  unfold execMicro
  rw [run_of_successes 0 hn h]
  simp [Ending.result]

/-! ### Where each sequence goes when a transfer fails -/

theorem failsInto_command (cfg : Cfg) (c : CmdId) (arg : Byte) (exit : List Prim) :
    failsInto exit false (command cfg c arg exit) = some false := by
  simp [command, commandSequence, failsInto]

theorem failsInto_cursor (cfg : Cfg) (x y : Byte) (exit : List Prim) :
    failsInto exit false (cursorSequence cfg x y exit) = some false := by
  simp [cursorSequence, failsInto_append, failsInto_command, failsInto]

theorem failsInto_wrdataLoop (w n : Nat) (bytes : List Byte) (o : Bool) (exit : List Prim) :
    failsInto exit o (wrdataLoop w (if o then closing exit else exit) n bytes) = some o := by
  induction n generalizing bytes with
  | zero => rfl
  | succ n ih => cases bytes <;> simp [wrdataLoop, failsInto, ih]

theorem failsInto_wrdata (cfg : Cfg) (bytes : List Byte) (exit : List Prim) :
    failsInto exit false (wrdataSequence cfg bytes exit) = some false :=
  failsInto_wrdataLoop cfg.w _ bytes false exit

theorem failsInto_wrdata_open (cfg : Cfg) (bytes : List Byte) (exit : List Prim) :
    failsInto exit true (wrdataSequence cfg bytes (closing exit)) = some true :=
  failsInto_wrdataLoop cfg.w _ bytes true exit

theorem failsInto_fillrow (cfg : Cfg) (exit : List Prim) : failsInto exit false (fillrowSequence cfg) = some false := rfl

theorem failsInto_rows (n : Nat) (exit : List Prim) :
    failsInto exit true (List.replicate n (.xfer .rb (closing exit))) = some true := by
  induction n with
  | zero => rfl
  | succ n ih => simp [List.replicate_succ, failsInto, ih]

theorem failsInto_clearall (cfg : Cfg) (exit : List Prim) :
    failsInto exit false (clearallSequence cfg exit) = some false := by
  simp [clearallSequence, failsInto_append, failsInto_fillrow, failsInto_cursor, failsInto_rows, failsInto]

theorem failsInto_clearLines (cfg : Cfg) (exit : List Prim) (lines : List Byte) :
    failsInto exit false (lines.flatMap (clearLineSequence cfg exit)) = some false := by
  induction lines with
  | nil => rfl
  | cons l lines ih =>
    simp [List.flatMap_cons, failsInto_append, clearLineSequence, failsInto_cursor, failsInto]
    exact ih

theorem failsInto_clearlines (cfg : Cfg) (first last : Byte) (exit : List Prim) :
    failsInto exit false (clearlinesSequence cfg first last exit) = some false := by
  simp [clearlinesSequence, failsInto_append, failsInto_fillrow, failsInto_clearLines]

theorem failsInto_dataBracket (exit : List Prim) (writes : List Prim → List Item)
    (h : failsInto exit true (writes (closing exit)) = some true) :
    failsInto exit false (dataBracket exit writes) = some false := by
  simp [dataBracket, failsInto, failsInto_append, h]

theorem failsInto_policy (cfg : Cfg) (policy : Policy) (line col : Byte) (exit : List Prim) :
    failsInto exit false (policySequence cfg policy line col exit) = some false := by
  cases policy with
  | none => rfl
  | clearLeft =>
    simp [policySequence, failsInto_append, failsInto_cursor,
      failsInto_dataBracket _ _ (failsInto_wrdata_open cfg (blanks cfg col.toNat) exit)]
  | clearRight =>
    simp [policySequence, failsInto_append, failsInto_cursor,
      failsInto_dataBracket _ _ (failsInto_wrdata_open cfg (blanks cfg (columnsRight cfg col)) exit)]
  | clearBoth => exact failsInto_clearlines ..

theorem failsInto_glyphs (cfg : Cfg) (text : List Byte) (exit : List Prim) :
    failsInto exit false (glyphsSequence cfg text exit) = some false := by
  refine failsInto_dataBracket _ _ ?_
  induction text with
  | nil => rfl
  | cons c text ih => simp [List.flatMap_cons, failsInto_append, failsInto_wrdata_open, ih]

theorem failsInto_drawtext (cfg : Cfg) (policy : Policy) (line col : Byte) (text : List Byte) (exit : List Prim) :
    failsInto exit false (drawtextSequence cfg policy line col text exit) = some false := by
  simp [drawtextSequence, failsInto_append, failsInto_policy, failsInto_cursor, failsInto_glyphs]

/-! ### The chunks of a bulk data write -/

/-- Everything about the pieces of a byte sequence: joined they are the sequence, their number is the quotient rounded up,
none is empty or longer than `w`, and all but the last have `w` bytes (R152). -/
theorem pieces_spec {w : Nat} (hw : 0 < w) (n : Nat) (src : List Byte) (h : src.length ≤ n) :
    (pieces w n src).flatten = src ∧ (pieces w n src).length = (src.length + w - 1) / w
      ∧ (∀ c ∈ pieces w n src, 1 ≤ c.length ∧ c.length ≤ w) ∧ ∀ c ∈ (pieces w n src).dropLast, c.length = w := by
  have hnil : (w - 1) / w = 0 := Nat.div_eq_of_lt (by omega)
  induction n generalizing src with
  | zero =>
    obtain rfl : src = [] := by simpa using h
    simp [pieces, hnil]
  | succ n ih =>
    cases src with
    | nil => simp [pieces, hnil]
    | cons b src =>
      obtain ⟨h₁, h₂, h₃, h₄⟩ := ih ((b :: src).drop w) (by simp at *; omega)
      simp only [pieces]
      refine ⟨by rw [List.flatten_cons, h₁, List.take_append_drop], ?_, ?_, ?_⟩
      · rw [List.length_cons, h₂, List.length_drop, ← Nat.add_div_right _ hw]
        by_cases hl : w ≤ (b :: src).length
        · congr 1
          omega
        · rw [show (b :: src).length - w = 0 by omega, Nat.zero_add, Nat.div_eq_of_lt_le (k := 1),
            Nat.div_eq_of_lt_le (k := 1)] <;> simp at * <;> omega
      · intro c hc
        obtain rfl | hc := List.mem_cons.1 hc
        · simp
          omega
        · exact h₃ c hc
      · intro c hc
        cases hp : pieces w n ((b :: src).drop w) with
        | nil => simp [hp] at hc
        | cons p ps =>
          rw [hp, List.dropLast_cons_of_ne_nil (by simp)] at hc
          obtain rfl | hc := List.mem_cons.1 hc
          · have hne : (b :: src).drop w ≠ [] := by
              intro h0
              rw [h0] at hp
              cases n <;> simp [pieces] at hp
            rw [ne_eq, List.drop_eq_nil_iff] at hne
            rw [List.length_take]
            omega
          · exact h₄ c (by rw [hp]; exact hc)

/-- The same of the chunks of WRDATA (R152). -/
theorem chunks_spec (cfg : Cfg) (bytes : List Byte) :
    (chunks cfg bytes).flatten = bytes ∧ (chunks cfg bytes).length = (bytes.length + cfg.w - 1) / cfg.w
      ∧ (∀ c ∈ chunks cfg bytes, 1 ≤ c.length ∧ c.length ≤ cfg.w) ∧ ∀ c ∈ (chunks cfg bytes).dropLast, c.length = cfg.w :=
  pieces_spec (by simp [Cfg.w]) _ _ le_rfl

/-- A glyph has `GW` bytes whatever the code is (spec/20_memory.md R52). -/
@[simp] theorem Cfg.glyph_length (cfg : Cfg) (code : Byte) : (cfg.glyph code).length = cfg.gw := by
  unfold Cfg.glyph
  split <;> simp

end Sys2Proof.Machine
end

