-- ==== Sys2Proof/Laws/Step.lean ====
section
/-!
SUPPORT. What a step can do, said once: a property of states that each basic operation keeps is kept by every operation
and by every step of the machine. How the host wrapper runs when its operation is granted at once.
-/

namespace Sys2Proof.Machine

/-- A property of states that every basic operation of the machine keeps. -/
structure Kept (P : State → Prop) : Prop where
  buf : ∀ (s : State) (b : BufId) (v : Buf), P s → v.cap = (s.buf b).cap →
    (∀ cap, (s.buf b).wf cap = true → v.wf cap = true) → P (s.setBuf b v)
  prim : ∀ (p : Prim) (t : Nat) (s : State), P s → P (p.apply t s)
  transfer : ∀ (s s' : State) (b : BufId) (ok : Bool), P s → s.transfer b = some (ok, s') → P s'
  ctl : ∀ (s : State) (t : Nat) (c : Ctl), P s → P (s.setCtl t c)
  issue : ∀ (s : State) (t : Nat), P s → P (s.issue t)
  result : ∀ (s : State) (r : Result), P s → P (s.setResult r)
  env : ∀ (s : State) (e : Env), P s → P (s.setEnv e)
  port : ∀ s : State, P s → P { s with port := none }

variable {P : State → Prop}

theorem Kept.run (h : Kept P) (t k : Nat) (items : List Item) {s : State} (hs : P s) :
    P (Machine.run t k items s).state :=
  run_keeps (fun p s => h.prim p t s) (fun b ok s s' hs' hx => h.transfer s s' b ok hs' hx) k items hs

theorem Kept.execMicro (h : Kept P) {items : List Item} {s t : State} (hs : P s)
    (he : Machine.execMicro items s = .next t) : P t := by
  unfold Machine.execMicro at he
  simp only at he
  split at he
  · cases he
  · cases he
    exact h.result _ _ (h.run _ _ _ hs)

theorem Kept.execShaped (h : Kept P) {shape : Shape} {c : CmdId} {arg : Byte} {s t : State} (hs : P s)
    (he : Machine.execShaped shape c arg s = .next t) : P t := by
  unfold Machine.execShaped at he
  split at he
  · exact h.execMicro hs he
  · cases he

theorem Kept.execHost (h : Kept P) {op : HostOp} {items : List Item} {s t : State} (hs : P s)
    (he : Machine.execHost op items s = .next t) : P t := by
  have key : ∀ o : Host.Outcome State Fault Refusal,
      o = (match s.lock with
        | .free => .next (s.runHost s.who op items)
        | .held _ => .next (s.setCtl s.who (.waiting op 0 items))) → o = .next t → P t := by
    rintro o rfl ho
    split at ho <;> cases ho
    · exact h.ctl _ _ _ (h.run _ _ _ (h.prim .acq _ _ hs))
    · exact h.ctl _ _ _ hs
  unfold Machine.execHost at he
  split at he
  · cases he
  · cases he
  · cases he
  · exact key _ rfl he
  · exact key _ rfl he

/-- Every operation keeps what the basic operations keep. -/
theorem Kept.exec (h : Kept P) (i : Instr) {s t : State} (hs : P s) (he : Machine.exec i s = .next t) : P t := by
  cases i with
  | bufErase b => cases he; exact h.result _ _ (h.buf _ _ _ hs (Buf.erase_cap _) fun _ => Buf.erase_wf)
  | bufReset b => cases he; exact h.result _ _ (h.buf _ _ _ hs (Buf.reset_cap _) fun _ => Buf.reset_wf)
  | bufPush b tag src => cases he; exact h.result _ _ (h.buf _ _ _ hs (Buf.push_cap ..) fun _ => Buf.push_wf tag src)
  | bufPop b n => cases he; exact h.result _ _ (h.buf _ _ _ hs (Buf.pop_cap ..) fun _ => Buf.pop_wf n)
  | sel level => cases he; exact h.result _ _ (h.prim (.sel level) s.who _ hs)
  | xfer b =>
    simp only [Machine.exec, execXfer] at he
    split at he
    · cases he
      exact h.result _ _ (h.transfer _ _ _ _ hs ‹_›)
    · cases he
  | lockAcq =>
    simp only [Machine.exec, execLockAcq] at he
    split at he
    · cases he
    · split at he
      · cases he
        exact h.result _ _ (h.prim .acq _ _ hs)
      · cases he
  | lockRel =>
    simp only [Machine.exec, execLockRel] at he
    split at he
    · cases he
      exact h.result _ _ (h.prim .rel _ _ hs)
    · cases he
  | cursor | wrdata | fillrow | clearallBody | clearlinesBody | drawtextBody => exact h.execMicro hs he
  | opInit | opSetcursor | opWrite | opClearall | opClearlines | opDrawtext | opCtl | ctlContrast | ctlRefresh
  | opClearline => exact h.execHost hs he
  | cmdSimple | cmdCompound => exact h.execShaped hs he
  | lcdReset | lcdAllpts | lcdPwrctl | lcdOnoff | lcdComdir | lcdSegdir | lcdEvol | lcdRefresh | lcdChgpump | lcdBias
  | lcdVop | lcdReverse | lcdLine | lcdColmsb | lcdCollsb =>
    simp only [Machine.exec, execLcdReset, execLcdAllpts, execLcdPwrctl, execLcdOnoff, execLcdComdir, execLcdSegdir,
      execLcdEvol, execLcdRefresh, execLcdChgpump, execLcdBias, execLcdVop, execLcdReverse, execLcdLine, execLcdColmsb,
      execLcdCollsb] at he
    exact h.execShaped hs he

theorem Kept.stepRequester (h : Kept P) (t : Nat) {s : State} (hs : P s) : P (s.stepRequester t) := by
  unfold State.stepRequester
  split
  · exact hs
  · exact h.issue _ _ hs
  · exact h.issue _ _ hs
  · exact h.ctl _ _ _ (h.prim .acq _ _ hs)
  · unfold State.runItem
    split
    · exact hs
    · exact h.ctl _ _ _ (h.prim _ _ _ hs)
    · split
      · exact h.ctl _ _ _ (h.transfer _ _ _ _ hs ‹_›)
      · exact h.ctl _ _ _ (h.transfer _ _ _ _ hs ‹_›)
      · exact hs

/-- A requester whose next request is `r` (R29): the head of its list of requests to come or, when that is used up, the
head of those that it issues again and again. -/
theorem Requester.next?_eq {q : Requester} {r : Request} {more : List Request}
    (h : q.todo = r :: more ∨ q.todo = [] ∧ q.forever = r :: more) : q.next? = some (r, { q with todo := more }) := by
  unfold Requester.next?
  obtain h | ⟨h, h'⟩ := h
  · rw [h]
  · rw [h, h']

/-- Taking the next request leaves the requester's control record and its repeated requests alone. -/
theorem Requester.next?_some {q q' : Requester} {r : Request} (h : q.next? = some (r, q')) :
    q'.ctl = q.ctl ∧ q'.forever = q.forever := by
  unfold Requester.next? at h
  split at h <;> cases h <;> exact ⟨rfl, rfl⟩

/-- Issuing a request changes only the record of the requester that issues it (R29, R192). -/
theorem State.issue_eq (s : State) (t : Nat) : s.issue t = s ∨ ∃ q, s.issue t = { s with reqs := s.reqs.set t q } := by
  unfold State.issue
  split
  · exact .inl rfl
  · split
    · exact .inl rfl
    · exact .inr ⟨_, rfl⟩

/-- A step of one requester leaves the others' records and the harness's side alone (R29). -/
theorem State.stepRequester_frame (s : State) (t : Nat) :
    (∀ u, u ≠ t → (s.stepRequester t).reqs[u]? = s.reqs[u]?) ∧ (s.stepRequester t).port = s.port
      ∧ (s.stepRequester t).who = s.who := by
  have hset : ∀ (s' : State) (c : Ctl) (u : Nat), u ≠ t → (s'.setCtl t c).reqs[u]? = s'.reqs[u]? := by
    intro s' c u h
    simp [h.symm]
  have hissue : (∀ u, u ≠ t → (s.issue t).reqs[u]? = s.reqs[u]?) ∧ (s.issue t).port = s.port ∧ (s.issue t).who = s.who := by
    obtain h | ⟨q, h⟩ := s.issue_eq t <;> rw [h]
    · exact ⟨fun _ _ => rfl, rfl, rfl⟩
    · exact ⟨fun u hu => List.getElem?_set_ne hu.symm, rfl, rfl⟩
  unfold State.stepRequester
  split
  · exact ⟨fun _ _ => rfl, rfl, rfl⟩
  · exact hissue
  · exact hissue
  · exact ⟨fun u hu => hset _ _ u hu, rfl, rfl⟩
  · unfold State.runItem
    split
    · exact ⟨fun _ _ => rfl, rfl, rfl⟩
    · exact ⟨fun u hu => by rw [hset _ _ u hu]; simp, by simp, by simp⟩
    · split
      · obtain ⟨e, -, rfl⟩ := State.transfer_some ‹_›
        exact ⟨fun u hu => hset _ _ u hu, rfl, rfl⟩
      · obtain ⟨e, -, rfl⟩ := State.transfer_some ‹_›
        exact ⟨fun u hu => hset _ _ u hu, rfl, rfl⟩
      · exact ⟨fun _ _ => rfl, rfl, rfl⟩

/-- What a step of one of some agents answers: the state itself when there is none and the machine is finished, or the
state after one agent's step. -/
theorem moveOne_next {agents : List Nat} {s t : State} (h : moveOne agents s = .next t) :
    (t = s ∧ agents = [] ∧ s.finished = true) ∨ (∃ u, agents = [u] ∧ t = s.stepRequester u)
      ∨ ∃ u, u ∈ agents ∧ t = (s.setEnv s.env.choose.2).stepRequester u := by
  unfold moveOne at h
  split at h
  · split at h
    · cases h
      exact .inl ⟨rfl, rfl, ‹_›⟩
    · cases h
  · cases h
    exact .inr (.inl ⟨_, rfl, rfl⟩)
  · rename_i a b more
    cases h
    refine .inr (.inr ⟨_, ?_, rfl⟩)
    have hlt : s.env.choose.1 % (more.length + 2) < (a :: b :: more).length := Nat.mod_lt _ (by simp)
    rw [List.getD_eq_getElem?_getD, List.getElem?_eq_getElem hlt]
    exact List.getElem_mem hlt

theorem Kept.moveOne (h : Kept P) {agents : List Nat} {s t : State} (hs : P s) (he : Machine.moveOne agents s = .next t) :
    P t := by
  obtain ⟨rfl, -⟩ | ⟨u, -, rfl⟩ | ⟨u, -, rfl⟩ := moveOne_next he
  · exact hs
  · exact h.stepRequester _ hs
  · exact h.stepRequester _ (h.env _ _ hs)

/-- Every step keeps what the basic operations keep. -/
theorem Kept.step (h : Kept P) {s t : State} (hs : P s) (he : Machine.step s = .next t) : P t := by
  unfold Machine.step at he
  split at he
  · exact h.moveOne hs he
  · split at he
    · cases he
    · unfold portOutcome at he
      split at he
      · exact h.moveOne hs he
      · exact h.exec _ (h.port _ hs) he

/-- LCD.<name> is the command micro-operation of its shape (R88, R130 to R144). -/
theorem exec_named (c : CmdId) (arg : Byte) (s : State) : exec (c.named arg) s = execShaped c.shape c arg s := by
  cases c <;> rfl

/-! ### The host wrapper -/

theorem State.ready_lock {s : State} (h : s.ready = true) : s.lock = .free := by
  unfold State.ready at h
  split at h <;> simp_all

/-- A host operation of a requester that is ready is granted at once (R190, R192). -/
theorem execHost_of_ready {s : State} (h : s.ready = true) (op : HostOp) (items : List Item) :
    execHost op items s = .next (s.runHost s.who op items) := by
  unfold State.ready at h
  unfold execHost
  split at h <;> simp at h <;> simp_all

/-- Every host operation is the host wrapper around its sequence (R192). -/
theorem exec_of_hostOp {i : Instr} {op : HostOp} (h : hostOp? i = some op) (s : State) :
    exec i s = execHost op (hostOpSequence s.cfg s.policy op) s := by
  cases i <;> simp [hostOp?] at h <;> subst h <;> rfl

/-- The host wrapper around a body all of whose transfers succeed (R192). -/
theorem runHost_of_successes {op : HostOp} {body : List Prim → List Item} {s : State} {e : Env} (t : Nat)
    (hf : failsInto (hostExit .fail) false (body (hostExit .fail)) = some false)
    (ha : s.env.afterSuccesses (transfersIn (seen t (body (hostExit .fail)) (s.acquire t))) = some e) :
    s.runHost t op (hostSequence body) =
      { (walk t (body (hostExit .fail)) (s.acquire t)).setEnv e with
        lock := .free
        reqs := (s.setCtl t (.done op .ok)).reqs
        trace := s.trace ++ [.acq t] ++ seen t (body (hostExit .fail)) (s.acquire t) ++ [.rel t, .ret t .ok] } := by
  have hn := noReturn_of_failsInto hf
  unfold State.runHost hostSequence
  rw [run_append _ _ _ _ _ hn, run_of_successes 0 hn (by exact ha)]
  simp [RunEnd.andThen, run, hostExit, Prim.status?, Prim.apply, RunEnd.ctl, State.release, State.emit, State.setCtl,
    State.setEnv, walk_trace]

/-! ### Bring-up -/

/-- Commands one after the other, each in its own bracket (R202). -/
def commandList (cfg : Cfg) (cs : List (CmdId × Byte)) (exit : List Prim) : List Item :=
  cs.flatMap fun c => command cfg c.1 c.2 exit

theorem initFirst_eq (cfg : Cfg) (exit : List Prim) :
    initFirst cfg exit = commandList cfg (bringUpFirst cfg.initArg) exit := by
  simp [initFirst, commandList, bringUpFirst]

theorem initLast_eq (cfg : Cfg) (exit : List Prim) :
    initLast cfg exit = commandList cfg (bringUpLast cfg.initArg) exit := by
  simp [initLast, commandList, bringUpLast]

theorem failsInto_commandList (cfg : Cfg) (cs : List (CmdId × Byte)) (exit : List Prim) :
    failsInto exit false (commandList cfg cs exit) = some false := by
  induction cs with
  | nil => rfl
  | cons c cs ih =>
    unfold commandList at *
    rw [List.flatMap_cons, failsInto_append, failsInto_command]
    exact ih

theorem walk_commandList (t : Nat) (cfg : Cfg) (exit : List Prim) (cs : List (CmdId × Byte)) (s : State)
    (hw : Memory.wf s = true) :
    walk t (commandList cfg cs exit) s =
      { s with cb := cs.foldl (fun b c => b.loaded (commandWords cfg c.1 c.2)) s.cb,
               cs := if cs.isEmpty then s.cs else .inactive,
               trace := s.trace ++ commandsEvents cfg cs } := by
  induction cs generalizing s with
  | nil => simp [commandList, walk, commandsEvents]
  | cons c cs ih =>
    unfold commandList at *
    have h1 := walk_wf t (command cfg c.1 c.2 exit) hw
    rw [List.flatMap_cons, walk_append, walk_command _ _ _ _ _ _ hw] at *
    rw [ih _ h1]
    simp [commandsEvents]

theorem transfersIn_commands (cfg : Cfg) (cs : List (CmdId × Byte)) : transfersIn (commandsEvents cfg cs) = cs.length := by
  induction cs with
  | nil => rfl
  | cons c cs ih =>
    simp [commandsEvents, List.flatMap_cons, bracket, transfersIn] at *
    omega

/-! ### Where the events of a failing run stop -/

/-- Whether a bracket is open after some events. -/
def openAfter : Bool → List Event → Bool
  | o, [] => o
  | _, .sel level :: es => openAfter (level == .active) es
  | o, .acq _ :: es => openAfter o es
  | o, .rel _ :: es => openAfter o es
  | o, .ret .. :: es => openAfter o es
  | o, .xfer .. :: es => openAfter o es

theorem failedAt_append_of_le {a : List Event} {n : Nat} (b : List Event) (o : Bool) (h : transfersIn a ≤ n) :
    failedAt o n (a ++ b) = a ++ failedAt (openAfter o a) (n - transfersIn a) b := by
  induction a generalizing n o with
  | nil => rfl
  | cons e es ih =>
    cases e with
    | xfer ws ok =>
      cases n with
      | zero => simp [transfersIn] at h
      | succ n =>
        have h' : transfersIn es ≤ n := by simpa [transfersIn] using h
        simp [failedAt, ih _ h', openAfter, transfersIn]
    | _ =>
      simp only [transfersIn] at h
      simp [failedAt, transfersIn, openAfter, ih _ h]

theorem failedAt_append_of_lt {a : List Event} {n : Nat} (b : List Event) (o : Bool) (h : n < transfersIn a) :
    failedAt o n (a ++ b) = failedAt o n a := by
  induction a generalizing n o with
  | nil => simp [transfersIn] at h
  | cons e es ih =>
    cases e with
    | xfer ws ok =>
      cases n with
      | zero => simp [failedAt]
      | succ n =>
        have h' : n < transfersIn es := by simpa [transfersIn] using h
        simp [failedAt, ih _ h']
    | _ =>
      simp only [transfersIn] at h
      simp [failedAt, ih _ h]

theorem openAfter_append (o : Bool) (a b : List Event) : openAfter o (a ++ b) = openAfter (openAfter o a) b := by
  fun_induction openAfter o a <;> simp_all [openAfter]

theorem openAfter_commands (cfg : Cfg) (cs : List (CmdId × Byte)) : openAfter false (commandsEvents cfg cs) = false := by
  induction cs with
  | nil => rfl
  | cons c cs ih =>
    simp [commandsEvents, List.flatMap_cons, bracket, openAfter] at *
    exact ih

theorem openAfter_clearall (cfg : Cfg) : openAfter false (clearallEvents cfg) = false := by
  simp [clearallEvents, openAfter_append, openAfter]

end Sys2Proof.Machine
end

