-- ==== Sys2Proof/Laws/Discipline.lean ====
section
/-!
SUPPORT. Every sequence of the engine keeps the lock and bracket discipline of spec/45_host_ops.md R192 and R193, on every
path, with every exit path that does.
-/

namespace Sys2Proof.Machine

@[simp] theorem exitDisciplined_closing (exit : List Prim) :
    exitDisciplined ⟨true, true⟩ (closing exit) = exitDisciplined ⟨true, false⟩ exit := by
  simp [closing, exitDisciplined, Prim.phase, Prim.status?]

theorem exitDisciplined_hostExit (status : Status) : exitDisciplined ⟨true, false⟩ (hostExit status) = true := rfl

theorem exitDisciplined_initClearExit : exitDisciplined ⟨true, false⟩ initClearExit = true := rfl

/-- A sequence that is an exit path keeps the discipline exactly when the exit path does. -/
theorem disciplined_map_prim (φ : Phase) (exit : List Prim) :
    disciplined φ (exit.map .prim) = exitDisciplined φ exit := by
  induction exit generalizing φ with
  | nil => rfl
  | cons p ps ih =>
    simp only [List.map_cons, disciplined, exitDisciplined]
    cases p.phase φ with
    | none => rfl
    | some φ' => simp [ih]

/-- A sequence that fails into a disciplined exit path can be passed over. -/
theorem disciplined_append {exit : List Prim} {items : List Item} {o o' : Bool} (b : List Item)
    (hf : failsInto exit o items = some o') (he : exitDisciplined ⟨true, false⟩ exit = true) :
    disciplined ⟨true, o⟩ (items ++ b) = disciplined ⟨true, o'⟩ b := by
  fun_induction failsInto exit o items with
  | case1 o => simp_all
  | case2 => simp at hf
  | case3 o level rest h ih =>
    rw [← ih hf]
    cases o <;> cases level <;> first | rfl | exact absurd rfl h
  | case4 o b' rest ih => simpa [disciplined, Prim.phase, Prim.status?] using ih hf
  | case5 o b' tag src rest ih => simpa [disciplined, Prim.phase, Prim.status?] using ih hf
  | case6 o row col rest ih => simpa [disciplined, Prim.phase, Prim.status?] using ih hf
  | case7 => simp at hf
  | case8 => simp at hf
  | case9 => simp at hf
  | case10 o b' rest ih =>
    rw [← ih hf]
    cases o <;> simp [disciplined, he]
  | case11 => simp at hf

/-- A body in the host wrapper keeps the discipline (R192). -/
theorem disciplined_hostSequence {body : List Prim → List Item}
    (hf : failsInto (hostExit .fail) false (body (hostExit .fail)) = some false) :
    disciplined ⟨true, false⟩ (hostSequence body) = true := by
  rw [hostSequence, disciplined_append _ hf rfl]
  rfl

/-- Bring-up keeps the discipline through both of its windows (R202, R203). -/
theorem disciplined_initSequence (cfg : Cfg) : disciplined ⟨true, false⟩ (initSequence cfg) = true := by
  have hw : ∀ b : List Item, disciplined ⟨true, false⟩ (window.map .prim ++ b) = disciplined ⟨true, false⟩ b :=
    fun _ => rfl
  simp only [initSequence, List.append_assoc, initFirst_eq, initLast_eq]
  rw [disciplined_append _ (failsInto_commandList ..) rfl, hw, disciplined_append _ (failsInto_clearall ..) rfl, hw,
    disciplined_append _ (failsInto_commandList ..) rfl]
  rfl

/-- What the sequencer runs for any host operation keeps the discipline (R192, R193). -/
theorem disciplined_hostOpSequence (cfg : Cfg) (policy : Policy) (op : HostOp) :
    disciplined ⟨true, false⟩ (hostOpSequence cfg policy op) = true := by
  cases op with
  | init => exact disciplined_initSequence cfg
  | setCursor x y => exact disciplined_hostSequence (failsInto_cursor ..)
  | write bytes => exact disciplined_hostSequence (failsInto_wrdata ..)
  | clearAll => exact disciplined_hostSequence (failsInto_clearall ..)
  | clearLines first last => exact disciplined_hostSequence (failsInto_clearlines ..)
  | drawText line col text => exact disciplined_hostSequence (failsInto_drawtext ..)
  | ctl code arg =>
    simp only [hostOpSequence, ctlSequence]
    split
    · rfl
    · split
      · exact disciplined_hostSequence (failsInto_command ..)
      · rfl

/-- A disciplined sequence of a holder does not ask for the lock first. -/
theorem standing_of_disciplined {op : HostOp} {k : Nat} {rest : List Item} {b : Bool}
    (h : disciplined ⟨true, b⟩ rest = true) : standing op k rest = .running op k rest := by
  unfold standing
  split
  · simp [disciplined, Prim.phase] at h
  · rfl

theorem setCtl_getElem? {s : State} {t u : Nat} {c : Ctl} {q : Requester} (h : (s.setCtl t c).reqs[u]? = some q) :
    (u ≠ t ∧ s.reqs[u]? = some q) ∨ (u = t ∧ q.ctl = c) := by
  simp only [State.setCtl_reqs, List.getElem?_modify] at h
  obtain ⟨q', h₁, h₂⟩ := Option.map_eq_some_iff.1 h
  by_cases hu : t = u
  · simp only [hu] at h₂
    exact .inr ⟨hu.symm, by rw [← h₂]; rfl⟩
  · simp only [hu] at h₂
    exact .inl ⟨Ne.symm hu, by rw [h₁]; exact congrArg some h₂⟩

/-- Who has a step depends on the environment by the answers to come alone. -/
theorem agents_setEnv (s : State) {e : Env} (ha : e.answers? = s.env.answers?) : (s.setEnv e).agents = s.agents := by
  have h : ∀ (q : Requester) (t : Nat), q.hasStep t (s.setEnv e) = q.hasStep t s := by
    intro q t
    simp [Requester.hasStep, ha]
  simp [State.agents, h]

@[simp] theorem choose_answers (e : Env) : e.choose.2.answers = e.answers := by
  unfold Env.choose
  split <;> rfl

@[simp] theorem choose_silent (e : Env) : e.choose.2.silent = e.silent := by
  unfold Env.choose
  split <;> rfl

@[simp] theorem choose_choicesForever (e : Env) : e.choose.2.choicesForever = e.choicesForever := by
  unfold Env.choose
  split
  · rfl
  · simp [*]
  · simp [*]

/-- Drawing a choice changes nothing about who has a step. -/
@[simp] theorem agents_choose (s : State) : (s.setEnv s.env.choose.2).agents = s.agents :=
  agents_setEnv s (by simp [Env.answers?])

theorem mem_agents {s : State} {t : Nat} : t ∈ s.agents ↔ ∃ q, s.reqs[t]? = some q ∧ q.hasStep t s = true := by
  simp only [State.agents, List.mem_filter, List.mem_range]
  constructor
  · rintro ⟨hlt, h⟩
    rw [List.getElem?_eq_getElem hlt] at h
    exact ⟨_, List.getElem?_eq_getElem hlt, h⟩
  · rintro ⟨q, hq, h⟩
    exact ⟨(List.getElem?_eq_some_iff.1 hq).1, by rw [hq]; exact h⟩

theorem mem_othersAgents {s : State} {t : Nat} : t ∈ s.othersAgents ↔ t ∈ s.agents ∧ t ≠ s.who := by
  simp [State.othersAgents]

/-- With nothing at the harness port, a step is one of the requesters that have one. -/
theorem step_of_noPort {s : State} (hp : s.port = none) : step s = moveOne s.agents s := by
  unfold step
  rw [hp]
  rfl

/-- Whichever agent has a step, some choice makes the next step of the machine its own (R190). -/
theorem step_of_mem_agents {s : State} {t : Nat} (hp : s.port = none) (ht : t ∈ s.agents) :
    ∃ choices e, step { s with env := { s.env with choices := choices } } = .next ((s.setEnv e).stepRequester t) := by
  obtain ⟨j, hj, rfl⟩ := List.getElem_of_mem ht
  have hag : (s.setEnv { s.env with choices := [j] }).agents = s.agents := agents_setEnv s rfl
  have hstep := step_of_noPort (s := s.setEnv { s.env with choices := [j] }) hp
  rw [hag] at hstep
  suffices h : ∃ e, moveOne s.agents (s.setEnv { s.env with choices := [j] })
      = .next ((s.setEnv e).stepRequester s.agents[j]) from h.elim fun e he => ⟨[j], e, hstep.trans he⟩
  clear hag hstep
  generalize s.agents = as at hj
  match as, hj with
  | [a], hj =>
    obtain rfl : j = 0 := by simpa using hj
    exact ⟨_, rfl⟩
  | a :: b :: more, hj =>
    have hj' : j % (more.length + 2) = j := Nat.mod_eq_of_lt hj
    refine ⟨{ s.env with choices := [] }, ?_⟩
    simp only [moveOne, State.setEnv_env, Env.choose, hj', State.setEnv_setEnv, List.getD_eq_getElem?_getD,
      List.getElem?_eq_getElem hj, Option.getD_some]

theorem State.ctl?_eq_some {s : State} {t : Nat} {c : Ctl} : s.ctl? t = some c ↔ ∃ q, s.reqs[t]? = some q ∧ q.ctl = c := by
  simp [State.ctl?]

theorem scanTrace_append (at_ : Lock × Level) (a b : List Event) :
    scanTrace at_ (a ++ b) = (scanTrace at_ a).bind fun x => scanTrace x b := by
  fun_induction scanTrace at_ a <;> simp_all [scanTrace]

/-- One more event of a serial trace (R205). -/
theorem scanTrace_concat {at_ x : Lock × Level} {a : List Event} (h : scanTrace at_ a = some x) (e : Event) :
    scanTrace at_ (a ++ [e]) = scanEvent x e := by
  rw [scanTrace_append, h]
  simp only [Option.bind_some, scanTrace]
  cases scanEvent x e <;> rfl

end Sys2Proof.Machine
end

