-- ==== Sys2Proof/Laws/Failure.lean ====
section
/-!
SUPPORT. What the buffers and the cursor hold at each transfer of a sequence (spec/60_exceptions.md R225): both buffers are
what the transport calls so far, this one among them, have been made from, and the cursor is the last one completed.
-/

namespace Sys2Proof.Machine

theorem Buf.afterCalls_append (b : Buf) (tag : Byte) (es es' : List Event) :
    b.afterCalls tag (es ++ es') = (b.afterCalls tag es).afterCalls tag es' := by
  induction es generalizing b with
  | nil => rfl
  | cons e es ih => cases e <;> simp [Buf.afterCalls, ih]

theorem commandCalls_append (es es' : List Event) : commandCalls (es ++ es') = commandCalls es + commandCalls es' := by
  induction es with
  | nil => simp [commandCalls]
  | cons e es ih => cases e <;> simp [commandCalls, ih]; try omega

@[simp] theorem Prim.events_afterCalls (p : Prim) (t : Nat) (b : Buf) (tag : Byte) : b.afterCalls tag (p.events t) = b := by
  cases p <;> rfl

@[simp] theorem Prim.events_commandCalls (p : Prim) (t : Nat) : commandCalls (p.events t) = 0 := by
  cases p <;> rfl

/-- A buffer of good form is what its own valid words load into it. -/
theorem Buf.loaded_self (b : Buf) (h : b.len ≤ b.cap) : b.loaded b.valid = b := by
  obtain ⟨len, st⟩ := b
  simp only [Buf.cap] at h
  simp [Buf.loaded, Buf.valid, Nat.min_eq_left h]

/-- The tag field of a composed word (R70). -/
theorem wordTag_append (tag byte : Byte) : wordTag (tag ++ byte : BitVec (8 + 8)) = tag := by
  apply BitVec.eq_of_getLsbD_eq
  intro i hi
  rw [wordTag, BitVec.getLsbD_extractLsb', BitVec.getLsbD_append, if_neg (by omega)]
  simp [hi]

/-- Every word of a command has tag 0 (R72). -/
theorem commandWords_tag (cfg : Cfg) (c : CmdId) (arg : Byte) :
    (commandWords cfg c arg).all (fun w => wordTag w == commandTag) = true := by
  simp [commandWords, wordTag_append, commandTag]

/-- Every word of a data write has tag 1 (R72, R78). -/
theorem dataWords_tag (bytes : List Byte) : (bytes.map dataWord).all (fun w => wordTag w == dataTag) = true := by
  simp [dataWord, wordTag_append, dataTag]

theorem blankRow_eq (cfg : Cfg) : blankRow cfg = (blanks cfg cfg.w).map dataWord := by
  simp [blankRow, blanks]

/-- Words of a command are no data words. -/
theorem commandWords_notData (cfg : Cfg) (c : CmdId) (arg : Byte) :
    (commandWords cfg c arg).all (fun w => wordTag w == dataTag) = false := by
  simp only [commandWords, commandBytes, compoundBytes]
  split <;> simp [wordTag_append, dataTag]

/-- Data words are no words of a command. -/
theorem dataWords_notCommand {bytes : List Byte} (h : bytes ≠ []) :
    (bytes.map dataWord).all (fun w => wordTag w == commandTag) = false := by
  cases bytes with
  | nil => exact absurd rfl h
  | cons b bytes => simp [dataWord, wordTag_append, commandTag]

/-- Both buffers are what the calls of these events have been made from, since they held `cb` and `rb`. -/
def Tracked (cb rb : Buf) (es : List Event) (s : State) : Prop :=
  s.cb = cb.afterCalls commandTag es ∧ s.rb = rb.afterCalls dataTag es

/-- At each transfer of a sequence, `es` being the events before it: both buffers are what the calls up to and with this one
have been made from, and the cursor is `curOf` of the number of command transfers that have succeeded. -/
def AtTransfers (t : Nat) (cb rb : Buf) (curOf : Nat → Option CursorPos) : List Event → List Item → State → Prop
  | _, [], _ => True
  | es, .prim p :: rest, s => AtTransfers t cb rb curOf (es ++ p.events t) rest (p.apply t s)
  | es, .xfer b _ :: rest, s =>
    (Tracked cb rb (es ++ [.xfer (s.buf b).valid false]) s ∧ s.cur = curOf (commandCalls es))
      ∧ AtTransfers t cb rb curOf (es ++ [.xfer (s.buf b).valid true]) rest (s.emit (.xfer (s.buf b).valid true))

variable {t : Nat} {cb rb : Buf} {curOf : Nat → Option CursorPos}

theorem AtTransfers.append {es : List Event} {a b : List Item} {s : State} (ha : AtTransfers t cb rb curOf es a s)
    (hb : AtTransfers t cb rb curOf (es ++ seen t a s) b (walk t a s)) : AtTransfers t cb rb curOf es (a ++ b) s := by
  induction a generalizing es s with
  | nil => simpa [seen, walk] using hb
  | cons i a ih =>
    cases i with
    | prim p => exact ih ha (by simpa [seen, walk] using hb)
    | xfer c f => exact ⟨ha.1, ih ha.2 (by simpa [seen, walk] using hb)⟩

/-- What holds at each transfer, read off at one of them. -/
theorem AtTransfers.at {es : List Event} {before later : List Item} {b : BufId} {f : List Prim} {s : State}
    (h : AtTransfers t cb rb curOf es (before ++ .xfer b f :: later) s) :
    Tracked cb rb (es ++ seen t before s ++ [.xfer ((walk t before s).buf b).valid false]) (walk t before s)
      ∧ (walk t before s).cur = curOf (commandCalls (es ++ seen t before s)) := by
  induction before generalizing es s with
  | nil => simpa [seen, walk] using h.1
  | cons i before ih =>
    cases i with
    | prim p => simpa [seen, walk] using ih h
    | xfer c g => simpa [seen, walk] using ih h.2

/-- The run with a failure in a sequence of which this holds (R225): the buffers are what the calls have been made from,
the failing one among them, and one of them holds its words; the cursor is that of the command transfers before. -/
theorem StandsBefore.tracked {items : List Item} {s s' : State} {es : List Event} (h : StandsBefore t items s s' es)
    (ha : AtTransfers t cb rb curOf [] items s) :
    Tracked cb rb es s' ∧ s'.cur = curOf (commandCalls es) ∧ ∃ b ws, .xfer ws false ∈ es ∧ (s'.buf b).valid = ws := by
  obtain ⟨before, b, f, later, close, rfl, hc, rfl, h₁, h₂, h₃⟩ := h
  obtain ⟨⟨hcb, hrb⟩, hcur⟩ := ha.at
  have hnone : (∀ (x : Buf) (tag : Byte), x.afterCalls tag close = x) ∧ commandCalls close = 0 := by
    obtain rfl | rfl := hc <;> exact ⟨fun _ _ => rfl, rfl⟩
  rw [List.append_cons]
  refine ⟨⟨?_, ?_⟩, ?_, b, ((walk t before s).buf b).valid, by simp, ?_⟩
  · rw [h₁, Buf.afterCalls_append, hnone.1, hcb]
    simp
  · rw [h₂, Buf.afterCalls_append, hnone.1, hrb]
    simp
  · rw [h₃, hcur]
    simp [commandCalls_append, commandCalls, hnone.2]
  · cases b
    · simp [State.buf, h₁]
    · simp [State.buf, h₂]

/-- A sequence that takes a state in which both buffers are tracked and the cursor is that of `n` command transfers to one
with `n'` of them, keeps this at each transfer between, and keeps a property of the row buffer. -/
def Carries (t : Nat) (cb rb : Buf) (curOf : Nat → Option CursorPos) (cfg : Cfg) (row : Buf → Prop) (n n' : Nat)
    (items : List Item) : Prop :=
  ∀ (es : List Event) (s : State), Memory.wf s = true → s.cfg = cfg → row s.rb → Tracked cb rb es s →
    commandCalls es = n → s.cur = curOf n →
    AtTransfers t cb rb curOf es items s ∧ row (walk t items s).rb
      ∧ Tracked cb rb (es ++ seen t items s) (walk t items s)
      ∧ commandCalls (es ++ seen t items s) = n' ∧ (walk t items s).cur = curOf n'

variable {cfg : Cfg} {row : Buf → Prop}

theorem Carries.nil {n : Nat} : Carries t cb rb curOf cfg row n n [] := fun es s _ _ hr h hn hc =>
  ⟨trivial, hr, by simpa [seen, walk] using h, by simpa [seen] using hn, hc⟩

theorem Carries.append {n n' n'' : Nat} {a b : List Item} (ha : Carries t cb rb curOf cfg row n n' a)
    (hb : Carries t cb rb curOf cfg row n' n'' b) : Carries t cb rb curOf cfg row n n'' (a ++ b) := by
  intro es s hw hcfg hr h hn hc
  obtain ⟨h₁, h₂, h₃, h₄, h₅⟩ := ha es s hw hcfg hr h hn hc
  obtain ⟨g₁, g₂, g₃, g₄, g₅⟩ := hb _ _ (walk_wf t a hw) (by simpa using hcfg) h₂ h₃ h₄ h₅
  exact ⟨h₁.append g₁, by simpa [walk_append] using g₂, by simpa [seen_append, walk_append] using g₃,
    by simpa [seen_append] using g₄, by simpa [walk_append] using g₅⟩

/-- The same sequence for each element of a list. -/
theorem Carries.flatMap {α : Type} {n d : Nat} {f : α → List Item} (as : List α)
    (h : ∀ (j : Nat) (a : α), as[j]? = some a → Carries t cb rb curOf cfg row (n + d * j) (n + d * (j + 1)) (f a)) :
    Carries t cb rb curOf cfg row n (n + d * as.length) (as.flatMap f) := by
  induction as generalizing n with
  | nil => exact Carries.nil
  | cons a as ih =>
    rw [List.flatMap_cons]
    refine Carries.append (n' := n + d) (by simpa using h 0 a rfl) ?_
    have := ih (n := n + d) fun j b hb => by
      have := h (j + 1) b (by simpa using hb)
      rwa [show n + d * (j + 1) = n + d + d * j by ring, show n + d * (j + 1 + 1) = n + d + d * (j + 1) by ring] at this
    rwa [show n + d * (a :: as).length = n + d + d * as.length by simp; ring]

/-- Chip-select alone. -/
theorem Carries.sel {n : Nat} (level : Level) : Carries t cb rb curOf cfg row n n [.prim (.sel level)] :=
  fun es s _ _ hr h hn hc => ⟨trivial, hr, by simpa [seen, walk, Tracked, Prim.apply, Buf.afterCalls_append] using h,
    by simpa [seen, commandCalls_append] using hn, by simpa [walk, Prim.apply] using hc⟩

/-- One command, the cursor apart (R122, R123). -/
theorem atTransfers_command {es : List Event} {s : State} (c : CmdId) (arg : Byte) (exit : List Prim)
    (hw : Memory.wf s = true) (h : Tracked cb rb es s) (hc : s.cur = curOf (commandCalls es)) :
    AtTransfers t cb rb curOf es (command cfg c arg exit) s
      ∧ Tracked cb rb (es ++ seen t (command cfg c arg exit) s) (walk t (command cfg c arg exit) s)
      ∧ commandCalls (es ++ seen t (command cfg c arg exit) s) = commandCalls es + 1 := by
  have hseen : seen t (command cfg c arg exit) s = bracket (commandWords cfg c arg) true :=
    seen_of_walk (by rw [walk_command _ _ _ _ _ _ hw])
  have hp : s.cb.reset.push commandTag (commandBytes cfg c arg) = s.cb.loaded (commandWords cfg c arg) := by
    have := (Memory.wf_iff s).1 hw
    have := commandBytes_length cfg c arg
    rw [Buf.reset_push _ _ _ (by omega), commandWords_eq]
  have hd := commandWords_notData cfg c arg
  have ht := commandWords_tag cfg c arg
  rw [h.1] at hp
  rw [hseen, walk_command _ _ _ _ _ _ hw]
  refine ⟨⟨⟨⟨?_, ?_⟩, ?_⟩, trivial⟩, ⟨?_, ?_⟩, ?_⟩
  · simp only [Prim.apply, State.buf, State.setBuf, State.select, State.emit, Buf.loaded_valid,
      Buf.afterCalls_append, Prim.events_afterCalls, Buf.afterCalls, h.1, hp, ht, if_true]
  · simp only [Prim.apply, State.buf, State.setBuf, State.select, State.emit, Buf.loaded_valid,
      Buf.afterCalls_append, Prim.events_afterCalls, Buf.afterCalls, h.1, hp, hd, h.2]
    simp
  · simp only [commandCalls_append, Prim.events_commandCalls]
    simpa [Prim.apply] using hc
  · simp [Buf.afterCalls_append, bracket, Buf.afterCalls, h.1, ht]
  · simp [Buf.afterCalls_append, bracket, Buf.afterCalls, h.2, hd]
  · simp [commandCalls_append, bracket, commandCalls, ht]

/-- The cursor sequence (R150): the cursor of `n` command transfers stands until the third of its own. -/
theorem Carries.cursor {n : Nat} (x y : Byte) (exit : List Prim) (h₁ : curOf (n + 1) = curOf n)
    (h₂ : curOf (n + 2) = curOf n) (h₃ : curOf (n + 3) = some ⟨y, x⟩) :
    Carries t cb rb curOf cfg row n (n + 3) (cursorSequence cfg x y exit) := by
  intro es s hw hcfg hr h hn hc
  have step := fun (c : CmdId) (arg : Byte) (es : List Event) (s : State) (hw : Memory.wf s = true) (h : Tracked cb rb es s)
      (hc : s.cur = curOf (commandCalls es)) => atTransfers_command (t := t) (cfg := cfg) c arg exit hw h hc
  have hcur : ∀ (c : CmdId) (arg : Byte) (s : State), Memory.wf s = true → (walk t (command cfg c arg exit) s).cur = s.cur :=
    fun c arg s hw => by rw [walk_command _ _ _ _ _ _ hw]
  obtain ⟨a₁, b₁, c₁⟩ := step .line y es s hw h (by rw [hc, hn])
  have w₁ := walk_wf t (command cfg .line y exit) hw
  obtain ⟨a₂, b₂, c₂⟩ := step .colmsb (columnHigh x) _ _ w₁ b₁ (by rw [hcur _ _ _ hw, c₁, hn, h₁, hc])
  have w₂ := walk_wf t (command cfg .colmsb (columnHigh x) exit) w₁
  obtain ⟨a₃, b₃, c₃⟩ := step .collsb x _ _ w₂ b₂ (by rw [hcur _ _ _ w₁, hcur _ _ _ hw, c₂, c₁, hn, h₂, hc])
  refine ⟨?_, ?_, ?_, ?_, ?_⟩
  · rw [cursorSequence, List.append_assoc, List.append_assoc]
    exact a₁.append (a₂.append (a₃.append trivial))
  · rw [walk_cursor _ _ _ _ _ _ hw]
    exact hr
  · simpa [cursorSequence, seen_append, walk_append, seen, walk, Prim.events, Tracked, Prim.apply, State.latch] using b₃
  · rw [c₂, c₁, hn] at c₃
    simpa [cursorSequence, seen_append, seen, Prim.events] using c₃
  · simp [cursorSequence, walk_append, walk, Prim.apply, State.latch, h₃]

/-- A call of data words from the row buffer leaves both buffers tracked and is no command transfer. -/
theorem Tracked.rowCall {es : List Event} {s : State} {bytes : List Byte} (ok : Bool) (hw : Memory.wf s = true)
    (hv : s.rb.valid = bytes.map dataWord) (hne : bytes ≠ []) (h : Tracked cb rb es s) :
    Tracked cb rb (es ++ [.xfer s.rb.valid ok]) s ∧ commandCalls (es ++ [.xfer s.rb.valid ok]) = commandCalls es := by
  have hself := Buf.loaded_self s.rb (by have := (Memory.wf_iff s).1 hw; omega)
  have hd := dataWords_tag bytes
  have hn := dataWords_notCommand hne
  rw [← hv] at hd hn
  refine ⟨⟨?_, ?_⟩, ?_⟩
  · simp only [Buf.afterCalls_append, Buf.afterCalls, hn, h.1]
    simp
  · simp only [Buf.afterCalls_append, Buf.afterCalls, hd, if_true, ← h.2, hself]
  · simp only [commandCalls_append, commandCalls, hn]
    simp

/-- Transfers of a row that stands in the row buffer (R165, R166). -/
theorem Carries.rows {n : Nat} {bytes : List Byte} (hne : bytes ≠ []) (exit : List Prim) (m : Nat) :
    Carries t cb rb curOf cfg (fun b => b.valid = bytes.map dataWord) n n (List.replicate m (.xfer .rb exit)) := by
  induction m with
  | zero => exact Carries.nil
  | succ m ih =>
    intro es s hw hcfg hr h hn hc
    have hf := (Tracked.rowCall false hw hr hne h).1
    obtain ⟨ht, hcalls⟩ := Tracked.rowCall true hw hr hne h
    obtain ⟨a, b, c, d, e⟩ := ih (es ++ [.xfer s.rb.valid true]) (s.emit (.xfer s.rb.valid true)) hw hcfg hr ht
      (hcalls.trans hn) hc
    rw [List.replicate_succ]
    exact ⟨⟨⟨hf, by rw [hn]; exact hc⟩, a⟩, b, by simpa [seen, walk, State.buf] using c, by simpa [seen, State.buf] using d, e⟩

/-- A bulk data write (R152). -/
theorem Carries.wrdata {n : Nat} (bytes : List Byte) (exit : List Prim) :
    Carries t cb rb curOf cfg (fun _ => True) n n (wrdataSequence cfg bytes exit) := by
  have key : ∀ m (src : List Byte), Carries t cb rb curOf cfg (fun _ => True) n n (wrdataLoop cfg.w exit m src) := by
    intro m
    induction m with
    | zero => exact fun _ => Carries.nil
    | succ m ih =>
      intro src
      cases src with
      | nil => exact Carries.nil
      | cons b src =>
        intro es s hw hcfg _ h hn hc
        have hcap : s.rb.cap = cfg.w := hcfg ▸ ((Memory.wf_iff s).1 hw).2.1
        have hp : s.rb.reset.push dataTag (b :: src) = s.rb.loaded (((b :: src).take cfg.w).map dataWord) := by
          rw [Buf.reset_push_take, hcap, map_dataWord]
        have hne : (b :: src).take cfg.w ≠ [] := by simp [Cfg.w]
        have hd := dataWords_tag ((b :: src).take cfg.w)
        have hnc := dataWords_notCommand hne
        let s₁ : State := { s with rb := s.rb.loaded (((b :: src).take cfg.w).map dataWord) }
        have hw₁ : Memory.wf s₁ = true := by
          have := walk_wf t [.prim (.reset .rb), .prim (.push .rb dataTag (b :: src))] hw
          simpa only [walk, Prim.apply, State.buf, State.setBuf, hp] using this
        have ht : ∀ ok, Tracked cb rb (es ++ [.xfer s₁.rb.valid ok]) s₁ := by
          intro ok
          simp only [s₁, Buf.loaded_valid]
          refine ⟨?_, ?_⟩
          · simp only [Buf.afterCalls_append, Buf.afterCalls, hnc, h.1]
            simp
          · simp only [Buf.afterCalls_append, Buf.afterCalls, hd, if_true, h.2]
        have hcalls : commandCalls (es ++ [.xfer s₁.rb.valid true]) = n := by
          simp only [s₁, Buf.loaded_valid, commandCalls_append, commandCalls, hnc, hn]
          simp
        obtain ⟨a', b', c', d', e'⟩ := ih ((b :: src).drop cfg.w) (es ++ [.xfer s₁.rb.valid true])
          (s₁.emit (.xfer s₁.rb.valid true)) hw₁ hcfg trivial (ht true) hcalls hc
        have hstep : ∀ items, walk t (.prim (.reset .rb) :: .prim (.push .rb dataTag (b :: src)) :: items) s
            = walk t items s₁ := by
          intro items
          simp only [walk, Prim.apply, State.buf, State.setBuf, hp, s₁]
        have hseen : ∀ items, seen t (.prim (.reset .rb) :: .prim (.push .rb dataTag (b :: src)) :: items) s
            = seen t items s₁ := by
          intro items
          simp only [seen, Prim.apply, State.buf, State.setBuf, hp, s₁, Prim.events, List.nil_append]
        rw [wrdataLoop, hstep, hseen]
        refine ⟨?_, trivial, by simpa [seen, walk, State.buf] using c', by simpa [seen, State.buf] using d', e'⟩
        simp only [AtTransfers, Prim.apply, Prim.events, List.append_nil, State.buf, State.setBuf, hp]
        exact ⟨⟨ht false, by rw [hn]; exact hc⟩, a'⟩
  exact key _ _

/-- A bracket of one or more bulk data writes (R182, R183). -/
theorem Carries.dataBracket {n : Nat} {exit : List Prim} {writes : List Prim → List Item}
    (h : Carries t cb rb curOf cfg row n n (writes (closing exit))) :
    Carries t cb rb curOf cfg row n n (dataBracket exit writes) :=
  (Carries.sel .active).append (h.append (Carries.sel .inactive))

/-- The glyphs of a text in their bracket (R183). -/
theorem Carries.glyphs {n : Nat} (text : List Byte) (exit : List Prim) :
    Carries t cb rb curOf cfg (fun _ => True) n n (glyphsSequence cfg text exit) :=
  Carries.dataBracket (writes := fun e => text.flatMap fun c => wrdataSequence cfg (cfg.glyph c) e) <| by
    simpa using Carries.flatMap (t := t) (cb := cb) (rb := rb) (curOf := curOf) (cfg := cfg) (row := fun _ => True)
      (n := n) (d := 0) (f := fun c => wrdataSequence cfg (cfg.glyph c) (closing exit)) text fun j c _ => by
        simpa using Carries.wrdata (t := t) (cb := cb) (rb := rb) (curOf := curOf) (cfg := cfg) (n := n) (cfg.glyph c)
          (closing exit)

/-- One line of a line-range clear (R166). -/
theorem Carries.clearLine {n : Nat} (line : Byte) (exit : List Prim) (h₁ : curOf (n + 1) = curOf n)
    (h₂ : curOf (n + 2) = curOf n) (h₃ : curOf (n + 3) = some ⟨line, 0⟩) :
    Carries t cb rb curOf cfg (fun b => b.valid = (blanks cfg cfg.w).map dataWord) n (n + 3)
      (clearLineSequence cfg exit line) :=
  (Carries.cursor 0 line exit h₁ h₂ h₃).append
    ((Carries.sel .active).append
      ((Carries.rows (by simp [blanks, Cfg.w]) (closing exit) 1).append (Carries.sel .inactive)))

/-- Commands one after the other, as in bring-up (R202): none of them moves the cursor. -/
theorem Carries.commands {n : Nat} {cur : Option CursorPos} (cs : List (CmdId × Byte)) (exit : List Prim) :
    Carries t cb rb (fun _ => cur) cfg row n (n + cs.length) (commandList cfg cs exit) := by
  have := Carries.flatMap (t := t) (cb := cb) (rb := rb) (curOf := fun _ => cur) (cfg := cfg) (row := row) (n := n) (d := 1)
    (f := fun c : CmdId × Byte => command cfg c.1 c.2 exit) cs fun j c _ => by
      intro es s hw _ hr h hn hc
      obtain ⟨a₁, b₁, c₁⟩ := atTransfers_command (t := t) (curOf := fun _ => cur) (cfg := cfg) c.1 c.2 exit hw h hc
      refine ⟨a₁, ?_, b₁, by omega, ?_⟩ <;> rw [walk_command _ _ _ _ _ _ hw]
      · exact hr
      · exact hc
  simpa [commandList] using this

/-! ### The bodies of the host operations -/

/-- `CUR` after `m` command transfers of an operation that addresses these positions. -/
def cursorOf (ps : List CursorPos) (cur : Option CursorPos) (m : Nat) : Option CursorPos :=
  (ps.take (m / 3)).foldl (fun _ p => some p) cur

theorem HostOp.curAfter_eq (op : HostOp) (policy : Policy) (cur : Option CursorPos) (es : List Event) :
    op.curAfter policy cur es = cursorOf (op.cursors policy) cur (commandCalls es) := rfl

theorem cursorOf_one (ps : List CursorPos) (cur : Option CursorPos) (j : Nat) :
    cursorOf ps cur (3 * j + 1) = cursorOf ps cur (3 * j) := by
  rw [cursorOf, cursorOf, show (3 * j + 1) / 3 = 3 * j / 3 by omega]

theorem cursorOf_two (ps : List CursorPos) (cur : Option CursorPos) (j : Nat) :
    cursorOf ps cur (3 * j + 2) = cursorOf ps cur (3 * j) := by
  rw [cursorOf, cursorOf, show (3 * j + 2) / 3 = 3 * j / 3 by omega]

theorem cursorOf_three {ps : List CursorPos} {j : Nat} {p : CursorPos} (cur : Option CursorPos) (h : ps[j]? = some p) :
    cursorOf ps cur (3 * j + 3) = some p := by
  rw [cursorOf, show (3 * j + 3) / 3 = j + 1 by omega, List.take_add_one, h]
  simp

/-- The `j`-th cursor sequence of an operation. -/
theorem Carries.nthCursor {ps : List CursorPos} {cur : Option CursorPos} {j : Nat} {x y : Byte} (exit : List Prim)
    (h : ps[j]? = some ⟨y, x⟩) :
    Carries t cb rb (cursorOf ps cur) cfg row (3 * j) (3 * j + 3) (cursorSequence cfg x y exit) :=
  Carries.cursor x y exit (cursorOf_one ..) (cursorOf_two ..) (cursorOf_three _ h)

/-- The `j`-th line of a line-range clear. -/
theorem Carries.nthLine {ps : List CursorPos} {cur : Option CursorPos} {j : Nat} {line : Byte} (exit : List Prim)
    (h : ps[j]? = some ⟨line, 0⟩) :
    Carries t cb rb (cursorOf ps cur) cfg (fun b => b.valid = (blanks cfg cfg.w).map dataWord) (3 * j) (3 * j + 3)
      (clearLineSequence cfg exit line) :=
  Carries.clearLine line exit (cursorOf_one ..) (cursorOf_two ..) (cursorOf_three _ h)

/-- A sequence that starts by filling the row buffer is carried from the blank row on (R154, R165, R166). -/
theorem Carries.afterFill {n n' : Nat} {items : List Item} {s : State}
    (h : Carries t s.cb (s.rb.loaded (blankRow cfg)) curOf cfg (fun b => b.valid = (blanks cfg cfg.w).map dataWord) n n' items)
    (hw : Memory.wf s = true) (hcfg : s.cfg = cfg) (hn : n = 0) (hc : s.cur = curOf 0) :
    AtTransfers t s.cb (s.rb.loaded (blankRow cfg)) curOf [] (fillrowSequence cfg ++ items) s
      ∧ Tracked s.cb (s.rb.loaded (blankRow cfg)) (seen t (fillrowSequence cfg ++ items) s)
          (walk t (fillrowSequence cfg ++ items) s)
      ∧ commandCalls (seen t (fillrowSequence cfg ++ items) s) = n'
      ∧ (walk t (fillrowSequence cfg ++ items) s).cur = curOf n' := by
  subst hn
  have hcap : s.rb.cap = cfg.w := hcfg ▸ ((Memory.wf_iff s).1 hw).2.1
  have hw₁ := walk_wf t (fillrowSequence cfg) hw
  have hwalk := walk_fillrow t cfg s hcap
  have hseen : seen t (fillrowSequence cfg) s = [] := by simp [fillrowSequence, seen, Prim.events]
  rw [hwalk] at hw₁
  obtain ⟨a, -, b, c, d⟩ := h [] _ hw₁ hcfg (by simp [blankRow_eq]) ⟨rfl, rfl⟩ rfl hc
  rw [List.nil_append] at b c
  refine ⟨AtTransfers.append ?_ ?_, ?_, ?_, ?_⟩
  · exact trivial
  · rw [hwalk, hseen]
    exact a
  · rw [seen_append, walk_append, hseen, hwalk]
    exact b
  · rw [seen_append, hseen, hwalk]
    exact c
  · rw [walk_append, hwalk]
    exact d

/-- What the provers cite of a body (R194 to R198, R225): the micro-operation runs it, the host operation wraps it, each of
its transfers fails into the exit path, its events are those the rules state, and at each transfer the buffers and the
cursor are as R225 says. -/
structure IsBody (s : State) (op : HostOp) (i : Instr) (body : List Prim → List Item) : Prop where
  micro : exec i s = execMicro (body []) s
  host : hostOpSequence s.cfg s.policy op = hostSequence body
  fails : ∀ exit, failsInto exit false (body exit) = some false
  events : ∀ t exit (s' : State), s'.cfg = s.cfg → Memory.wf s' = true →
    seen t (body exit) s' = op.bodyEvents s.cfg s.policy
  tracked : ∀ t exit (s' : State), s'.cfg = s.cfg → Memory.wf s' = true →
    AtTransfers t s'.cb (op.rowBefore s.cfg s.policy s'.rb) (cursorOf (op.cursors s.policy) s'.cur) [] (body exit) s'

/-- Every host operation but OP.INIT and OP.CTL has a body. -/
theorem body_of_hostOp {s : State} {op : HostOp} {i : Instr} (h : op.body? = some i) : ∃ body, IsBody s op i body := by
  have hcap : ∀ s' : State, s'.cfg = s.cfg → Memory.wf s' = true → s'.rb.cap = s.cfg.w := fun s' hc hw =>
    hc ▸ ((Memory.wf_iff s').1 hw).2.1
  cases op <;> simp only [HostOp.body?, Option.some.injEq, reduceCtorEq] at h <;> subst h
  case setCursor x y =>
    exact ⟨cursorSequence s.cfg x y, rfl, rfl, fun _ => failsInto_cursor ..,
      fun t exit s' _ hw => seen_of_walk (by rw [walk_cursor _ _ _ _ _ _ hw]; rfl),
      fun t exit s' hc hw => (Carries.nthCursor (row := fun _ => True) (j := 0) exit rfl [] s' hw hc trivial ⟨rfl, rfl⟩
        rfl rfl).1⟩
  case write bytes =>
    exact ⟨wrdataSequence s.cfg bytes, rfl, rfl, fun _ => failsInto_wrdata ..,
      fun t exit s' hc hw => seen_of_walk (by rw [walk_wrdata _ _ _ _ _ (hcap _ hc hw)]; rfl),
      fun t exit s' hc hw => (Carries.wrdata bytes exit (n := 0) [] s' hw hc trivial ⟨rfl, rfl⟩ rfl rfl).1⟩
  case clearAll =>
    refine ⟨clearallSequence s.cfg, rfl, rfl, fun _ => failsInto_clearall ..,
      fun t exit s' hc hw => seen_of_walk (by rw [walk_clearall _ _ _ _ hw hc]; rfl), fun t exit s' hc hw => ?_⟩
    have := Carries.nthCursor (t := t) (cb := s'.cb) (rb := s'.rb.loaded (blankRow s.cfg)) (cfg := s.cfg)
      (row := fun b => b.valid = (blanks s.cfg s.cfg.w).map dataWord) (ps := [⟨0, 0⟩]) (cur := s'.cur) (j := 0)
      (x := 0) (y := 0) exit rfl
    have := this.append ((Carries.sel .active).append ((Carries.rows (by simp [blanks, Cfg.w]) (closing exit)
      s.cfg.nrows).append (Carries.sel .inactive)))
    simpa [clearallSequence, HostOp.rowBefore, HostOp.cursors] using (this.afterFill hw hc rfl rfl).1
  case clearLines first last =>
    refine ⟨clearlinesSequence s.cfg first last, rfl, rfl, fun _ => failsInto_clearlines ..,
      fun t exit s' hc hw => seen_of_walk (by rw [walk_clearlines _ _ _ _ _ _ hw hc]; rfl), fun t exit s' hc hw => ?_⟩
    have := Carries.flatMap (t := t) (cb := s'.cb) (rb := s'.rb.loaded (blankRow s.cfg)) (cfg := s.cfg) (n := 0) (d := 3)
      (curOf := cursorOf (HostOp.cursors s.policy (.clearLines first last)) s'.cur) (f := clearLineSequence s.cfg exit)
      (clearedLines first last) fun j line hj => by
        have := Carries.nthLine (t := t) (cb := s'.cb) (rb := s'.rb.loaded (blankRow s.cfg)) (cfg := s.cfg)
          (ps := HostOp.cursors s.policy (.clearLines first last)) (cur := s'.cur) (j := j) (line := line) exit
          (by simp [HostOp.cursors, hj])
        rwa [Nat.zero_add, Nat.zero_add, Nat.mul_add]
    exact (this.afterFill hw hc rfl rfl).1
  case drawText line col text =>
    refine ⟨drawtextSequence s.cfg s.policy line col text, rfl, rfl, fun _ => failsInto_drawtext ..,
      fun t exit s' hc hw => seen_of_walk (by rw [walk_drawtext _ _ _ _ _ _ _ _ hw hc]; rfl), fun t exit s' hc hw => ?_⟩
    have second : ∀ (cb rb : Buf) (ps : List CursorPos), ps[1]? = some ⟨line, col⟩ →
        Carries t cb rb (cursorOf ps s'.cur) s.cfg (fun _ => True) 3 6
          (cursorSequence s.cfg col line exit ++ glyphsSequence s.cfg text exit) := fun cb rb ps h =>
      (Carries.nthCursor (j := 1) exit h).append (Carries.glyphs text exit)
    have first : ∀ (cb rb : Buf) (x : Byte) (bytes : List Byte) (ps : List CursorPos), ps[0]? = some ⟨line, x⟩ →
        Carries t cb rb (cursorOf ps s'.cur) s.cfg (fun _ => True) 0 3
          (cursorSequence s.cfg x line exit ++ dataBracket exit (wrdataSequence s.cfg bytes)) := fun cb rb x bytes ps h =>
      (Carries.nthCursor (j := 0) exit h).append (Carries.dataBracket (Carries.wrdata bytes _))
    rw [drawtextSequence, List.append_assoc]
    cases hp : s.policy with
    | none =>
      have := (Carries.nthCursor (t := t) (cb := s'.cb) (rb := s'.rb) (cfg := s.cfg) (row := fun _ => True)
        (ps := [⟨line, col⟩]) (cur := s'.cur) (j := 0) exit rfl).append (Carries.glyphs text exit)
      simpa [HostOp.rowBefore, HostOp.cursors, policySequence] using (this [] s' hw hc trivial ⟨rfl, rfl⟩ rfl rfl).1
    | clearLeft =>
      have := (first s'.cb s'.rb 0 (blanks s.cfg col.toNat) [⟨line, 0⟩, ⟨line, col⟩] rfl).append (second _ _ _ rfl)
      simpa [HostOp.rowBefore, HostOp.cursors, policySequence] using (this [] s' hw hc trivial ⟨rfl, rfl⟩ rfl rfl).1
    | clearRight =>
      have := (first s'.cb s'.rb col (blanks s.cfg (columnsRight s.cfg col)) [⟨line, col⟩, ⟨line, col⟩] rfl).append
        (second _ _ _ rfl)
      simpa [HostOp.rowBefore, HostOp.cursors, policySequence] using (this [] s' hw hc trivial ⟨rfl, rfl⟩ rfl rfl).1
    | clearBoth =>
      have hl : clearedLines line line = [line] := by simp [clearedLines, rangeEnd]
      have hline := Carries.nthLine (t := t) (cb := s'.cb) (rb := s'.rb.loaded (blankRow s.cfg)) (cfg := s.cfg)
        (ps := [⟨line, 0⟩, ⟨line, col⟩]) (cur := s'.cur) (j := 0) (line := line) exit rfl
      obtain ⟨a, b, c, d⟩ := hline.afterFill hw hc rfl rfl
      have hseq : policySequence s.cfg .clearBoth line col exit
          = fillrowSequence s.cfg ++ clearLineSequence s.cfg exit line := by
        simp [policySequence, clearlinesSequence, hl]
      rw [hseq]
      exact a.append (second _ _ _ rfl _ _ (walk_wf t _ hw) (by simpa using hc) trivial b c d).1

end Sys2Proof.Machine
end

