-- ==== Sys2Proof/Laws/PerInstr.lean ====
section
/-!
SUPPORT. The family EncodingRoundTrip: decoding what the encoder writes for a well-formed operation gives that operation,
under the most particular name that spec/30_encoding.md R88 gives it; one lemma per constructor.
-/

namespace Sys2Proof.Laws.EncodingRoundTrip

/-- The statement of the family about one operation. -/
def Statement (i : Instr) : Prop := i.wellFormed = true → decode (encode i) = .ok i.named

theorem opInit : Statement .opInit := by
  intro _
  simp [encode, plainRequest, decode, Instr.named]

theorem opSetcursor (x y : Byte) : Statement (.opSetcursor x y) := by
  intro _
  simp [encode, plainRequest, decode, Instr.named]

theorem opWrite (bytes : List Byte) : Statement (.opWrite bytes) := by
  intro h
  have h' : payloadFits _ = true := h
  simp [encode, decode, decodePayload, h', Instr.named]

theorem opClearall : Statement .opClearall := by
  intro _
  simp [encode, plainRequest, decode, Instr.named]

theorem opClearlines (first last : Byte) : Statement (.opClearlines first last) := by
  intro _
  simp [encode, plainRequest, decode, Instr.named]

theorem opDrawtext (line col : Byte) (text : List Byte) : Statement (.opDrawtext line col text) := by
  intro h
  have h' : payloadFits _ = true := h
  simp [encode, decode, decodePayload, h', Instr.named]

theorem opCtl (code arg : Byte) : Statement (.opCtl code arg) := by
  intro _
  simp [encode, plainRequest, decode, Instr.named]

theorem ctlContrast (v : Byte) : Statement (.ctlContrast v) := by
  intro _
  simp [encode, plainRequest, decode, Instr.named]

theorem ctlRefresh (v : Byte) : Statement (.ctlRefresh v) := by
  intro _
  simp [encode, plainRequest, decode, Instr.named]

theorem opClearline (n : Byte) : Statement (.opClearline n) := by
  intro _
  simp [encode, plainRequest, decode, Instr.named]

theorem bufErase (buf : BufId) : Statement (.bufErase buf) := by
  intro _
  simp [encode, plainRequest, decode, Instr.named, Except.map]

theorem bufReset (buf : BufId) : Statement (.bufReset buf) := by
  intro _
  simp [encode, plainRequest, decode, Instr.named, Except.map]

theorem bufPush (buf : BufId) (tag : Byte) (src : List Byte) : Statement (.bufPush buf tag src) := by
  intro h
  have h' : payloadFits _ = true := h
  simp [encode, decode, decodePayload, h', Instr.named, Except.bind]

theorem bufPop (buf : BufId) (n : Nat) : Statement (.bufPop buf n) := by
  intro h
  have h' : n < 256 := by simpa [Instr.wellFormed] using h
  simp [encode, plainRequest, decode, Instr.named, Except.map, Nat.mod_eq_of_lt h']

theorem sel (level : Level) : Statement (.sel level) := by
  intro _
  simp [encode, plainRequest, decode, Instr.named, Except.map]

theorem xfer (buf : BufId) : Statement (.xfer buf) := by
  intro _
  simp [encode, plainRequest, decode, Instr.named, Except.map]

theorem cmdSimple (c : CmdId) (arg : Byte) : Statement (.cmdSimple c arg) := by
  intro h
  have h' : c.shape = .cmd1 := by simpa [Instr.wellFormed] using h
  simp [encode, plainRequest, decode, decodeCommand, h', Instr.named]

theorem cmdCompound (c : CmdId) (arg : Byte) : Statement (.cmdCompound c arg) := by
  intro h
  have h' : c.shape = .cmd2 := by simpa [Instr.wellFormed] using h
  simp [encode, plainRequest, decode, decodeCommand, h', Instr.named]

theorem cursor (x y : Byte) : Statement (.cursor x y) := by
  intro _
  simp [encode, plainRequest, decode, Instr.named]

theorem wrdata (bytes : List Byte) : Statement (.wrdata bytes) := by
  intro h
  have h' : payloadFits _ = true := h
  simp [encode, decode, decodePayload, h', Instr.named]

theorem fillrow : Statement .fillrow := by
  intro _
  simp [encode, plainRequest, decode, Instr.named]

theorem clearallBody : Statement .clearallBody := by
  intro _
  simp [encode, plainRequest, decode, Instr.named]

theorem clearlinesBody (first last : Byte) : Statement (.clearlinesBody first last) := by
  intro _
  simp [encode, plainRequest, decode, Instr.named]

theorem drawtextBody (line col : Byte) (text : List Byte) : Statement (.drawtextBody line col text) := by
  intro h
  have h' : payloadFits _ = true := h
  simp [encode, decode, decodePayload, h', Instr.named]

theorem lockAcq : Statement .lockAcq := by
  intro _
  simp [encode, plainRequest, decode, Instr.named]

theorem lockRel : Statement .lockRel := by
  intro _
  simp [encode, plainRequest, decode, Instr.named]

theorem lcdReset (arg : Byte) : Statement (.lcdReset arg) := by
  intro _
  simp [encode, plainRequest, decode, decodeCommand, CmdId.ofCode, CmdId.shape, CmdId.named, Instr.named]

theorem lcdAllpts (arg : Byte) : Statement (.lcdAllpts arg) := by
  intro _
  simp [encode, plainRequest, decode, decodeCommand, CmdId.ofCode, CmdId.shape, CmdId.named, Instr.named]

theorem lcdPwrctl (arg : Byte) : Statement (.lcdPwrctl arg) := by
  intro _
  simp [encode, plainRequest, decode, decodeCommand, CmdId.ofCode, CmdId.shape, CmdId.named, Instr.named]

theorem lcdOnoff (arg : Byte) : Statement (.lcdOnoff arg) := by
  intro _
  simp [encode, plainRequest, decode, decodeCommand, CmdId.ofCode, CmdId.shape, CmdId.named, Instr.named]

theorem lcdComdir (arg : Byte) : Statement (.lcdComdir arg) := by
  intro _
  simp [encode, plainRequest, decode, decodeCommand, CmdId.ofCode, CmdId.shape, CmdId.named, Instr.named]

theorem lcdSegdir (arg : Byte) : Statement (.lcdSegdir arg) := by
  intro _
  simp [encode, plainRequest, decode, decodeCommand, CmdId.ofCode, CmdId.shape, CmdId.named, Instr.named]

theorem lcdEvol (arg : Byte) : Statement (.lcdEvol arg) := by
  intro _
  simp [encode, plainRequest, decode, decodeCommand, CmdId.ofCode, CmdId.shape, CmdId.named, Instr.named]

theorem lcdRefresh (arg : Byte) : Statement (.lcdRefresh arg) := by
  intro _
  simp [encode, plainRequest, decode, decodeCommand, CmdId.ofCode, CmdId.shape, CmdId.named, Instr.named]

theorem lcdChgpump (arg : Byte) : Statement (.lcdChgpump arg) := by
  intro _
  simp [encode, plainRequest, decode, decodeCommand, CmdId.ofCode, CmdId.shape, CmdId.named, Instr.named]

theorem lcdBias (arg : Byte) : Statement (.lcdBias arg) := by
  intro _
  simp [encode, plainRequest, decode, decodeCommand, CmdId.ofCode, CmdId.shape, CmdId.named, Instr.named]

theorem lcdVop (arg : Byte) : Statement (.lcdVop arg) := by
  intro _
  simp [encode, plainRequest, decode, decodeCommand, CmdId.ofCode, CmdId.shape, CmdId.named, Instr.named]

theorem lcdReverse (arg : Byte) : Statement (.lcdReverse arg) := by
  intro _
  simp [encode, plainRequest, decode, decodeCommand, CmdId.ofCode, CmdId.shape, CmdId.named, Instr.named]

theorem lcdLine (arg : Byte) : Statement (.lcdLine arg) := by
  intro _
  simp [encode, plainRequest, decode, decodeCommand, CmdId.ofCode, CmdId.shape, CmdId.named, Instr.named]

theorem lcdColmsb (arg : Byte) : Statement (.lcdColmsb arg) := by
  intro _
  simp [encode, plainRequest, decode, decodeCommand, CmdId.ofCode, CmdId.shape, CmdId.named, Instr.named]

theorem lcdCollsb (arg : Byte) : Statement (.lcdCollsb arg) := by
  intro _
  simp [encode, plainRequest, decode, decodeCommand, CmdId.ofCode, CmdId.shape, CmdId.named, Instr.named]

end Sys2Proof.Laws.EncodingRoundTrip
end

