-- ==== Sys2Proof/Tests/Slice0.lean ====
section
/-!
SUPPORT. The tests: ill-formed terms are refused, words of the spec's encoding tables decode, the vectors of
spec/95_test_vectors.md (configuration CfgS with the constants of CfgT) hold, and every obligation with hypotheses has a
state and operands that meet them. Expected values are the spec's; `0xBEEF` stands for the storage words it writes `U`.
-/

namespace Sys2Proof.Tests

open Sys2Proof Sys2Proof.Machine

/-! ### Well-formedness: one ill-formed term for each check -/

theorem test_wf_write : (Instr.opWrite (List.replicate 65536 0)).wellFormed = false
    ∧ (Instr.opWrite (List.replicate 65535 0)).wellFormed = true := by
  simp only [Instr.wellFormed, payloadFits, List.length_replicate]
  decide

theorem test_wf_drawtext : (Instr.opDrawtext 0 0 (List.replicate 65536 0)).wellFormed = false := by
  simp only [Instr.wellFormed, payloadFits, List.length_replicate]
  decide

theorem test_wf_push : (Instr.bufPush .cb 0 (List.replicate 65536 0)).wellFormed = false := by
  simp only [Instr.wellFormed, payloadFits, List.length_replicate]
  decide

theorem test_wf_wrdata : (Instr.wrdata (List.replicate 65536 0)).wellFormed = false := by
  simp only [Instr.wellFormed, payloadFits, List.length_replicate]
  decide

theorem test_wf_drawtext_body : (Instr.drawtextBody 0 0 (List.replicate 65536 0)).wellFormed = false := by
  simp only [Instr.wellFormed, payloadFits, List.length_replicate]
  decide

theorem test_wf_pop : (Instr.bufPop .cb 256).wellFormed = false ∧ (Instr.bufPop .cb 255).wellFormed = true := by decide

theorem test_wf_simple : (Instr.cmdSimple .vop 0).wellFormed = false ∧ (Instr.cmdSimple .evol 0).wellFormed = true := by
  decide

theorem test_wf_compound : (Instr.cmdCompound .evol 0).wellFormed = false
    ∧ (Instr.cmdCompound .vop 0).wellFormed = true := by decide

/-! ### Decoding: words written out from R84, R85 and R88, op[23:16] a[15:8] b[7:0] -/

/-- R84, the seven host operations. -/
theorem test_decode_host :
    decode ⟨0b00000001_00000000_00000000#24, []⟩ = .ok .opInit
    ∧ decode ⟨0b00000010_00100101_00000011#24, []⟩ = .ok (.opSetcursor 0x25 0x03)
    ∧ decode ⟨0b00000011_00000000_00000000#24, [7, 8]⟩ = .ok (.opWrite [7, 8])
    ∧ decode ⟨0b00000100_00000000_00000000#24, []⟩ = .ok .opClearall
    ∧ decode ⟨0b00000101_00000101_00000010#24, []⟩ = .ok (.opClearlines 5 2)
    ∧ decode ⟨0b00000110_00000001_00000010#24, [0x41]⟩ = .ok (.opDrawtext 1 2 [0x41])
    ∧ decode ⟨0b00000111_01111110_00000000#24, []⟩ = .ok (.opCtl 0x7E 0) := by decide

/-- R88, the pseudo-operations. -/
theorem test_decode_pseudo :
    decode ⟨0b00000111_00000000_00010000#24, []⟩ = .ok (.ctlContrast 16)
    ∧ decode ⟨0b00000111_00000001_00000011#24, []⟩ = .ok (.ctlRefresh 3)
    ∧ decode ⟨0b00000101_00000101_00000101#24, []⟩ = .ok (.opClearline 5) := by decide

/-- R85, buffer operations, chip-select and transfer. -/
theorem test_decode_buffers :
    decode ⟨0b10000000_00000001_00000000#24, []⟩ = .ok (.bufErase .rb)
    ∧ decode ⟨0b10000001_00000000_00000000#24, []⟩ = .ok (.bufReset .cb)
    ∧ decode ⟨0b10000010_00000001_10000001#24, [0x41]⟩ = .ok (.bufPush .rb 0x81 [0x41])
    ∧ decode ⟨0b10000011_00000000_11111111#24, []⟩ = .ok (.bufPop .cb 255)
    ∧ decode ⟨0b10000100_00000001_00000000#24, []⟩ = .ok (.sel .active)
    ∧ decode ⟨0b10000101_00000000_00000000#24, []⟩ = .ok (.xfer .cb) := by decide

/-- R85, sequences and the lock. -/
theorem test_decode_sequences :
    decode ⟨0b10001000_00100101_00000011#24, []⟩ = .ok (.cursor 0x25 0x03)
    ∧ decode ⟨0b10001001_00000000_00000000#24, [9]⟩ = .ok (.wrdata [9])
    ∧ decode ⟨0b10001010_00000000_00000000#24, []⟩ = .ok .fillrow
    ∧ decode ⟨0b10001011_00000000_00000000#24, []⟩ = .ok .clearallBody
    ∧ decode ⟨0b10001100_00000001_00000010#24, []⟩ = .ok (.clearlinesBody 1 2)
    ∧ decode ⟨0b10001101_00000001_00000010#24, [0x41]⟩ = .ok (.drawtextBody 1 2 [0x41])
    ∧ decode ⟨0b10001110_00000000_00000000#24, []⟩ = .ok .lockAcq
    ∧ decode ⟨0b10001111_00000000_00000000#24, []⟩ = .ok .lockRel := by decide

/-- R88, the named commands of shape CMD1 (op 0x86); they are what CMD.SIMPLE decodes to. -/
theorem test_decode_simple :
    decode ⟨0b10000110_00000000_11111111#24, []⟩ = .ok (.lcdReset 0xFF)
    ∧ decode ⟨0b10000110_00000001_00000001#24, []⟩ = .ok (.lcdAllpts 1)
    ∧ decode ⟨0b10000110_00000010_00000111#24, []⟩ = .ok (.lcdPwrctl 7)
    ∧ decode ⟨0b10000110_00000011_00000001#24, []⟩ = .ok (.lcdOnoff 1)
    ∧ decode ⟨0b10000110_00000100_00001000#24, []⟩ = .ok (.lcdComdir 8)
    ∧ decode ⟨0b10000110_00000101_00000001#24, []⟩ = .ok (.lcdSegdir 1)
    ∧ decode ⟨0b10000110_00000110_00010000#24, []⟩ = .ok (.lcdEvol 16)
    ∧ decode ⟨0b10000110_00001001_00000110#24, []⟩ = .ok (.lcdBias 6)
    ∧ decode ⟨0b10000110_00001011_00000001#24, []⟩ = .ok (.lcdReverse 1)
    ∧ decode ⟨0b10000110_00001100_00010011#24, []⟩ = .ok (.lcdLine 0x13)
    ∧ decode ⟨0b10000110_00001101_00000010#24, []⟩ = .ok (.lcdColmsb 2)
    ∧ decode ⟨0b10000110_00001110_00000101#24, []⟩ = .ok (.lcdCollsb 5) := by decide

/-- R88, the named commands of shape CMD2 (op 0x87); they are what CMD.COMPOUND decodes to. -/
theorem test_decode_compound :
    decode ⟨0b10000111_00000111_00000011#24, []⟩ = .ok (.lcdRefresh 3)
    ∧ decode ⟨0b10000111_00001000_00000001#24, []⟩ = .ok (.lcdChgpump 1)
    ∧ decode ⟨0b10000111_00001010_10101011#24, []⟩ = .ok (.lcdVop 0xAB) := by decide

/-- The command micro-operations encode as R85 says: op, cmdId, arg. -/
theorem test_encode_commands :
    encode (.cmdSimple .evol 16) = ⟨0b10000110_00000110_00010000#24, []⟩
    ∧ encode (.cmdCompound .vop 0xAB) = ⟨0b10000111_00001010_10101011#24, []⟩ := by decide

/-- V46: what a requester may not send. -/
theorem test_requester_refused :
    [0x000000#24, 0x080000#24, 0x7F0000#24].map (fun h => requestedOp ⟨h, []⟩) = [none, none, none]
    ∧ [0x900000#24, 0xFF1234#24, 0x820100#24].map (fun h => requestedOp ⟨h, []⟩) = [none, none, none] := by decide

/-- R86 (c), (e): operands no operation has. -/
theorem test_operands_refused :
    decode ⟨0x8002FF#24, []⟩ = .error .badBuffer ∧ decode ⟨0x840200#24, []⟩ = .error .badLevel
    ∧ decode ⟨0x860F00#24, []⟩ = .error .badCommandId ∧ decode ⟨0x860A00#24, []⟩ = .error .wrongShape
    ∧ decode ⟨0x870600#24, []⟩ = .error .wrongShape := by decide

/-! ### The machine of the vectors: CfgS, constants of CfgT -/

def constants : CmdTable where
  reset   := ⟨0xE2, 0x00⟩
  allpts  := ⟨0xA4, 0x01⟩
  pwrctl  := ⟨0x28, 0x07⟩
  onoff   := ⟨0xAE, 0x01⟩
  comdir  := ⟨0xC0, 0x08⟩
  segdir  := ⟨0xA0, 0x01⟩
  evol    := ⟨0x80, 0x1F⟩
  refresh := ⟨0xEF, 0x03⟩
  chgpump := ⟨0x3D, 0x03⟩
  bias    := ⟨0x30, 0x07⟩
  vop     := ⟨0xE1, 0xFF⟩
  reverse := ⟨0xA6, 0x01⟩
  line    := ⟨0xB0, 0x0F⟩
  colmsb  := ⟨0x10, 0x07⟩
  collsb  := ⟨0x00, 0x0F⟩

/-- `Glyph(c) = [c, c + 1, c + 2]` for the codes the vectors draw. -/
def glyphOf (c : Byte) : GlyphEntry 3 := ⟨c, #v[c, c + 1, c + 2]⟩

def config (policy : Policy) : Cfg where
  wLess1      := 3
  nrows       := 2
  nlines      := 2
  blank       := 0
  gw          := 3
  glyphOffset := 0x20
  glyphs      := [glyphOf 0x41, glyphOf 0x42, glyphOf 0x48]
  glyphElse   := #v[0, 0, 0]
  cmd         := constants
  initArg     := InitArgs.defaults constants 16 3 1 6 0
  ctl         := defaultCtl
  policy0     := policy
  nreqLess1   := 1

/-- From reset, with the answers of the transport given beforehand. -/
def start (policy : Policy) (answers : List Bool) : State :=
  { State.resetWith (config policy) (fun _ _ => 0xBEEF) with env := ⟨answers, false, [], [], 0⟩ }

/-- From reset, with a transport whose next `n` answers are success. -/
def good (n : Nat) : State := start .none (List.replicate n true)

/-- What holds of the next state, if there is one. -/
def after (o : Host.Outcome State Fault Refusal) (f : State → Bool) : Bool :=
  match o with
  | .next s => f s
  | .fault _ => false
  | .refused _ => false

/-- `B[w, ...]` of the vectors. -/
def br (ws : List Word) : List Event := [.sel .active, .xfer ws true, .sel .inactive]

/-- `B[x]`, `B[y]`, `B[z]`. -/
def br3 (x y z : Word) : List Event := br [x] ++ br [y] ++ br [z]

/-- A row of four blank words. -/
def row : List Word := [0x0100, 0x0100, 0x0100, 0x0100]

/-! ### Buffer operations: V1 to V12 -/

/-- V1. -/
theorem test_push_truncates : after (exec (.bufPush .cb 0 [0xA1, 0xB2, 0xC3, 0xD4, 0xE5, 0xF6]) (good 0)) (fun s =>
    s.cb == ⟨4, [0x00A1, 0x00B2, 0x00C3, 0x00D4]⟩ && s.result == .count 4) = true := by decide

/-- V7. -/
theorem test_push_after_reset :
    after (exec (.bufPush .cb 1 [0x41, 0x42]) { good 0 with cb := ⟨0, [0x00A1, 0x00B2, 0x00C3, 0x0141]⟩ }) (fun s =>
      s.cb == ⟨2, [0x0141, 0x0142, 0x00C3, 0x0141]⟩ && s.result == .count 2) = true := by decide

/-- V3. -/
theorem test_pop_one :
    after (exec (.bufPop .cb 1) { good 0 with cb := ⟨4, [0x00A1, 0x00B2, 0x00C3, 0x00D4]⟩ }) (fun s =>
      s.cb == ⟨3, [0x00A1, 0x00B2, 0x00C3, 0x0000]⟩ && s.result == .count 1) = true := by decide

/-- V8. -/
theorem test_pop_more_than_valid :
    after (exec (.bufPop .cb 5) { good 0 with cb := ⟨2, [0x0141, 0x0142, 0x00C3, 0x0141]⟩ }) (fun s =>
      s.cb == ⟨0, [0x0000, 0x0000, 0x00C3, 0x0141]⟩ && s.result == .count 2) = true := by decide

/-- V5. -/
theorem test_reset_keeps_storage :
    after (exec (.bufReset .cb) { good 0 with cb := ⟨4, [0x00A1, 0x00B2, 0x00C3, 0x0141]⟩ }) (fun s =>
      s.cb == ⟨0, [0x00A1, 0x00B2, 0x00C3, 0x0141]⟩) = true := by decide

/-- V9. -/
theorem test_erase_all :
    after (exec (.bufErase .cb) { good 0 with cb := ⟨2, [0x00EF, 0x0003, 0x1234, 0xFFFF]⟩ }) (fun s =>
      s.cb == ⟨0, [0, 0, 0, 0]⟩) = true := by decide

/-- V13. -/
theorem test_frames : [0x0090, 0x00EF, 0x0141, 0x0100, 0x02FF, 0xFF00, 0x037E].map frameOf
      = [0x090, 0x0EF, 0x141, 0x100, 0x0FF, 0x100, 0x17E]
    ∧ [0x0090, 0x0141, 0x02FF, 0xFF00].map (fun w => Frame.isData (frameOf w)) = [false, true, false, true] := by decide

/-! ### Chip-select and transfer: R120, R121 -/

theorem test_sel : after (exec (.sel .active) (good 0)) (fun s => s.cs == .active && s.trace == [.sel .active]) = true := by
  decide

theorem test_xfer_valid_only :
    after (exec (.xfer .cb) { good 1 with cb := ⟨1, [0x0090, 0x0003, 0, 0]⟩ }) (fun s =>
      s.trace == [.xfer [0x0090] true] && s.result == .answer true && s.cs == .inactive) = true := by decide

theorem test_xfer_failure :
    after (exec (.xfer .rb) { start .none [false] with rb := ⟨2, [0x0101, 0x0102, 0, 0]⟩ }) (fun s =>
      s.trace == [.xfer [0x0101, 0x0102] false] && s.result == .answer false && s.rb.len == 2) = true := by decide

/-! ### Commands: V14 to V18 -/

/-- What a command sends, and what it leaves in the command buffer. -/
def sends (i : Instr) (ws : List Word) : Bool :=
  after (exec i (good 1)) fun s => s.trace == br ws && s.cb.st.take ws.length == ws && s.cb.len == ws.length

theorem test_lcd_reset : sends (.lcdReset 0xFF) [0x00E2] = true := by decide

theorem test_lcd_allpts : sends (.lcdAllpts 1) [0x00A5] = true := by decide

theorem test_lcd_pwrctl : sends (.lcdPwrctl 7) [0x002F] = true := by decide

theorem test_lcd_onoff : sends (.lcdOnoff 1) [0x00AF] = true := by decide

theorem test_lcd_comdir : sends (.lcdComdir 1) [0x00C0] && sends (.lcdComdir 0xFF) [0x00C8] = true := by decide

theorem test_lcd_segdir : sends (.lcdSegdir 1) [0x00A1] = true := by decide

theorem test_lcd_evol : sends (.lcdEvol 31) [0x009F] && sends (.lcdEvol 32) [0x0080] = true := by decide

theorem test_lcd_refresh : sends (.lcdRefresh 7) [0x00EF, 0x0003] = true := by decide

theorem test_lcd_chgpump : sends (.lcdChgpump 0xFE) [0x003D, 0x0002] = true := by decide

theorem test_lcd_bias : sends (.lcdBias 0xFF) [0x0037] = true := by decide

theorem test_lcd_vop : sends (.lcdVop 0xAB) [0x00E1, 0x00AB] = true := by decide

theorem test_lcd_reverse : sends (.lcdReverse 1) [0x00A7] = true := by decide

theorem test_lcd_line : sends (.lcdLine 0x13) [0x00B3] = true := by decide

theorem test_lcd_colmsb : sends (.lcdColmsb 2) [0x0012] = true := by decide

theorem test_lcd_collsb : sends (.lcdCollsb 5) [0x0005] = true := by decide

/-- V16. -/
theorem test_stale_word :
    after (exec (.cmdSimple .evol 16) { good 1 with cb := ⟨2, [0x00EF, 0x0003, 0xBEEF, 0xBEEF]⟩ }) (fun s =>
      s.trace == br [0x0090] && s.cb == ⟨1, [0x0090, 0x0003, 0xBEEF, 0xBEEF]⟩) = true := by decide

/-- V17. -/
theorem test_simple_fails :
    after (exec (.cmdSimple .evol 16) (start .none [false])) (fun s =>
      s.trace == [.sel .active, .xfer [0x0090] false, .sel .inactive] && s.result == .failed && s.cs == .inactive)
      = true := by decide

/-- V18. -/
theorem test_compound_fails :
    after (exec (.cmdCompound .vop 0xAB) (start .none [false])) (fun s =>
      s.trace == [.sel .active, .xfer [0x00E1, 0x00AB] false, .sel .inactive] && s.result == .failed) = true := by decide

/-! ### Cursor, data, clears: V19 to V34 -/

/-- V19. -/
theorem test_cursor : after (exec (.cursor 0xFF 0xFF) (good 3)) (fun s =>
    s.trace == br3 0x00BF 0x0017 0x000F && s.cur == some ⟨255, 255⟩) = true := by decide

/-- V20. -/
theorem test_cursor_fails : after (exec (.cursor 0x25 3) (start .none [true, false])) (fun s =>
    s.trace == br [0x00B3] ++ [.sel .active, .xfer [0x0012] false, .sel .inactive] && s.cur == none
      && s.cb == ⟨1, [0x0012, 0xBEEF, 0xBEEF, 0xBEEF]⟩ && s.result == .failed) = true := by decide

/-- V22. -/
theorem test_wrdata_empty : after (exec (.wrdata []) (good 0)) (fun s =>
    s.trace == [] && s.rb == ⟨0, [0xBEEF, 0xBEEF, 0xBEEF, 0xBEEF]⟩) = true := by decide

/-- V24. -/
theorem test_wrdata_two_chunks : after (exec (.wrdata [1, 2, 3, 4, 5, 6]) (good 2)) (fun s =>
    s.trace == [.xfer [0x0101, 0x0102, 0x0103, 0x0104] true, .xfer [0x0105, 0x0106] true]
      && s.rb == ⟨2, [0x0105, 0x0106, 0x0103, 0x0104]⟩) = true := by decide

/-- V28. -/
theorem test_fillrow : after (exec .fillrow (good 0)) (fun s => s.trace == [] && s.rb == ⟨4, row⟩) = true := by decide

/-- V32. -/
theorem test_clearall_body_fails : after (exec .clearallBody (start .none [true, true, true, true, false])) (fun s =>
    s.trace == br3 0x00B0 0x0010 0x0000 ++ [.sel .active, .xfer row true, .xfer row false, .sel .inactive]
      && s.result == .failed && s.rb == ⟨4, row⟩ && s.cur == some ⟨0, 0⟩) = true := by decide

/-- V34. -/
theorem test_clearlines_body : after (exec (.clearlinesBody 0xFE 0xFF) (good 8)) (fun s =>
    s.trace == br3 0x00BE 0x0010 0x0000 ++ br row ++ br3 0x00BF 0x0010 0x0000 ++ br row && s.cur == some ⟨255, 0⟩)
      = true := by decide

/-! ### Host operations: V21, V27, V30 to V43, V47, V48 -/

/-- V21. -/
theorem test_op_setcursor : after (exec (.opSetcursor 0x25 3) (good 3)) (fun s =>
    s.trace == [.acq 0] ++ br3 0x00B3 0x0012 0x0005 ++ [.rel 0, .ret 0 .ok] && s.cur == some ⟨3, 0x25⟩
      && s.lock == .free) = true := by decide

/-- V27. -/
theorem test_op_write_fails : after (exec (.opWrite [1, 2, 3, 4, 5, 6]) (start .none [true, false])) (fun s =>
    s.trace == [.acq 0, .xfer [0x0101, 0x0102, 0x0103, 0x0104] true, .xfer [0x0105, 0x0106] false, .rel 0,
      .ret 0 .fail]) = true := by decide

/-- V33. -/
theorem test_op_clearall : after (exec .opClearall (good 5)) (fun s =>
    s.trace == [.acq 0] ++ br3 0x00B0 0x0010 0x0000 ++ [.sel .active, .xfer row true, .xfer row true, .sel .inactive,
      .rel 0, .ret 0 .ok]) = true := by decide

/-- V30. -/
theorem test_op_clearlines_backward : after (exec (.opClearlines 5 2) (good 4)) (fun s =>
    s.trace == [.acq 0] ++ br3 0x00B5 0x0010 0x0000 ++ br row ++ [.rel 0, .ret 0 .ok] && s.cur == some ⟨5, 0⟩)
      = true := by decide

/-- V31. -/
theorem test_op_clearlines_fails :
    after (exec (.opClearlines 0 2) (start .none (List.replicate 7 true ++ [false]))) (fun s =>
      s.trace == [.acq 0] ++ br3 0x00B0 0x0010 0x0000 ++ br row ++ br3 0x00B1 0x0010 0x0000
        ++ [.sel .active, .xfer row false, .sel .inactive, .rel 0, .ret 0 .fail] && s.cur == some ⟨1, 0⟩) = true := by
  decide

/-- V30, second part. -/
theorem test_op_clearline : after (exec (.opClearline 5) (good 4)) (fun s =>
    s.trace == [.acq 0] ++ br3 0x00B5 0x0010 0x0000 ++ br row ++ [.rel 0, .ret 0 .ok]) = true := by decide

/-- V36. -/
theorem test_drawtext_clear_left : after (exec (.opDrawtext 0 3 [0x48]) (start .clearLeft (List.replicate 8 true)))
    (fun s => s.trace == [.acq 0] ++ br3 0x00B0 0x0010 0x0000 ++ br [0x0100, 0x0100, 0x0100]
      ++ br3 0x00B0 0x0010 0x0003 ++ br [0x0148, 0x0149, 0x014A] ++ [.rel 0, .ret 0 .ok]
      && s.rb == ⟨3, [0x0148, 0x0149, 0x014A, 0xBEEF]⟩) = true := by decide

/-- V40. -/
theorem test_drawtext_clear_both : after (exec (.drawtextBody 1 0 [0x48]) (start .clearBoth (List.replicate 8 true)))
    (fun s => s.trace == br3 0x00B1 0x0010 0x0000 ++ br row ++ br3 0x00B1 0x0010 0x0000 ++ br [0x0148, 0x0149, 0x014A]
      && s.rb == ⟨3, [0x0148, 0x0149, 0x014A, 0x0100]⟩) = true := by decide

/-- V42. -/
theorem test_drawtext_fails :
    after (exec (.opDrawtext 0 0 [0x41, 0x42]) (start .none [true, true, true, true, false])) (fun s =>
      s.trace == [.acq 0] ++ br3 0x00B0 0x0010 0x0000 ++ [.sel .active, .xfer [0x0141, 0x0142, 0x0143] true,
        .xfer [0x0142, 0x0143, 0x0144] false, .sel .inactive, .rel 0, .ret 0 .fail] && s.cs == .inactive) = true := by
  decide

/-- V43: NOT_FOUND. -/
theorem test_ctl_not_found : after (exec (.opCtl 0x7E 0xFF) (good 0)) (fun s =>
    s.trace == [.acq 0, .rel 0, .ret 0 .notFound]) = true := by decide

/-- V43: the largest argument, and the one above it. -/
theorem test_ctl_contrast : after (exec (.ctlContrast 16) (good 1)) (fun s =>
    s.trace == [.acq 0] ++ br [0x0090] ++ [.rel 0, .ret 0 .ok])
    && after (exec (.ctlContrast 32) (good 0)) (fun s => s.trace == [.acq 0, .rel 0, .ret 0 .argRange]) = true := by
  decide

theorem test_ctl_refresh : after (exec (.ctlRefresh 3) (good 1)) (fun s =>
    s.trace == [.acq 0] ++ br [0x00EF, 0x0003] ++ [.rel 0, .ret 0 .ok])
    && after (exec (.ctlRefresh 4) (good 0)) (fun s => s.trace == [.acq 0, .rel 0, .ret 0 .argRange]) = true := by
  decide

/-- V47. -/
theorem test_init_fails_at_a_command : after (exec .opInit (start .none [true, true, false])) (fun s =>
    s.trace == [.acq 0] ++ br [0x00E2] ++ br [0x00A4] ++ [.sel .active, .xfer [0x002F] false, .sel .inactive, .rel 0,
      .ret 0 .fail]) = true := by decide

/-- V48. -/
theorem test_init_fails_in_the_clear :
    after (exec .opInit (start .none (List.replicate 10 true ++ [false]))) (fun s =>
      s.trace == [.acq 0] ++ br3 0x00E2 0x00A4 0x002F ++ br3 0x00AF 0x00C0 0x00A0 ++ br [0x0090] ++ [.rel 0, .acq 0]
        ++ br3 0x00B0 0x0010 0x0000 ++ [.sel .active, .xfer row false, .sel .inactive, .rel 0, .acq 0, .rel 0,
          .ret 0 .fail]) = true := by decide

/-- Program P6, undisturbed. -/
theorem test_init : after (exec .opInit (good 17)) (fun s =>
    s.trace == [.acq 0] ++ br3 0x00E2 0x00A4 0x002F ++ br3 0x00AF 0x00C0 0x00A0 ++ br [0x0090] ++ [.rel 0, .acq 0]
      ++ br3 0x00B0 0x0010 0x0000 ++ [.sel .active, .xfer row true, .xfer row true, .sel .inactive, .rel 0, .acq 0]
      ++ br [0x00EF, 0x0003] ++ br [0x003D, 0x0001] ++ br [0x0036] ++ br [0x00E1, 0x0000] ++ br [0x00A6]
      ++ [.rel 0, .ret 0 .ok]) = true := by decide

/-! ### The lock: V44, V45 -/

theorem test_lock_acq : after (exec .lockAcq (good 0)) (fun s => s.lock == .held 0 && s.trace == [.acq 0]) = true := by
  decide

theorem test_lock_not_reentrant : exec .lockAcq { good 0 with lock := .held 0 } = .fault .lockHeld := rfl

theorem test_lock_rel : after (exec .lockRel { good 0 with lock := .held 0 }) (fun s =>
    s.lock == .free && s.trace == [.rel 0]) = true := by decide

theorem test_lock_rel_refused : exec .lockRel (good 0) = .refused .notHolder := rfl

/-! ### Witnesses: for each obligation with hypotheses, a state and operands that meet all of them -/

/-- An environment with nothing left. -/
def spent : Env := ⟨[], false, [], [], 0⟩

/-- A transport that never answers. -/
def silent : Env := ⟨[], true, [], [], 0⟩

/-- `n` successes, then a failure. -/
def failing (n : Nat) : State := start .none (List.replicate n true ++ [false])

/-- What is left before the failure. -/
def aboutToFail : Env := ⟨[false], false, [], [], 0⟩

/-- Requester 0 with the lock inside a write, requester 1 waiting for it. -/
def busy : State :=
  { good 1 with
    lock := .held 0
    reqs := [⟨.running (.write [7]) 0 (hostOpSequence (config .none) .none (.write [7])), [], []⟩,
      ⟨.waiting (.setCursor 0 1) 0 (hostOpSequence (config .none) .none (.setCursor 0 1)), [], []⟩]
    trace := [.acq 0] }

/-- Two requesters waiting for a free lock. -/
def contended : State :=
  { good 0 with
    reqs := [⟨.waiting (.write [7]) 0 (hostOpSequence (config .none) .none (.write [7])), [], []⟩,
      ⟨.waiting (.setCursor 0 1) 0 (hostOpSequence (config .none) .none (.setCursor 0 1)), [], []⟩] }

/-- Bring-up at its first window, requester 1 waiting. -/
def atWindow : State :=
  { contended with
    lock := .held 0
    reqs := [⟨.running .init 35 (.prim .rel :: .prim .acq :: initLast (config .none) []), [], []⟩,
      ⟨.waiting (.setCursor 0 1) 0 (hostOpSequence (config .none) .none (.setCursor 0 1)), [], []⟩] }

theorem witness_DecodeOfEncodeGivesTheOperation :
    (Instr.bufPop .rb 255).wellFormed = true ∧ (Instr.cmdSimple .collsb 255).wellFormed = true
    ∧ (Instr.cmdCompound .vop 255).wellFormed = true ∧ (Instr.opWrite []).wellFormed = true := by decide

theorem witness_DecodedOperationsAreWellFormed :
    decode ⟨0x8301FF#24, []⟩ = .ok (.bufPop .rb 255) ∧ decode ⟨0x030000#24, [7]⟩ = .ok (.opWrite [7]) := by decide

theorem witness_ReservedRequestsAreRefused_codes :
    headerOp 0x00FFFF#24 = 0x00#8 ∧ 0x08 ≤ (headerOp 0x080000#24).toNat ∧ (headerOp 0x7F0000#24).toNat ≤ 0x7F
    ∧ 0x90 ≤ (headerOp 0x900000#24).toNat ∧ 0x90 ≤ (headerOp 0xFF0000#24).toNat := by decide

theorem witness_ReservedRequestsAreRefused_micro :
    (headerOp 0x800000#24).toNat = 0x80 ∧ (headerOp 0x8F0000#24).toNat = 0x8F := by decide

theorem witness_ReservedRequestsAreRefused_requester :
    ({ good 0 with reqs := [⟨.idle, [⟨0x820100#24, []⟩], []⟩, ⟨.done .init .ok, [], [⟨0x000000#24, []⟩]⟩] } : State).reqs[1]?
      = some ⟨.done .init .ok, [], [⟨0x000000#24, []⟩]⟩
    ∧ requestedOp ⟨0x820100#24, []⟩ = none ∧ requestedOp ⟨0x000000#24, []⟩ = none := by decide

theorem witness_ReservedRequestsAreRefused_port :
    ((good 0).withFetchWord 24 0xFF1234).port = some ⟨0xFF1234#24, []⟩
    ∧ decode ⟨0xFF1234#24, []⟩ = .error .undefinedOp := by decide

theorem witness_IllegalOperandsAreRefused :
    15 ≤ (15#8).toNat ∧ 15 ≤ (255#8).toNat ∧ CmdId.shape .vop = .cmd2 ∧ CmdId.shape .evol = .cmd1
    ∧ 2 ≤ (2#8).toNat ∧ 2 ≤ (255#8).toNat := by decide

theorem witness_StepRunsTheDecodedOperation_runs :
    ((good 0).withFetchWord 24 0x840100).port = some ⟨0x840100#24, []⟩ ∧ decode ⟨0x840100#24, []⟩ = .ok (.sel .active)
    ∧ exec (.sel .active) (good 0) ≠ .fault .lockHeld := ⟨by decide, by decide, fun h => by cases h⟩

theorem witness_StepRunsTheDecodedOperation_waits :
    (busy.withFetchWord 24 0x8E0000).port = some ⟨0x8E0000#24, []⟩ ∧ decode ⟨0x8E0000#24, []⟩ = .ok .lockAcq
    ∧ exec .lockAcq busy = .fault .lockHeld := ⟨by decide, by decide, rfl⟩

theorem witness_ZeroCapacityBufferIsInert : (Buf.mk 0 []).cap = 0 ∧ (Buf.mk 0 []).len = 0 := by decide

theorem witness_TransferSendsTheValidWords :
    (Memory.wf (failing 0) = true ∧ (failing 0).env.answer = some (false, spent))
    ∧ Memory.wf (good 1) = true ∧ (good 1).env.answer = some (true, spent)
    ∧ ({ good 0 with env := silent } : State).env.answer = none := by decide

theorem witness_SimpleCommandSendsOneWord :
    Memory.wf (good 1) = true ∧ CmdId.shape .collsb = .cmd1 ∧ (good 1).env.answer = some (true, spent)
    ∧ (failing 0).env.answer = some (false, spent)
    ∧ Instr.cmdSimple .collsb 255 ∈ [.cmdSimple .collsb 255, CmdId.named .collsb 255]
    ∧ Instr.lcdCollsb 255 ∈ [.cmdSimple .collsb 255, CmdId.named .collsb 255] := by decide

theorem witness_CompoundCommandSendsTwoWordsAtOnce :
    Memory.wf (good 1) = true ∧ CmdId.shape .vop = .cmd2 ∧ (good 1).env.answer = some (true, spent)
    ∧ Instr.cmdCompound .vop 255 ∈ [.cmdCompound .vop 255, CmdId.named .vop 255]
    ∧ Instr.lcdVop 255 ∈ [.cmdCompound .vop 255, CmdId.named .vop 255] := by decide

theorem witness_CursorSendsThreeCommands :
    Memory.wf (good 3) = true ∧ (good 3).env.afterSuccesses 3 = some spent := by decide

theorem witness_WriteStreamsChunks :
    Memory.wf (good 2) = true
    ∧ (good 2).env.afterSuccesses (chunks (good 2).cfg [1, 2, 3, 4, 5, 6]).length = some spent
    ∧ (good 0).env.afterSuccesses (chunks (good 0).cfg []).length = some spent := by decide

/-- Two chunks, and none. -/
theorem witness_WriteDropsNoByte :
    Memory.wf (good 2) = true ∧ (good 2).env.afterSuccesses ((6 + 4 - 1) / 4) = some spent
    ∧ (good 2).cfg.w = 4 ∧ Memory.wf (good 0) = true ∧ (good 0).env.afterSuccesses ((0 + 4 - 1) / 4) = some spent := by
  decide

theorem witness_FillRowBlanksTheRowBuffer : Memory.wf (good 0) = true := by decide

theorem witness_FullClearSendsEveryRow :
    Memory.wf (good 5) = true ∧ (good 5).env.afterSuccesses (3 + (good 5).cfg.nrows) = some spent := by decide

theorem witness_LineClearSendsEveryLine :
    Memory.wf (good 8) = true
    ∧ (good 8).env.afterSuccesses (4 * ((rangeEnd 0xFE 0xFF).toNat - (0xFE#8).toNat + 1)) = some spent
    ∧ (good 4).env.afterSuccesses (4 * ((rangeEnd 5 2).toNat - (5#8).toNat + 1)) = some spent := by decide

theorem witness_BackwardRangeClearsOneLine :
    (0#8).toNat < (1#8).toNat ∧ (254#8).toNat < (255#8).toNat := by decide

theorem witness_DrawTextSendsPolicyCursorGlyphs :
    Memory.wf (good 4) = true
    ∧ (good 4).env.afterSuccesses (transfersIn (drawtextEvents (good 4).cfg (good 4).policy 1 2 [0x41])) = some spent := by
  decide

/-- Each policy at `W = 4`, `GW = 3`: one glyph, column 5, column 3, column `W` (nothing to blank), one line. -/
theorem witness_PolicyStepBlanksItsColumns :
    (start .none (List.replicate 4 true)).policy = .none
    ∧ (start .none (List.replicate 4 true)).env.afterSuccesses (0 + 3 + 1 * ((3 + 4 - 1) / 4)) = some spent
    ∧ (start .clearLeft (List.replicate 8 true)).policy = .clearLeft
    ∧ (start .clearLeft (List.replicate 8 true)).env.afterSuccesses (3 + (5 + 4 - 1) / 4 + 3 + 0) = some spent
    ∧ (start .clearRight (List.replicate 7 true)).policy = .clearRight
    ∧ (start .clearRight (List.replicate 7 true)).env.afterSuccesses (3 + (if 3 < 4 then 1 else 0) + 3 + 0) = some spent
    ∧ (start .clearRight (List.replicate 6 true)).env.afterSuccesses (3 + (if 4 < 4 then 1 else 0) + 3 + 0) = some spent
    ∧ (start .clearBoth (List.replicate 7 true)).policy = .clearBoth
    ∧ (start .clearBoth (List.replicate 7 true)).env.afterSuccesses (4 + 3 + 0) = some spent
    ∧ Memory.wf (start .clearBoth (List.replicate 7 true)) = true := by decide

theorem witness_FirstFailureEndsABody :
    Memory.wf (failing 2) = true ∧ (HostOp.setCursor 1 2).body? = some (.cursor 1 2)
    ∧ 2 < transfersIn ((HostOp.setCursor 1 2).bodyEvents (failing 2).cfg (failing 2).policy)
    ∧ (failing 2).env.afterSuccesses 2 = some aboutToFail ∧ aboutToFail.answer = some (false, spent) := by decide

theorem witness_FirstFailureEndsABody_others :
    HostOp.body? .clearAll = some .clearallBody ∧ (HostOp.write [7]).body? = some (.wrdata [7])
    ∧ (HostOp.clearLines 1 1).body? = some (.clearlinesBody 1 1)
    ∧ (HostOp.drawText 0 0 []).body? = some (.drawtextBody 0 0 [])
    ∧ 0 < transfersIn (HostOp.bodyEvents (config .none) .none (.write [7]))
    ∧ 4 < transfersIn (HostOp.bodyEvents (config .none) .none .clearAll) := by decide

theorem witness_FailedCursorKeepsTheOldPosition :
    Memory.wf (failing 2) = true ∧ (failing 2).env.afterSuccesses 2 = some aboutToFail
    ∧ aboutToFail.answer = some (false, spent) ∧ (failing 0).env.afterSuccesses 0 = some aboutToFail := by decide

theorem witness_FirstFailureEndsAHostOperation :
    Memory.wf (failing 2) = true ∧ (failing 2).ready = true
    ∧ hostOp? (.opSetcursor 1 2) = some (.setCursor 1 2) ∧ (HostOp.setCursor 1 2).body? = some (.cursor 1 2)
    ∧ 2 < transfersIn ((HostOp.setCursor 1 2).bodyEvents (failing 2).cfg (failing 2).policy)
    ∧ (failing 2).env.afterSuccesses 2 = some aboutToFail ∧ aboutToFail.answer = some (false, spent) := by decide

theorem witness_SetCursorRunsUnderTheLock :
    Memory.wf (good 3) = true ∧ (good 3).ready = true ∧ (good 3).env.afterSuccesses 3 = some spent := by decide

theorem witness_HostWriteLeavesChipSelect :
    Memory.wf (good 2) = true ∧ (good 2).ready = true
    ∧ (good 2).env.afterSuccesses (transfersIn (writeEvents (good 2).cfg [1, 2, 3, 4, 5])) = some spent := by decide

theorem witness_HostFullClearRunsUnderTheLock :
    Memory.wf (good 5) = true ∧ (good 5).ready = true
    ∧ (good 5).env.afterSuccesses (3 + (good 5).cfg.nrows) = some spent := by decide

theorem witness_HostLineClearRunsUnderTheLock :
    Memory.wf (good 4) = true ∧ (good 4).ready = true
    ∧ (good 4).env.afterSuccesses (transfersIn (clearlinesEvents (good 4).cfg 5 2)) = some spent
    ∧ (good 4).env.afterSuccesses (transfersIn (clearlinesEvents (good 4).cfg 255 255)) = some spent := by decide

theorem witness_HostDrawTextRunsUnderTheLock :
    Memory.wf (start .clearBoth (List.replicate 8 true)) = true ∧ (start .clearBoth (List.replicate 8 true)).ready = true
    ∧ (start .clearBoth (List.replicate 8 true)).env.afterSuccesses
        (transfersIn (drawtextEvents (config .clearBoth) .clearBoth 1 0 [0x48])) = some spent := by decide

theorem witness_ControlSendsItsCommand :
    Memory.wf (good 1) = true ∧ (good 1).ready = true
    ∧ (good 1).cfg.ctlEntry 0x01 = some ⟨0x01, .refresh, .upToMask⟩
    ∧ (good 1).cfg.isLegal ⟨0x01, .refresh, .upToMask⟩ 3 = true ∧ (good 1).env.answer = some (true, spent)
    ∧ (failing 0).env.answer = some (false, spent) := by decide

theorem witness_RejectedControlTouchesNothing :
    (good 0).ready = true ∧ (good 0).cfg.ctlEntry 0x02 = none
    ∧ (good 0).cfg.ctlEntry 0x01 = some ⟨0x01, .refresh, .upToMask⟩
    ∧ (good 0).cfg.isLegal ⟨0x01, .refresh, .upToMask⟩ 4 = false := by decide

theorem witness_ContrastAndRefreshUseTheirMasks :
    Memory.wf (good 1) = true ∧ (good 1).ready = true ∧ (good 1).cfg.ctl = defaultCtl
    ∧ (31#8).toNat ≤ ((good 1).cfg.cmd.get .evol).mask.toNat ∧ ((good 1).cfg.cmd.get .evol).mask.toNat < (32#8).toNat
    ∧ (3#8).toNat ≤ ((good 1).cfg.cmd.get .refresh).mask.toNat
    ∧ ((good 1).cfg.cmd.get .refresh).mask.toNat < (4#8).toNat ∧ (good 1).env.answer = some (true, spent) := by decide

theorem witness_BringUpRunsItsThirteenSteps :
    Memory.wf (good 17) = true ∧ (good 17).ready = true
    ∧ (good 17).env.afterSuccesses (15 + (good 17).cfg.nrows) = some spent := by decide

theorem witness_BringUpFailsAtItsFirstFailure :
    Memory.wf (failing 16) = true ∧ (failing 16).ready = true ∧ 16 < 15 + (failing 16).cfg.nrows
    ∧ (failing 16).env.afterSuccesses 16 = some aboutToFail ∧ (failing 7).env.afterSuccesses 7 = some aboutToFail
    ∧ (failing 0).env.afterSuccesses 0 = some aboutToFail ∧ aboutToFail.answer = some (false, spent) := by decide

theorem witness_AcquireTakesAFreeLock :
    (good 0).reqs[(good 0).who]? = some Requester.atReset ∧ (good 0).lock = .free
    ∧ busy.reqs[busy.who]?.isSome = true ∧ busy.lock = .held 0 := by decide

theorem witness_OnlyTheHolderReleases : busy.lock = .held busy.who ∧ (good 0).lock ≠ .held (good 0).who := by decide

theorem witness_HeldLockMakesOperationsWait :
    hostOp? (.opClearline 255) = some (.clearLines 255 255)
    ∧ ({ good 0 with lock := .held 1 } : State).ctl? 0 = some .idle
    ∧ ({ good 0 with lock := .held 1 } : State).lock = .held 1 := by decide

theorem witness_EveryHostOperationReturns :
    hostOp? (.opCtl 0x7E 0) = some (.ctl 0x7E 0) ∧ (good 0).ready = true ∧ (good 0).cs = .inactive
    ∧ (good 0).env.silent = false := by decide

theorem witness_EngineTransfersAreUniform :
    Memory.wf (good 1) = true ∧ hostOp? (.opWrite [7]) = some (.write [7]) ∧ ∃ t, exec (.opWrite [7]) (good 1) = .next t :=
  ⟨by decide, by decide, _, rfl⟩

theorem witness_EveryStepKeepsTheStorages :
    Memory.wf ((good 1).withFetchWord 24 0x8A0000) = true ∧ ∃ t, step ((good 1).withFetchWord 24 0x8A0000) = .next t :=
  ⟨by decide, _, rfl⟩

theorem witness_ConfigurationAndPolicyNeverChange : ∃ t, step ((good 1).withFetchWord 24 0x860610) = .next t := ⟨_, rfl⟩

theorem busy_safe : busy.safe := by
  refine ⟨rfl, ⟨fun h => (by cases h), fun t h => ?_, fun t q h => ?_⟩, rfl⟩
  · have : t = 0 := by simpa [busy] using h.symm
    subst this
    decide
  · match t, h with
    | 0, h => cases h; decide
    | 1, h => cases h; decide
    | t + 2, h => cases h

theorem witness_EveryStepKeepsMutualExclusion : busy.safe ∧ ∃ t, step busy = .next t := ⟨busy_safe, _, rfl⟩

theorem witness_OnlyTheHolderIsInside :
    busy.safe ∧ busy.ctl? 0 = some (.running (.write [7]) 0 (hostOpSequence (config .none) .none (.write [7])))
    ∧ returning (hostOpSequence (config .none) .none (.write [7])) = false := ⟨busy_safe, by decide, by decide⟩

theorem witness_FinishedRunsReleaseEverything : (good 0).safe ∧ (good 0).finished = true := by
  refine ⟨⟨rfl, ⟨fun _ => rfl, fun t h => (by cases h), fun t q h => ?_⟩, rfl⟩, by decide⟩
  match t, h with
  | 0, h => cases h; decide
  | 1, h => cases h; decide
  | t + 2, h => cases h

theorem witness_AnyWaiterMayBeGranted :
    contended.port = none ∧ contended.lock = .free
    ∧ contended.ctl? 1
      = some (.waiting (.setCursor 0 1) 0 (hostOpSequence (config .none) .none (.setCursor 0 1))) := by decide

/-- R267: requester 0 waits for the free lock, requester 1 asks for an empty write again and again and is always chosen. -/
def unfair : State :=
  { contended with
    reqs := contended.reqs.set 1 ⟨.idle, [], [⟨0x030000#24, []⟩]⟩
    env := ⟨[], false, [], [1], 0⟩ }

theorem witness_AnyWaiterMayBeGranted_unfair :
    unfair.port = none ∧ unfair.lock = .free
    ∧ unfair.reqs = [⟨.waiting (.write [7]) 0 (hostOpSequence (config .none) .none (.write [7])), [], []⟩,
        ⟨.idle, [], [⟨0x030000#24, []⟩]⟩]
    ∧ unfair.env.choices = [] ∧ unfair.env.choicesForever = [1] := by decide

theorem witness_BringUpWindowLetsOthersIn :
    atWindow.ctl? 0 = some (.running .init 35 (.prim .rel :: .prim .acq :: initLast (config .none) []))
    ∧ atWindow.ctl? 1
      = some (.waiting (.setCursor 0 1) 0 (hostOpSequence (config .none) .none (.setCursor 0 1))) := by decide

/-- V45: the holder is idle, the other requester waits. -/
theorem witness_SelfDeadlockIsStuck :
    let s := { contended with lock := .held 0, port := some ⟨0x8E0000#24, []⟩, reqs := contended.reqs.set 0 Requester.atReset }
    s.port = some ⟨0x8E0000#24, []⟩ ∧ decode ⟨0x8E0000#24, []⟩ = .ok .lockAcq
    ∧ s.reqs[s.who]? = some Requester.atReset ∧ s.lock = .held s.who
    ∧ ∀ u q', s.reqs[u]? = some q' → u ≠ s.who → (∃ o j l, q'.ctl = .waiting o j l) ∨ q'.isFinished = true := by
  refine ⟨rfl, by decide, by decide, rfl, fun u q h hu => ?_⟩
  match u, h, hu with
  | 0, _, hu => exact absurd rfl hu
  | 1, h, _ => cases h; exact .inl ⟨_, _, _, rfl⟩
  | u + 2, h, _ => cases h

/-- The one waiting requester has a request still to come. -/
theorem witness_SilentTransportIsStuck :
    let s := { good 0 with
      lock := .held 1
      env := silent
      reqs := [⟨.waiting (.write [7]) 0 [], [⟨0x010000#24, []⟩], []⟩, ⟨.running (.write [7]) 2 [.xfer .rb []], [], []⟩] }
    s.port = none ∧ s.lock = .held 1 ∧ s.ctl? 1 = some (.running (.write [7]) 2 [.xfer .rb []]) ∧ s.env.answer = none
    ∧ ∀ u q, s.reqs[u]? = some q → u ≠ 1 → (∃ o j l, q.ctl = .waiting o j l) ∨ q.isFinished = true := by
  refine ⟨rfl, rfl, by decide, by decide, fun u q h hu => ?_⟩
  match u, h, hu with
  | 0, h, _ => cases h; exact .inl ⟨_, _, _, rfl⟩
  | 1, _, hu => exact absurd rfl hu
  | u + 2, h, _ => cases h

theorem witness_UndisturbedRunIsTheHostOperation :
    hostOp? .opInit = some .init ∧ (failing 8).port = none ∧ (failing 8).ready = true ∧ (failing 8).cs = .inactive
    ∧ (failing 8).env.silent = false
    ∧ ∀ t q, (failing 8).reqs[t]? = some q → t ≠ (failing 8).who → q.isFinished = true := by
  refine ⟨by decide, by decide, by decide, by decide, by decide, fun t q h hu => ?_⟩
  match t, h, hu with
  | 0, _, hu => exact absurd rfl hu
  | 1, h, _ => cases h; decide
  | t + 2, h, _ => cases h

/-- Requester 0 runs a write and holds the lock, the harness asks for the lock for requester 1, which has a request. -/
def askedByOther : State :=
  { busy with reqs := busy.reqs.set 1 ⟨.idle, [⟨0x020001#24, []⟩], []⟩, port := some ⟨0x8E0000#24, []⟩, who := 1 }

/-- The same, for the holder itself, requester 1 idle with a request. -/
def askedByHolder : State := { askedByOther with who := 0 }

theorem witness_AskingForTheLockStopsTheRequester :
    (askedByOther.port = some ⟨0x8E0000#24, []⟩ ∧ decode ⟨0x8E0000#24, []⟩ = .ok .lockAcq ∧ askedByOther.lock = .held 0
      ∧ ∃ t, step askedByOther = .next t)
    ∧ askedByHolder.lock = .held askedByHolder.who ∧ ∃ t, step askedByHolder = .next t :=
  ⟨⟨rfl, by decide, rfl, _, rfl⟩, rfl, _, rfl⟩

theorem witness_AcceptedRequestsWaitAtTheirAcquire :
    ({ good 0 with reqs := [⟨.idle, [], [⟨0x010000#24, []⟩]⟩, ⟨.done .init .ok, [⟨0x020001#24, []⟩], []⟩] } : State).reqs
      = [⟨.idle, [], [⟨0x010000#24, []⟩]⟩, ⟨.done .init .ok, [⟨0x020001#24, []⟩], []⟩]
    ∧ requestedOp ⟨0x010000#24, []⟩ = some .init
    ∧ requestedOp ⟨0x020001#24, []⟩ = some (.setCursor 0 1) ∧ (good 0).port = none := by decide

/-! ### The lock and the harness: R190, R193, R206, log entry 24 -/

/-- R190: while LOCK.ACQ of requester 1 waits, requester 0 moves and requester 1 does not issue its request. -/
theorem test_asking_requester_waits :
    after (step askedByOther) (fun s => s.ctl? 1 == some .idle && s.rb.len == 0 && s.port == askedByOther.port) = true := by
  decide

/-- R267: requester 1 is chosen although requester 0 could be granted the lock, and the repeated choice and request stay. -/
theorem test_unfair_choice :
    after (step unfair) (fun s => s.ctl? 0 == unfair.ctl? 0 && s.ctl? 1 == some (.waiting (.write []) 0 (hostOpSequence
      (config .none) .none (.write []))) && s.env == unfair.env
      && s.reqs.map Requester.forever == unfair.reqs.map Requester.forever) = true := by decide

/-- R206: the holder's own operation does not run on while its LOCK.ACQ waits. -/
theorem test_self_deadlock_of_a_running_holder :
    step { busy with port := some ⟨0x8E0000#24, []⟩ } = .fault .stuck := rfl

/-- R193: an operation whose lock the harness has released has no step; the lock stays free of it. -/
theorem test_released_operation_waits : ({ busy with lock := .held 1 } : State).agents = [] := by decide

end Sys2Proof.Tests
end

section
/-!
The setup of the machine, which no step changes (spec/00_scope.md R6, spec/10_state.md R25, R26), and what a step does
with the request at the harness port (spec/00_scope.md R10, R11, spec/45_host_ops.md R190).
-/

namespace Sys2Proof.Machine

/-! ### The setup -/

/-- What a session fixes once and for all: the configuration, the active policy, the capacities of the command buffer and
of the row buffer, and the number of requesters (R6, R25, R26). -/
def State.setup (s : State) : Cfg × Policy × Nat × Nat × Nat :=
  (s.cfg, s.policy, s.cb.cap, s.rb.cap, s.reqs.length)

theorem State.setup_eq_iff (s t : State) :
    t.setup = s.setup ↔ t.cfg = s.cfg ∧ t.policy = s.policy ∧ t.cb.cap = s.cb.cap ∧ t.rb.cap = s.rb.cap
      ∧ t.reqs.length = s.reqs.length := by
  simp [State.setup]

/-- Replacing a buffer by one of the same capacity keeps the setup. -/
theorem State.setBuf_setup {s : State} {b : BufId} {v : Buf} (h : v.cap = (s.buf b).cap) :
    (s.setBuf b v).setup = s.setup := by
  cases b with
  | cb => simpa [State.setup] using h
  | rb => simpa [State.setup] using h

theorem Prim.apply_setup (p : Prim) (t : Nat) (s : State) : (p.apply t s).setup = s.setup := by
  cases p with
  | reset b => exact State.setBuf_setup (Buf.reset_cap _)
  | push b tag src => exact State.setBuf_setup (Buf.push_cap ..)
  | sel _ | latch _ _ | acq | rel | ret _ => rfl

theorem State.transfer_setup {s s' : State} {b : BufId} {ok : Bool} (h : s.transfer b = some (ok, s')) :
    s'.setup = s.setup := by
  obtain ⟨e, -, rfl⟩ := State.transfer_some h
  rfl

/-- A new control record changes the record of one requester and not their number. -/
theorem State.setCtl_setup (s : State) (t : Nat) (c : Ctl) : (s.setCtl t c).setup = s.setup := by
  simp [State.setup]

/-- Issuing a request changes the record of one requester and not their number. -/
theorem State.issue_setup (s : State) (t : Nat) : (s.issue t).setup = s.setup := by
  obtain h | ⟨q, h⟩ := s.issue_eq t
  · rw [h]
  · rw [h]
    simp [State.setup]

/-- Every basic operation keeps the setup. -/
theorem kept_setup (s : State) : Kept fun t => t.setup = s.setup where
  buf _ _ _ h hcap _ := (State.setBuf_setup hcap).trans h
  prim p t s' h := (p.apply_setup t s').trans h
  transfer _ _ _ _ h hx := (State.transfer_setup hx).trans h
  ctl s' t c h := (s'.setCtl_setup t c).trans h
  issue s' t h := (s'.issue_setup t).trans h
  result _ _ h := h
  env _ _ h := h
  port _ h := h

/-- Settles O49: every step keeps what the basic operations keep, and those keep the setup. -/
theorem configurationAndPolicyNeverChange : Obligations.ConfigurationAndPolicyNeverChange := by
  unfold Obligations.ConfigurationAndPolicyNeverChange
  intro s t h
  exact (State.setup_eq_iff s t).mp ((kept_setup s).step rfl h)

/-! ### The request at the harness port -/

theorem portOutcome_lockHeld (s : State) : portOutcome s (.fault .lockHeld) = moveOne s.othersAgents s := rfl

theorem portOutcome_of_ne {o : Host.Outcome State Fault Refusal} (s : State) (h : o ≠ .fault .lockHeld) :
    portOutcome s o = o := by
  unfold portOutcome
  split
  · exact absurd rfl h
  · rfl

/-- A step with a request at the harness port that spells the operation `i`. -/
theorem step_of_decode {s : State} {r : Request} {i : Instr} (hp : s.port = some r) (hd : decode r = .ok i) :
    step s = portOutcome s (exec i { s with port := none }) := by
  simp only [step, hp, hd]

/-- Settles O7: the port's operation is run, unless it is a LOCK.ACQ that is not enabled. -/
theorem stepRunsTheDecodedOperation : Obligations.StepRunsTheDecodedOperation := by
  unfold Obligations.StepRunsTheDecodedOperation
  intro s r i hp hd
  rw [step_of_decode hp hd]
  refine ⟨portOutcome_of_ne s, fun hheld => ?_⟩
  rw [hheld, portOutcome_lockHeld]

end Sys2Proof.Machine
end

section
/-!
The state after reset (spec/10_state.md R38, spec/70_reset_and_hazards.md R250), the form of the storages under every step
(spec/10_state.md R21 to R23), how a requester comes to wait at its Acquire (R29, spec/45_host_ops.md R192), and the run of
one requester whom no other agent disturbs.
-/

namespace Sys2Proof.Machine

/-! ### Reset -/

@[simp] theorem Buf.atReset_len (cap : Nat) (slot : Nat → Word) : (Buf.atReset cap slot).len = 0 := rfl

@[simp] theorem Buf.atReset_cap (cap : Nat) (slot : Nat → Word) : (Buf.atReset cap slot).cap = cap := by
  simp [Buf.atReset, Buf.cap]

theorem Buf.atReset_wf (cap : Nat) (slot : Nat → Word) : (Buf.atReset cap slot).wf cap = true := by
  simp [Buf.wf_iff]

/-- After session setup every requester has issued nothing and is to issue nothing (R38). -/
theorem State.resetWith_reqs {c : Cfg} {slot : BufId → Nat → Word} {q : Requester}
    (h : q ∈ (State.resetWith c slot).reqs) : q = Requester.atReset :=
  List.eq_of_mem_replicate h

theorem State.resetWith_wf (c : Cfg) (slot : BufId → Nat → Word) : Memory.wf (State.resetWith c slot) = true :=
  Bool.and_eq_true_iff.2 ⟨Buf.atReset_wf .., Buf.atReset_wf ..⟩

/-- Nobody holds the lock after session setup, so every idle requester is safe. -/
theorem State.resetWith_safe (c : Cfg) (slot : BufId → Nat → Word) : (State.resetWith c slot).safe := by
  refine ⟨rfl, ⟨fun _ => rfl, fun t h => (nomatch h), fun t q h => ?_⟩, rfl⟩
  rw [State.resetWith_reqs (List.mem_of_getElem? h)]
  rfl

/-- Settles O46: each value is read off the definition of reset, and the capacities are the lengths of the storages. -/
theorem resetStateIsAsListed : Obligations.ResetStateIsAsListed := by
  unfold Obligations.ResetStateIsAsListed
  exact ⟨rfl, Buf.atReset_cap .., rfl, Buf.atReset_cap .., rfl, rfl, rfl, rfl, List.length_replicate,
    fun q h => by rw [State.resetWith_reqs h]; rfl, rfl⟩

/-- Settles O47: session setup meets both invariants, with any configuration and any storage words. -/
theorem resetMeetsTheInvariants : Obligations.ResetMeetsTheInvariants := by
  unfold Obligations.ResetMeetsTheInvariants
  exact ⟨State.resetWith_wf .., State.resetWith_safe ..⟩

/-! ### The storages -/

/-- Every basic operation keeps the form of the storages. -/
theorem kept_wf : Kept fun s => Memory.wf s = true where
  buf _ _ _ h _ hv := State.setBuf_wf h hv
  prim p t s h := p.apply_wf t s h
  transfer _ _ _ _ h hx := State.transfer_wf hx h
  ctl _ _ _ h := h
  issue s t h := by
    obtain h' | ⟨q, h'⟩ := s.issue_eq t <;> rw [h'] <;> exact h
  result _ _ h := h
  env _ _ h := h
  port _ h := h

/-- Settles O48: every step keeps what the basic operations keep, and those keep the form of the storages. -/
theorem everyStepKeepsTheStorages : Obligations.EveryStepKeepsTheStorages := by
  unfold Obligations.EveryStepKeepsTheStorages
  exact fun s t hw h => kept_wf.step hw h

/-! ### The step of one requester, by its control record -/

/-- A requester with nothing outstanding issues its next request (R29). -/
theorem State.stepRequester_of_idle_or_done {s : State} {t : Nat} {c : Ctl} (h : s.ctl? t = some c)
    (hc : c = .idle ∨ ∃ o st, c = .done o st) : s.stepRequester t = s.issue t := by
  obtain rfl | ⟨o, st, rfl⟩ := hc <;> simp only [State.stepRequester, h]

/-- An accepted request takes its requester to its Acquire (R29, R192). -/
theorem State.issue_of_accepted {s : State} {t : Nat} {q q' : Requester} {r : Request} {op : HostOp}
    (hq : s.reqs[t]? = some q) (hn : q.next? = some (r, q')) (hr : requestedOp r = some op) :
    s.issue t =
      { s with reqs := s.reqs.set t { q' with ctl := .waiting op 0 (hostOpSequence s.cfg s.policy op) } } := by
  simp only [State.issue, hq, hn, hr]

/-- A requester with nothing outstanding has a step exactly when it has a request to issue. -/
theorem Requester.hasStep_of_idle_or_done {q : Requester} (t : Nat) (s : State)
    (hc : q.ctl = .idle ∨ ∃ o st, q.ctl = .done o st) : q.hasStep t s = q.next?.isSome := by
  obtain h | ⟨o, st, h⟩ := hc <;> simp only [Requester.hasStep, h]

/-- Settles O60: the requester's step is to issue that request; the environment, which the second clause leaves open, has no
part in it. -/
theorem acceptedRequestsWaitAtTheirAcquire : Obligations.AcceptedRequestsWaitAtTheirAcquire := by
  unfold Obligations.AcceptedRequestsWaitAtTheirAcquire
  intro s t q r more op hq hc hnext hr
  have hn := Requester.next?_eq hnext
  have hstep : ∀ e, (s.setEnv e).stepRequester t =
      { s.setEnv e with
        reqs := s.reqs.set t { q with ctl := .waiting op 0 (hostOpSequence s.cfg s.policy op), todo := more } } := by
    intro e
    rw [State.stepRequester_of_idle_or_done (s := s.setEnv e) (State.ctl?_eq_some.2 ⟨q, hq, rfl⟩) hc,
      State.issue_of_accepted (s := s.setEnv e) hq hn hr]
    rfl
  refine ⟨hstep s.env, fun hp => ?_⟩
  have hmem : t ∈ s.agents := mem_agents.2 ⟨q, hq, by rw [Requester.hasStep_of_idle_or_done t s hc, hn]; rfl⟩
  obtain ⟨choices, e, he⟩ := step_of_mem_agents hp hmem
  refine ⟨choices, _, he, ?_⟩
  rw [hstep e, show s.stepRequester t = _ from hstep s.env]
  rfl

/-! ### A control record is not read by what a sequence does -/

theorem State.setCtl_ctl? {s : State} {t : Nat} (c : Ctl) (h : t < s.reqs.length) : (s.setCtl t c).ctl? t = some c := by
  simp [State.ctl?, h]

@[simp] theorem State.setCtl_setCtl (s : State) (t : Nat) (c c' : Ctl) : (s.setCtl t c).setCtl t c' = s.setCtl t c' := by
  simp only [State.setCtl, List.modify_modify_eq]
  rfl

@[simp] theorem State.setCtl_buf (s : State) (t : Nat) (c : Ctl) (b : BufId) : (s.setCtl t c).buf b = s.buf b := by
  cases b <;> rfl

theorem Prim.apply_setCtl (p : Prim) (t u : Nat) (s : State) (c : Ctl) :
    p.apply t (s.setCtl u c) = (p.apply t s).setCtl u c := by
  cases p with
  | reset b | push b _ _ => cases b <;> rfl
  | sel _ | latch _ _ | acq | rel | ret _ => rfl

/-! ### A requester whom no other agent disturbs -/

/-- Nothing stands at the harness port, requester `t` exists, every other one is finished, and the transport answers. -/
structure Undisturbed (t : Nat) (s : State) : Prop where
  port : s.port = none
  lt : t < s.reqs.length
  others : ∀ u q, s.reqs[u]? = some q → u ≠ t → q.isFinished = true
  answering : s.env.silent = false

theorem Undisturbed.apply {t : Nat} {s : State} (h : Undisturbed t s) (p : Prim) : Undisturbed t (p.apply t s) :=
  ⟨by simpa using h.port, by simpa using h.lt, by simpa using h.others, by simpa using h.answering⟩

/-- An environment that is not silent answers, and is not silent afterwards (R30, R262). -/
theorem Env.answer_of_answering {e : Env} (h : e.silent = false) :
    ∃ ok e', e.answer = some (ok, e') ∧ e'.silent = false := by
  unfold Env.answer
  split
  · exact ⟨_, _, rfl, h⟩
  · exact ⟨_, _, if_neg (by simp [h]), h⟩

/-- The next transfer of an undisturbed requester is answered. -/
theorem Undisturbed.transfer {t : Nat} {s : State} (h : Undisturbed t s) (b : BufId) :
    ∃ ok s', s.transfer b = some (ok, s') ∧ Undisturbed t s' ∧ s'.lock = s.lock := by
  obtain ⟨ok, e, ha, hs⟩ := Env.answer_of_answering h.answering
  exact ⟨ok, _, State.transfer_of_answer b ha, ⟨h.port, h.lt, h.others, hs⟩, rfl⟩

/-- A finished requester has no step. -/
theorem Requester.hasStep_of_isFinished {q : Requester} (t : Nat) (s : State) (h : q.isFinished = true) :
    q.hasStep t s = false := by
  unfold Requester.isFinished at h
  unfold Requester.hasStep
  split at h
  case h_1 hc | h_2 hc => simpa [hc] using h
  case h_3 | h_4 => cases h

/-- When requester `t` has a step with its record at `c`, no other agent has one. -/
theorem Undisturbed.agents_eq {t : Nat} {s : State} (h : Undisturbed t s) {c : Ctl}
    (hc : ∀ q : Requester, q.ctl = c → q.hasStep t (s.setCtl t c) = true) : (s.setCtl t c).agents = [t] := by
  have honly : ∀ u, u ∈ (s.setCtl t c).agents ↔ u ∈ [t] := by
    intro u
    rw [mem_agents, List.mem_singleton]
    constructor
    · rintro ⟨q, hq, hstep⟩
      obtain ⟨hu, hq'⟩ | ⟨hu, -⟩ := setCtl_getElem? hq
      · rw [Requester.hasStep_of_isFinished u _ (h.others u q hq' hu)] at hstep
        cases hstep
      · exact hu
    · rintro rfl
      obtain ⟨q, hq, hqc⟩ := State.ctl?_eq_some.1 (State.setCtl_ctl? c h.lt)
      exact ⟨q, hq, hc q hqc⟩
  have hnodup : (s.setCtl t c).agents.Nodup := List.nodup_range.filter _
  exact List.perm_singleton.1 ((List.perm_ext_iff_of_nodup hnodup (List.nodup_singleton t)).2 honly)

/-- Then its step is the machine's next one (R190). -/
theorem Undisturbed.step_eq {t : Nat} {s : State} (h : Undisturbed t s) {c : Ctl}
    (hc : ∀ q : Requester, q.ctl = c → q.hasStep t (s.setCtl t c) = true) :
    step (s.setCtl t c) = .next ((s.setCtl t c).stepRequester t) := by
  rw [step_of_noPort (s := s.setCtl t c) h.port, h.agents_eq hc]
  rfl

/-- A waiting requester is granted the free lock (R190). -/
theorem Undisturbed.step_waiting {t : Nat} {s : State} (h : Undisturbed t s) (hl : s.lock = .free) (op : HostOp) (k : Nat)
    (rest : List Item) :
    step (s.setCtl t (.waiting op k rest)) = .next ((s.acquire t).setCtl t (standing op k rest)) := by
  rw [h.step_eq fun q hq => by simp [Requester.hasStep, hq, hl]]
  simp only [State.stepRequester, State.setCtl_ctl? _ h.lt]
  exact congrArg _ (State.setCtl_setCtl (s.acquire t) t _ _)

/-- A running requester runs its next micro-operation, where that is enabled (R29, R193). -/
theorem Undisturbed.step_running {t : Nat} {s : State} (h : Undisturbed t s) {op : HostOp} {k : Nat} {rest : List Item}
    (hc : ∀ q : Requester, q.ctl = .running op k rest → q.hasStep t (s.setCtl t (.running op k rest)) = true) :
    step (s.setCtl t (.running op k rest)) = .next ((s.setCtl t (.running op k rest)).runItem t op k rest) := by
  rw [h.step_eq hc]
  simp only [State.stepRequester, State.setCtl_ctl? _ h.lt]

/-! ### Its sequence, one micro-operation a step -/

/-- The lock as the phase of requester `t` has it: held by `t`, or free. -/
def Phase.lock (φ : Phase) (t : Nat) : Lock := if φ.holds then .held t else .free

/-- A step that the discipline allows moves the lock as it moves the phase (R190, R191). -/
theorem Prim.apply_lock {p : Prim} {φ φ' : Phase} {t : Nat} {s : State} (hp : p.phase φ = some φ')
    (hl : s.lock = φ.lock t) : (p.apply t s).lock = φ'.lock t := by
  cases p with
  | acq | rel =>
    simp only [Prim.phase, Option.ite_none_right_eq_some, Option.some.injEq] at hp
    rw [← hp.2]
    rfl
  | sel level =>
    cases level <;>
    · simp only [Prim.phase, Option.ite_none_right_eq_some, Option.some.injEq, Bool.and_eq_true] at hp
      rw [← hp.2]
      simpa [Prim.apply, Phase.lock, hp.1.1] using hl
  | reset _ | push _ _ _ | latch _ _ | ret _ =>
    simp only [Prim.phase, Option.ite_none_right_eq_some, Option.some.injEq] at hp
    rw [← hp.2]
    simpa [Prim.apply] using hl

/-- Without the lock the discipline allows the Acquire and the return alone (R193). -/
theorem Prim.eq_of_phase_free {p : Prim} {b : Bool} {φ' : Phase} (hp : p.phase ⟨false, b⟩ = some φ') :
    p = .acq ∨ ∃ st, p = .ret st := by
  cases p with
  | acq => exact .inl rfl
  | ret st => exact .inr ⟨st, rfl⟩
  | sel level => cases level <;> simp [Prim.phase] at hp
  | reset _ | push _ _ _ | latch _ _ | rel => simp [Prim.phase] at hp

/-- What the discipline says of a sequence that begins with a step that cannot raise. -/
theorem disciplined_prim {φ : Phase} {p : Prim} {rest : List Item} (h : disciplined φ (.prim p :: rest) = true) :
    ∃ φ', p.phase φ = some φ' ∧ (p.status? = none → disciplined φ' rest = true) := by
  unfold disciplined at h
  split at h
  · cases h
  · refine ⟨_, ‹_›, fun hs => ?_⟩
    simpa [hs] using h

/-- A disciplined sequence that begins with a transfer is the lock holder's, on the exit path too. -/
theorem disciplined_xfer {φ : Phase} {b : BufId} {onFail : List Prim} {rest : List Item} :
    disciplined φ (.xfer b onFail :: rest) = true ↔
      φ.holds = true ∧ disciplined φ (onFail.map .prim) = true ∧ disciplined φ rest = true := by
  rw [disciplined_map_prim]
  simp [disciplined, and_assoc]

/-- A running requester runs its next step that cannot raise, if that is the return or the lock is its own (R193). -/
theorem Undisturbed.step_running_prim {t : Nat} {s : State} (h : Undisturbed t s) {p : Prim}
    (henabled : (p.status?.isSome || s.lock == .held t) = true) (op : HostOp) (k : Nat) (rest : List Item) :
    step (s.setCtl t (.running op k (.prim p :: rest))) = .next ((p.apply t s).setCtl t (afterPrim op k p rest)) := by
  rw [h.step_running fun q hq => by simpa only [Requester.hasStep, hq, State.setCtl_lock] using henabled]
  simp only [State.runItem, Prim.apply_setCtl, State.setCtl_setCtl]

/-- One step of the machine runs the next step of a sequence, if the discipline allows it where the lock is. -/
theorem Undisturbed.step_prim {t : Nat} {s : State} (h : Undisturbed t s) {p : Prim} {φ φ' : Phase}
    (hp : p.phase φ = some φ') (hl : s.lock = φ.lock t) (op : HostOp) (k : Nat) (rest : List Item) :
    step (s.setCtl t (standing op k (.prim p :: rest))) = .next ((p.apply t s).setCtl t (afterPrim op k p rest)) := by
  obtain ⟨holds, b⟩ := φ
  cases holds with
  | true =>
    have hrun : standing op k (.prim p :: rest) = .running op k (.prim p :: rest) := by
      cases p with
      | acq => cases hp
      | rel | sel _ | reset _ | push _ _ _ | latch _ _ | ret _ => rfl
    rw [hrun]
    exact h.step_running_prim (by simp [hl, Phase.lock]) op k rest
  | false =>
    obtain rfl | ⟨st, rfl⟩ := Prim.eq_of_phase_free hp
    · exact h.step_waiting hl op (k + 1) rest
    · exact h.step_running_prim rfl op k rest

/-- Some number of steps of the machine leads from `s` to `u`. -/
def StepsTo (s u : State) : Prop := ∃ n, Host.Core.run Sys2Proof.core n s = .next u

theorem StepsTo.refl (s : State) : StepsTo s s := ⟨0, rfl⟩

theorem StepsTo.head {s s' u : State} (h : step s = .next s') (hs : StepsTo s' u) : StepsTo s u := by
  obtain ⟨n, hn⟩ := hs
  refine ⟨n + 1, ?_⟩
  have h' : Sys2Proof.core.step s = .next s' := h
  simp only [Host.Core.run, h']
  exact hn

/-- The state that the end of a run is, with the requester's record (R29, R192). -/
def RunEnd.recorded (r : RunEnd) (t : Nat) (op : HostOp) : State := r.state.setCtl t (r.ctl op)

/-- Step by step requester `t` comes to where the run of the whole sequence ends, from every state in which the discipline
lets it run that sequence undisturbed. -/
def Finishes (t : Nat) (op : HostOp) (items : List Item) : Prop :=
  ∀ (k : Nat) (s : State) (φ : Phase), Undisturbed t s → s.lock = φ.lock t → disciplined φ items = true →
    StepsTo (s.setCtl t (standing op k items)) ((run t k items s).recorded t op)

theorem Finishes.nil (t : Nat) (op : HostOp) : Finishes t op [] := fun _ _ _ _ _ hd => by cases hd

theorem Finishes.prim {t : Nat} {op : HostOp} {rest : List Item} (hrest : Finishes t op rest) (p : Prim) :
    Finishes t op (.prim p :: rest) := by
  intro k s φ h hl hd
  obtain ⟨φ', hp, hd'⟩ := disciplined_prim hd
  refine StepsTo.head (h.step_prim hp hl op k rest) ?_
  cases hs : p.status? with
  | some status =>
    simp only [run, afterPrim, hs]
    exact StepsTo.refl _
  | none =>
    simp only [run, afterPrim, hs]
    exact hrest (k + 1) _ φ' (h.apply p) (Prim.apply_lock hp hl) (hd' hs)

theorem Finishes.exit (t : Nat) (op : HostOp) (exit : List Prim) : Finishes t op (exit.map .prim) := by
  induction exit with
  | nil => exact Finishes.nil t op
  | cons p ps ih => exact ih.prim p

/-- A disciplined exit path runs as the sequence of its steps: it ends with its return (R224, R230). -/
theorem runExit_eq_run {φ : Phase} {exit : List Prim} (t k : Nat) (s : State)
    (hd : disciplined φ (exit.map .prim) = true) : runExit t k exit s = run t k (exit.map .prim) s := by
  induction exit generalizing φ k s with
  | nil => cases hd
  | cons p ps ih =>
    obtain ⟨φ', -, hd'⟩ := disciplined_prim hd
    cases hs : p.status? with
    | some status => simp only [List.map_cons, runExit, run, hs]
    | none =>
      simp only [List.map_cons, runExit, run, hs]
      exact ih _ _ (hd' hs)

/-- The holder's transfer is the machine's next step; a failure leads into the exit path (R224). -/
theorem Undisturbed.step_xfer {t : Nat} {s s' : State} (h : Undisturbed t s) (hl : s.lock = .held t) {b : BufId} {ok : Bool}
    (hx : s.transfer b = some (ok, s')) (op : HostOp) (k : Nat) (onFail : List Prim) (rest : List Item) :
    step (s.setCtl t (standing op k (.xfer b onFail :: rest))) =
      .next (s'.setCtl t (standing op (k + 1) (if ok then rest else onFail.map .prim))) := by
  obtain ⟨e, ha, rfl⟩ := State.transfer_some hx
  have hx' := State.transfer_of_answer (s := s.setCtl t (.running op k (.xfer b onFail :: rest))) b ha
  rw [show standing op k (.xfer b onFail :: rest) = .running op k (.xfer b onFail :: rest) from rfl,
    h.step_running fun q hq => by simp [Requester.hasStep, hq, hl, Env.answers?, h.answering]]
  simp only [State.runItem, hx', State.setCtl_buf]
  cases ok
  · exact congrArg _ (State.setCtl_setCtl ((s.setEnv e).emit _) t _ _)
  · exact congrArg _ (State.setCtl_setCtl ((s.setEnv e).emit _) t _ _)

theorem Finishes.xfer {t : Nat} {op : HostOp} {rest : List Item} (hrest : Finishes t op rest) (b : BufId)
    (onFail : List Prim) : Finishes t op (.xfer b onFail :: rest) := by
  intro k s φ h hl hd
  obtain ⟨hholds, hfail, hdrest⟩ := disciplined_xfer.1 hd
  have hheld : s.lock = .held t := by rw [hl, Phase.lock, if_pos hholds]
  obtain ⟨ok, s', hx, h', hl'⟩ := h.transfer b
  refine StepsTo.head (h.step_xfer hheld hx op k onFail rest) ?_
  cases ok with
  | true =>
    simp only [run, hx]
    exact hrest (k + 1) s' φ h' (hl'.trans hl) hdrest
  | false =>
    simp only [run, hx, runExit_eq_run t (k + 1) s' hfail]
    exact Finishes.exit t op onFail (k + 1) s' φ h' (hl'.trans hl) hfail

/-- THE RUN OF ONE REQUESTER WHOM NO OTHER AGENT DISTURBS: one micro-operation a step, on every path. -/
theorem finishes (t : Nat) (op : HostOp) (items : List Item) : Finishes t op items := by
  induction items with
  | nil => exact Finishes.nil t op
  | cons i rest ih =>
    cases i with
    | prim p => exact ih.prim p
    | xfer b onFail => exact ih.xfer b onFail

/-- A requester that is ready exists. -/
theorem State.ready_lt {s : State} (h : s.ready = true) : s.who < s.reqs.length := by
  by_contra hge
  have hnone : s.ctl? s.who = none := by simpa [State.ctl?] using hge
  simp [State.ready, hnone] at h

/-- Settles O58: the waiting requester is granted the lock, and its disciplined sequence then runs step by step to where the
whole run ends. -/
theorem undisturbedRunIsTheHostOperation : Obligations.UndisturbedRunIsTheHostOperation := by
  unfold Obligations.UndisturbedRunIsTheHostOperation
  intro s i op hop hport hready _ hsilent hothers
  have h : Undisturbed s.who s := ⟨hport, State.ready_lt hready, hothers, hsilent⟩
  have hrun : StepsTo (s.setCtl s.who (.waiting op 0 (hostOpSequence s.cfg s.policy op)))
      (s.runHost s.who op (hostOpSequence s.cfg s.policy op)) :=
    StepsTo.head (h.step_waiting (State.ready_lock hready) op 0 _)
      (finishes s.who op _ 0 _ ⟨true, false⟩ (h.apply .acq) rfl (disciplined_hostOpSequence s.cfg s.policy op))
  obtain ⟨n, hn⟩ := hrun
  exact ⟨n, _, by rw [exec_of_hostOp hop, execHost_of_ready hready], hn⟩

end Sys2Proof.Machine
end

section
/-!
The encoding (spec/30_encoding.md R70 to R88): a composed word and its fields, the decoder after the encoder and before it,
the requests that are refused, and what the shorthands are short for.
-/

namespace Sys2Proof

/-! ### Composed words -/

theorem wordByte_append (tag byte : Byte) : wordByte (tag ++ byte : BitVec (8 + 8)) = byte :=
  BitVec.extractLsb'_append_eq_right ..

/-- The frame of a word is the tag's bit 0 beside the byte (R71). -/
theorem frameOf_append_getLsbD (tag byte : Byte) (i : Nat) (hi : i < 9) :
    (frameOf (tag ++ byte : BitVec (8 + 8))).getLsbD i = if i < 8 then byte.getLsbD i else tag.getLsbD (i - 8) := by
  rw [frameOf, BitVec.getLsbD_extractLsb', append_getLsbD]
  simp [hi]

/-- Settles O8: the composed word is the two bytes side by side. -/
theorem composedWordsHoldTagAndByte : Obligations.ComposedWordsHoldTagAndByte := by
  unfold Obligations.ComposedWordsHoldTagAndByte
  intro tag byte
  rw [Machine.composeWord_eq_append]
  refine ⟨Machine.wordTag_append tag byte, wordByte_append tag byte, ?_, frameOf_append_getLsbD tag byte 8 (by decide), ?_⟩
  · rw [BitVec.toNat_append, ← Nat.shiftLeft_add_eq_or_of_lt byte.isLt, Nat.shiftLeft_eq]
  · apply BitVec.eq_of_getLsbD_eq
    intro i hi
    rw [BitVec.getLsbD_extractLsb', Nat.zero_add, frameOf_append_getLsbD tag byte i (by omega)]
    simp [hi]

/-! ### The decoder after the encoder -/

open Laws.EncodingRoundTrip in
/-- The round trip, operation by operation. -/
theorem decode_encode (i : Instr) : Statement i :=
  match i with
  | .opInit => opInit
  | .opSetcursor x y => opSetcursor x y
  | .opWrite bytes => opWrite bytes
  | .opClearall => opClearall
  | .opClearlines first last => opClearlines first last
  | .opDrawtext line col text => opDrawtext line col text
  | .opCtl code arg => opCtl code arg
  | .ctlContrast v => ctlContrast v
  | .ctlRefresh v => ctlRefresh v
  | .opClearline n => opClearline n
  | .bufErase buf => bufErase buf
  | .bufReset buf => bufReset buf
  | .bufPush buf tag src => bufPush buf tag src
  | .bufPop buf n => bufPop buf n
  | .sel level => sel level
  | .xfer buf => xfer buf
  | .cmdSimple c arg => cmdSimple c arg
  | .cmdCompound c arg => cmdCompound c arg
  | .cursor x y => cursor x y
  | .wrdata bytes => wrdata bytes
  | .fillrow => fillrow
  | .clearallBody => clearallBody
  | .clearlinesBody first last => clearlinesBody first last
  | .drawtextBody line col text => drawtextBody line col text
  | .lockAcq => lockAcq
  | .lockRel => lockRel
  | .lcdReset arg => lcdReset arg
  | .lcdAllpts arg => lcdAllpts arg
  | .lcdPwrctl arg => lcdPwrctl arg
  | .lcdOnoff arg => lcdOnoff arg
  | .lcdComdir arg => lcdComdir arg
  | .lcdSegdir arg => lcdSegdir arg
  | .lcdEvol arg => lcdEvol arg
  | .lcdRefresh arg => lcdRefresh arg
  | .lcdChgpump arg => lcdChgpump arg
  | .lcdBias arg => lcdBias arg
  | .lcdVop arg => lcdVop arg
  | .lcdReverse arg => lcdReverse arg
  | .lcdLine arg => lcdLine arg
  | .lcdColmsb arg => lcdColmsb arg
  | .lcdCollsb arg => lcdCollsb arg

/-- Settles O1: the round trip of each operation. -/
theorem decodeOfEncodeGivesTheOperation : Obligations.DecodeOfEncodeGivesTheOperation := by
  unfold Obligations.DecodeOfEncodeGivesTheOperation
  exact decode_encode

/-- Settles O6: each header is a literal, which the decoder evaluates. -/
theorem sampleHeadersDecode : Obligations.SampleHeadersDecode := by
  unfold Obligations.SampleHeadersDecode
  decide

/-! ### What the decoder accepts -/

/-- What an answer of the decoder accepts, if anything, is a well-formed operation. -/
def OnlyWellFormed (x : Except DecodeError Instr) : Prop := ∀ i, x = .ok i → i.wellFormed = true

theorem onlyWellFormed_ok {i : Instr} (h : i.wellFormed = true) : OnlyWellFormed (.ok i) := by
  rintro _ ⟨⟩
  exact h

theorem onlyWellFormed_error (e : DecodeError) : OnlyWellFormed (.error e) := fun _ h => nomatch h

theorem OnlyWellFormed.bind {α : Type} {f : α → Except DecodeError Instr} (h : ∀ a, OnlyWellFormed (f a))
    (x : Except DecodeError α) : OnlyWellFormed (x.bind f) := by
  cases x with
  | error e => exact onlyWellFormed_error e
  | ok a => exact h a

theorem OnlyWellFormed.map {α : Type} {f : α → Instr} (h : ∀ a, (f a).wellFormed = true) (x : Except DecodeError α) :
    OnlyWellFormed (x.map f) := by
  cases x with
  | error e => exact onlyWellFormed_error e
  | ok a => exact onlyWellFormed_ok (h a)

/-- An operation that needs no more than a payload that fits (R83). -/
theorem onlyWellFormed_decodePayload {payload : List Byte} {i : Instr} (h : i.wellFormed = payloadFits payload) :
    OnlyWellFormed (decodePayload payload i) := by
  intro j hj
  obtain ⟨hfits, rfl⟩ := decodePayload_ok hj
  rw [h, hfits]

/-- An LCD.<name> has a shape of its own, so it is well-formed with any argument (R88). -/
theorem CmdId.named_wellFormed (c : CmdId) (arg : Byte) : (c.named arg).wellFormed = true := by
  cases c <;> rfl

theorem onlyWellFormed_decodeCommand (shape : Shape) (id arg : Byte) : OnlyWellFormed (decodeCommand shape id arg) := by
  intro i hi
  obtain ⟨c, -, -, rfl⟩ := decodeCommand_ok hi
  exact c.named_wellFormed arg

/-- The most particular name of a well-formed operation is one (R88). -/
theorem Instr.named_wellFormed {i : Instr} (h : i.wellFormed = true) : i.named.wellFormed = true := by
  unfold Instr.named
  split
  case h_1 => split_ifs <;> rfl
  case h_2 => split_ifs <;> rfl
  case h_3 | h_4 =>
    split_ifs
    · exact CmdId.named_wellFormed _ _
    · exact h
  case h_5 => exact h

/-- Settles O2: operation code by operation code, the operation is well-formed whatever its operands are, or its payload
has been checked. -/
theorem decodedOperationsAreWellFormed : Obligations.DecodedOperationsAreWellFormed := by
  unfold Obligations.DecodedOperationsAreWellFormed
  intro r
  change OnlyWellFormed (decode r)
  unfold decode
  split
  -- OP.WRITE, OP.DRAWTEXT, WRDATA, DRAWTEXT.BODY
  case h_3 | h_6 | h_17 | h_21 => exact onlyWellFormed_decodePayload rfl
  -- OP.CLEARLINES and OP.CTL, under their most particular names
  case h_5 | h_7 => exact onlyWellFormed_ok (Instr.named_wellFormed rfl)
  -- BUF.ERASE, BUF.RESET, SEL, XFER
  case h_8 | h_9 | h_12 | h_13 => exact OnlyWellFormed.map (fun _ => rfl) _
  -- BUF.PUSH, then BUF.POP, whose count is an 8-bit field
  case h_10 => exact OnlyWellFormed.bind (fun _ => onlyWellFormed_decodePayload rfl) _
  case h_11 =>
    refine OnlyWellFormed.map (fun _ => ?_) _
    exact decide_eq_true (BitVec.isLt _)
  -- CMD.SIMPLE and CMD.COMPOUND
  case h_14 | h_15 => exact onlyWellFormed_decodeCommand _ _ _
  -- no operation, and the operations without a condition
  case h_24 => exact onlyWellFormed_error _
  all_goals exact onlyWellFormed_ok rfl

/-! ### What is refused -/

/-- The operation codes that R86 reserves. -/
theorem decode_of_reserved {r : Request} (h : headerOp r.header = 0x00#8
      ∨ (0x08 ≤ (headerOp r.header).toNat ∧ (headerOp r.header).toNat ≤ 0x7F) ∨ 0x90 ≤ (headerOp r.header).toNat) :
    decode r = .error .undefinedOp := by
  have h' : (headerOp r.header).toNat = 0 ∨ (0x08 ≤ (headerOp r.header).toNat ∧ (headerOp r.header).toNat ≤ 0x7F)
      ∨ 0x90 ≤ (headerOp r.header).toNat := h.imp_left fun h0 => by rw [h0]; rfl
  unfold decode
  split
  case h_24 => rfl
  all_goals omega

/-- The port tells host operations by bit 7 of the operation code (R83). -/
theorem headerOp_getLsbD_seven (h : Header) : (headerOp h).getLsbD 7 = decide (0x80 ≤ (headerOp h).toNat) :=
  (BitVec.msb_eq_getLsbD_last _).symm.trans (BitVec.msb_eq_decide _)

theorem decodeHost_of_microOperation {r : Request} (h : 0x80 ≤ (headerOp r.header).toNat)
    (h' : (headerOp r.header).toNat ≤ 0x8F) : decodeHost r = .error .microOperation := by
  unfold decodeHost
  rw [headerOp_getLsbD_seven, decide_eq_true h, if_pos rfl, if_pos (by omega)]

/-- The port accepts nothing that does not decode (R86). -/
theorem decodeHost_of_error {r : Request} {e : DecodeError} (h : decode r = .error e) : ∃ e', decodeHost r = .error e' := by
  unfold decodeHost
  split_ifs
  · exact ⟨_, rfl⟩
  · exact ⟨_, rfl⟩
  · exact ⟨e, h⟩

theorem decodeCommand_of_badId (shape : Shape) {id : Byte} (arg : Byte) (h : 15 ≤ id.toNat) :
    decodeCommand shape id arg = .error .badCommandId := by
  simp only [decodeCommand, CmdId.ofCode_of_ge h]

theorem decodeCommand_of_wrongShape {shape : Shape} {c : CmdId} (arg : Byte) (h : c.shape ≠ shape) :
    decodeCommand shape c.code arg = .error .wrongShape := by
  simp only [decodeCommand, CmdId.ofCode_code, if_neg h]

/-- CMD.SIMPLE and CMD.COMPOUND requests (R85). -/
theorem decode_simple (id arg : Byte) (payload : List Byte) :
    decode ⟨makeHeader 0x86 id arg, payload⟩ = decodeCommand .cmd1 id arg := by
  simp [decode]

theorem decode_compound (id arg : Byte) (payload : List Byte) :
    decode ⟨makeHeader 0x87 id arg, payload⟩ = decodeCommand .cmd2 id arg := by
  simp [decode]

/-- The five operations with a `buf` field (R85). -/
theorem decode_of_badBuffer {op a : Byte} (b : Byte) (payload : List Byte)
    (hop : op ∈ [0x80#8, 0x81#8, 0x82#8, 0x83#8, 0x85#8]) (h : 2 ≤ a.toNat) :
    decode ⟨makeHeader op a b, payload⟩ = .error .badBuffer := by
  have ha := BufId.ofCode_of_ge h
  simp only [List.mem_cons, List.not_mem_nil, or_false] at hop
  obtain rfl | rfl | rfl | rfl | rfl := hop <;> simp [decode, ha, Except.map, Except.bind]

theorem decode_of_badLevel {a : Byte} (b : Byte) (payload : List Byte) (h : 2 ≤ a.toNat) :
    decode ⟨makeHeader 0x84 a b, payload⟩ = .error .badLevel := by
  simp [decode, Level.ofCode_of_ge h, Except.map]

/-! ### Shorthands -/

/-- LCD.<name> is encoded as CMD.SIMPLE or CMD.COMPOUND, as the shape of its id says (R88). -/
theorem encode_named_cmd1 {c : CmdId} (arg : Byte) (h : c.shape = .cmd1) :
    encode (c.named arg) = encode (.cmdSimple c arg) := by
  cases c with
  | refresh | chgpump | vop => cases h
  | _ => rfl

theorem encode_named_cmd2 {c : CmdId} (arg : Byte) (h : c.shape = .cmd2) :
    encode (c.named arg) = encode (.cmdCompound c arg) := by
  cases c with
  | refresh | chgpump | vop => rfl
  | _ => cases h

/-- Either way its operation code is that of a micro-operation (R85, R88). -/
theorem headerOp_encode_named (c : CmdId) (arg : Byte) :
    headerOp (encode (c.named arg)).header = 0x86#8 ∨ headerOp (encode (c.named arg)).header = 0x87#8 := by
  cases h : c.shape with
  | cmd1 => exact .inl (by rw [encode_named_cmd1 arg h]; exact headerOp_makeHeader ..)
  | cmd2 => exact .inr (by rw [encode_named_cmd2 arg h]; exact headerOp_makeHeader ..)

end Sys2Proof

namespace Sys2Proof.Machine

/-! ### At the request port -/

theorem requestedOp_of_error {r : Request} {e : DecodeError} (h : decodeHost r = .error e) : requestedOp r = none := by
  simp only [requestedOp, h]

theorem requestedOp_of_microOperation {r : Request} (h : 0x80 ≤ (headerOp r.header).toNat)
    (h' : (headerOp r.header).toNat ≤ 0x8F) : requestedOp r = none :=
  requestedOp_of_error (decodeHost_of_microOperation h h')

/-- No requester can issue an LCD.<name> (R88). -/
theorem requestedOp_encode_named (c : CmdId) (arg : Byte) : requestedOp (encode (c.named arg)) = none := by
  obtain h | h := headerOp_encode_named c arg <;> exact requestedOp_of_microOperation (by rw [h]; decide) (by rw [h]; decide)

/-- A refused request leaves its requester as it was, the request apart (R86, log entry 9). -/
theorem State.issue_of_refused {s : State} {t : Nat} {q q' : Requester} {r : Request}
    (hq : s.reqs[t]? = some q) (hn : q.next? = some (r, q')) (hr : requestedOp r = none) :
    s.issue t = { s with reqs := s.reqs.set t q' } := by
  simp only [State.issue, hq, hn, hr]

/-- A step with a request at the harness port that spells no operation (R86). -/
theorem step_of_undecodable {s : State} {r : Request} {e : DecodeError} (hp : s.port = some r)
    (hd : decode r = .error e) : step s = .refused (.undecodable e) := by
  simp only [step, hp, hd]

/-- Settles O4: a reserved code is in no case of the decoder, and what the port refuses is dropped by its requester. -/
theorem reservedRequestsAreRefused : Obligations.ReservedRequestsAreRefused := by
  unfold Obligations.ReservedRequestsAreRefused
  refine ⟨fun r h => ?_, fun r h h' => ?_, fun s t q r more hq hc hnext hr => ?_, fun s r e => step_of_undecodable⟩
  · have hd := decode_of_reserved h
    obtain ⟨e, he⟩ := decodeHost_of_error hd
    exact ⟨hd, requestedOp_of_error he⟩
  · exact ⟨decodeHost_of_microOperation h h', requestedOp_of_microOperation h h'⟩
  · rw [State.stepRequester_of_idle_or_done (State.ctl?_eq_some.2 ⟨q, hq, rfl⟩) hc]
    exact State.issue_of_refused hq (Requester.next?_eq hnext) hr

theorem execShaped_of_wrongShape {shape : Shape} {c : CmdId} (arg : Byte) (s : State) (h : c.shape ≠ shape) :
    execShaped shape c arg s = .refused .wrongShape :=
  if_neg h

/-- Settles O5: the field that is out of range is read before anything else is. -/
theorem illegalOperandsAreRefused : Obligations.IllegalOperandsAreRefused := by
  unfold Obligations.IllegalOperandsAreRefused
  refine ⟨fun id arg payload h => ?_, fun c arg payload s h => ?_, fun c arg payload s h => ?_, fun a b payload h => ?_⟩
  · rw [decode_simple, decode_compound]
    exact ⟨decodeCommand_of_badId _ arg h, decodeCommand_of_badId _ arg h⟩
  · have hne : c.shape ≠ .cmd1 := by simp [h]
    rw [decode_simple]
    exact ⟨decodeCommand_of_wrongShape arg hne, execShaped_of_wrongShape arg s hne⟩
  · have hne : c.shape ≠ .cmd2 := by simp [h]
    rw [decode_compound]
    exact ⟨decodeCommand_of_wrongShape arg hne, execShaped_of_wrongShape arg s hne⟩
  · exact ⟨fun op hop => decode_of_badBuffer b payload hop h, decode_of_badLevel b payload h⟩

/-- Settles O3: the pseudo-operations by their definitions, the LCD.<name>s by the shape of their id. -/
theorem shorthandsExpandAsStated : Obligations.ShorthandsExpandAsStated := by
  unfold Obligations.ShorthandsExpandAsStated
  refine ⟨fun v s => ⟨rfl, rfl⟩, fun v s => ⟨rfl, rfl⟩, fun n s => ⟨rfl, rfl⟩, fun c arg s => ?_⟩
  refine ⟨requestedOp_encode_named c arg, ?_⟩
  have hexec := exec_named c arg s
  cases h : c.shape with
  | cmd1 =>
    rw [h] at hexec
    exact ⟨hexec, encode_named_cmd1 arg h⟩
  | cmd2 =>
    rw [h] at hexec
    exact ⟨hexec, encode_named_cmd2 arg h⟩

end Sys2Proof.Machine
end

section
/-!
The transfers of a host operation (spec/30_encoding.md R72, R81): the words of every transport call that the rules state for
it are one command's or one chunk of data, and a run makes no other transfer, whatever the transport answers.
-/

namespace Sys2Proof.Machine

/-! ### The transfers that the rules state -/

/-- Every transfer among these events is one that the engine may make (R81). -/
def UniformTransfers (cfg : Cfg) (es : List Event) : Prop := ∀ ws ok, Event.xfer ws ok ∈ es → uniformTransfer cfg ws

@[simp] theorem uniformTransfers_nil (cfg : Cfg) : UniformTransfers cfg [] := fun _ _ h => nomatch h

@[simp] theorem uniformTransfers_append (cfg : Cfg) (a b : List Event) :
    UniformTransfers cfg (a ++ b) ↔ UniformTransfers cfg a ∧ UniformTransfers cfg b := by
  simp only [UniformTransfers, List.mem_append, or_imp, forall_and]

@[simp] theorem uniformTransfers_cons_xfer (cfg : Cfg) (ws : List Word) (ok : Bool) (es : List Event) :
    UniformTransfers cfg (.xfer ws ok :: es) ↔ uniformTransfer cfg ws ∧ UniformTransfers cfg es := by
  simp only [UniformTransfers, List.mem_cons, Event.xfer.injEq, or_imp, forall_and]
  refine and_congr_left fun _ => ⟨fun h => h ws ok ⟨rfl, rfl⟩, ?_⟩
  rintro h _ _ ⟨rfl, rfl⟩
  exact h

@[simp] theorem uniformTransfers_cons_sel (cfg : Cfg) (level : Level) (es : List Event) :
    UniformTransfers cfg (.sel level :: es) ↔ UniformTransfers cfg es := by
  simp [UniformTransfers]

theorem uniformTransfers_flatMap {α : Type} {cfg : Cfg} {f : α → List Event} {as : List α}
    (h : ∀ a, UniformTransfers cfg (f a)) : UniformTransfers cfg (as.flatMap f) := by
  intro ws ok hm
  obtain ⟨a, -, ha⟩ := List.mem_flatMap.1 hm
  exact h a ws ok ha

/-- One or two words of tag 0 (R72 to R74). -/
theorem uniformTransfer_command (cfg : Cfg) (c : CmdId) (arg : Byte) : uniformTransfer cfg (commandWords cfg c arg) := by
  refine .inl ⟨?_, by simpa [commandTag] using commandWords_tag cfg c arg⟩
  simp only [commandWords, commandBytes, compoundBytes, List.length_map]
  cases c.shape with
  | cmd1 => exact .inl rfl
  | cmd2 => exact .inr rfl

/-- 1 to `W` words of tag 1 (R72, R78). -/
theorem uniformTransfer_data {cfg : Cfg} {bytes : List Byte} (h : 1 ≤ bytes.length) (hw : bytes.length ≤ cfg.w) :
    uniformTransfer cfg (bytes.map dataWord) :=
  .inr ⟨by simpa using h, by simpa using hw, by simpa [dataTag] using dataWords_tag bytes⟩

/-- A blank row has `W` words, and `W` is not 0 (R154, R263). -/
theorem uniformTransfer_blankRow (cfg : Cfg) : uniformTransfer cfg (blankRow cfg) := by
  rw [blankRow_eq]
  exact uniformTransfer_data (by simp [blanks, Cfg.w]) (by simp [blanks])

theorem uniformTransfers_bracket {cfg : Cfg} {ws : List Word} (h : uniformTransfer cfg ws) (ok : Bool) :
    UniformTransfers cfg (bracket ws ok) := by
  simp [bracket, h]

@[simp] theorem uniformTransfers_cursor (cfg : Cfg) (x y : Byte) : UniformTransfers cfg (cursorEvents cfg x y) := by
  simp [cursorEvents, uniformTransfers_bracket, uniformTransfer_command]

/-- No chunk is empty or longer than `W` (R152). -/
@[simp] theorem uniformTransfers_write (cfg : Cfg) (bytes : List Byte) : UniformTransfers cfg (writeEvents cfg bytes) := by
  intro ws ok hm
  obtain ⟨c, hc, he⟩ := List.mem_map.1 hm
  cases he
  obtain ⟨-, -, hsize, -⟩ := chunks_spec cfg bytes
  obtain ⟨hpos, hle⟩ := hsize c hc
  exact uniformTransfer_data hpos hle

@[simp] theorem uniformTransfers_clearall (cfg : Cfg) : UniformTransfers cfg (clearallEvents cfg) := by
  have hrows : UniformTransfers cfg (List.replicate cfg.nrows (.xfer (blankRow cfg) true)) := by
    intro ws ok hm
    cases List.eq_of_mem_replicate hm
    exact uniformTransfer_blankRow cfg
  simp [clearallEvents, hrows]

@[simp] theorem uniformTransfers_clearlines (cfg : Cfg) (first last : Byte) :
    UniformTransfers cfg (clearlinesEvents cfg first last) :=
  uniformTransfers_flatMap fun line => by simp [uniformTransfers_bracket, uniformTransfer_blankRow]

@[simp] theorem uniformTransfers_policy (cfg : Cfg) (policy : Policy) (line col : Byte) :
    UniformTransfers cfg (policyEvents cfg policy line col) := by
  cases policy <;> simp [policyEvents]

@[simp] theorem uniformTransfers_drawtext (cfg : Cfg) (policy : Policy) (line col : Byte) (text : List Byte) :
    UniformTransfers cfg (drawtextEvents cfg policy line col text) := by
  have hglyphs : UniformTransfers cfg (text.flatMap fun c => writeEvents cfg (cfg.glyph c)) :=
    uniformTransfers_flatMap fun c => uniformTransfers_write cfg (cfg.glyph c)
  simp [drawtextEvents, hglyphs]

@[simp] theorem uniformTransfers_commands (cfg : Cfg) (cs : List (CmdId × Byte)) :
    UniformTransfers cfg (commandsEvents cfg cs) :=
  uniformTransfers_flatMap fun c => uniformTransfers_bracket (uniformTransfer_command cfg c.1 c.2) true

/-- The body of every host operation (R194 to R198). -/
theorem uniformTransfers_body (cfg : Cfg) (policy : Policy) (op : HostOp) :
    UniformTransfers cfg (op.bodyEvents cfg policy) := by
  cases op <;> simp [HostOp.bodyEvents]

/-! ### The transfers of a sequence -/

/-- A step that cannot raise makes no transfer. -/
@[simp] theorem Prim.events_uniformTransfers (cfg : Cfg) (p : Prim) (t : Nat) : UniformTransfers cfg (p.events t) := by
  intro ws ok h
  cases p <;> simp [Prim.events] at h

/-- Nor does a list of such steps. -/
@[simp] theorem seen_prims_uniformTransfers (cfg : Cfg) (t : Nat) (ps : List Prim) (s : State) :
    UniformTransfers cfg (seen t (ps.map .prim) s) := by
  induction ps generalizing s with
  | nil => exact uniformTransfers_nil cfg
  | cons p ps ih => simp [seen, ih]

/-- The commands of bring-up, where the storages have their form (R202). -/
theorem seen_commandList (t : Nat) (cfg : Cfg) (exit : List Prim) (cs : List (CmdId × Byte)) {s : State}
    (hw : Memory.wf s = true) : seen t (commandList cfg cs exit) s = commandsEvents cfg cs :=
  seen_of_walk (by rw [walk_commandList t cfg exit cs s hw])

theorem seen_command (t : Nat) (cfg : Cfg) (c : CmdId) (arg : Byte) (exit : List Prim) {s : State}
    (hw : Memory.wf s = true) : seen t (command cfg c arg exit) s = bracket (commandWords cfg c arg) true :=
  seen_of_walk (by rw [walk_command t cfg c arg exit s hw])

/-- Bring-up: its commands, the full clear, its commands (R202). -/
theorem seen_init_uniformTransfers (t : Nat) {s : State} (hw : Memory.wf s = true) :
    UniformTransfers s.cfg (seen t (initSequence s.cfg) s) := by
  have hclear : ∀ s' : State, s'.cfg = s.cfg → Memory.wf s' = true →
      seen t (clearallSequence s.cfg initClearExit) s' = clearallEvents s.cfg := fun s' hc hw' =>
    seen_of_walk (by rw [walk_clearall t s.cfg initClearExit s' hw' hc])
  simp only [initSequence, initFirst_eq, initLast_eq, seen_append, walk_append, uniformTransfers_append,
    seen_prims_uniformTransfers, and_true]
  rw [seen_commandList t _ _ _ hw, seen_commandList, hclear]
  · exact ⟨⟨uniformTransfers_commands _ _, uniformTransfers_clearall _⟩, uniformTransfers_commands _ _⟩
  · simp
  · exact walk_wf _ _ (walk_wf _ _ hw)
  · exact walk_wf _ _ (walk_wf _ _ (walk_wf _ _ (walk_wf _ _ hw)))

/-- Control: the one command of an entry of the table, or nothing (R199). -/
theorem seen_ctl_uniformTransfers (t : Nat) (code arg : Byte) {s : State} (hw : Memory.wf s = true) :
    UniformTransfers s.cfg (seen t (ctlSequence s.cfg code arg) s) := by
  unfold ctlSequence
  split
  · exact seen_prims_uniformTransfers _ _ _ _
  · split
    · rw [hostSequence, seen_append, seen_command t _ _ _ _ hw, uniformTransfers_append]
      exact ⟨uniformTransfers_bracket (uniformTransfer_command ..) true, seen_prims_uniformTransfers _ _ _ _⟩
    · exact seen_prims_uniformTransfers _ _ _ _

/-- The other host operations: a body in the host wrapper (R192). -/
theorem seen_body_uniformTransfers (t : Nat) {s : State} (hw : Memory.wf s = true) {op : HostOp} {i : Instr}
    (h : op.body? = some i) : UniformTransfers s.cfg (seen t (hostOpSequence s.cfg s.policy op) s) := by
  obtain ⟨body, hbody⟩ := body_of_hostOp (s := s) h
  rw [hbody.host, hostSequence, seen_append, hbody.events t _ s rfl hw, uniformTransfers_append]
  exact ⟨uniformTransfers_body _ _ _, seen_prims_uniformTransfers _ _ _ _⟩

theorem seen_hostOp_uniformTransfers (t : Nat) {s : State} (hw : Memory.wf s = true) (op : HostOp) :
    UniformTransfers s.cfg (seen t (hostOpSequence s.cfg s.policy op) s) := by
  cases op with
  | init => exact seen_init_uniformTransfers t hw
  | ctl code arg => exact seen_ctl_uniformTransfers t code arg hw
  | setCursor | write | clearAll | clearLines | drawText => exact seen_body_uniformTransfers t hw rfl

/-! ### The transfers of a run -/

/-- The state `s'` comes after `s` by events whose transfers are uniform (R81). -/
def AddsUniformTransfers (cfg : Cfg) (s s' : State) : Prop :=
  ∃ after, s'.trace = s.trace ++ after ∧ UniformTransfers cfg after

theorem AddsUniformTransfers.refl (cfg : Cfg) (s : State) : AddsUniformTransfers cfg s s :=
  ⟨[], (List.append_nil _).symm, uniformTransfers_nil cfg⟩

theorem AddsUniformTransfers.trans {cfg : Cfg} {s s' s'' : State} (h : AddsUniformTransfers cfg s s')
    (h' : AddsUniformTransfers cfg s' s'') : AddsUniformTransfers cfg s s'' := by
  obtain ⟨a, ha, hu⟩ := h
  obtain ⟨b, hb, hu'⟩ := h'
  exact ⟨a ++ b, by rw [hb, ha, List.append_assoc], (uniformTransfers_append cfg a b).2 ⟨hu, hu'⟩⟩

theorem Prim.apply_addsUniformTransfers (cfg : Cfg) (p : Prim) (t : Nat) (s : State) :
    AddsUniformTransfers cfg s (p.apply t s) :=
  ⟨p.events t, p.apply_trace t s, p.events_uniformTransfers cfg t⟩

/-- An exit path makes no transfer (R230). -/
theorem runExit_addsUniformTransfers (cfg : Cfg) (t k : Nat) (ps : List Prim) (s : State) :
    AddsUniformTransfers cfg s (runExit t k ps s).state :=
  runExit_keeps (P := AddsUniformTransfers cfg s)
    (fun p s' h => h.trans (p.apply_addsUniformTransfers cfg t s')) k ps (.refl cfg s)

/-- Whatever the transport answers, the transfers of a run are among those of the run without failure: one that fails is its
last. -/
theorem run_addsUniformTransfers {cfg : Cfg} {t : Nat} {items : List Item} {s : State} (k : Nat)
    (h : UniformTransfers cfg (seen t items s)) : AddsUniformTransfers cfg s (run t k items s).state := by
  induction items generalizing k s with
  | nil => exact .refl cfg s
  | cons i rest ih =>
    cases i with
    | prim p =>
      rw [seen, uniformTransfers_append] at h
      have hp := p.apply_addsUniformTransfers cfg t s
      unfold run
      split
      · exact hp
      · exact hp.trans (ih _ h.2)
    | xfer b onFail =>
      rw [seen, uniformTransfers_cons_xfer] at h
      have hx : ∀ e ok, AddsUniformTransfers cfg s ((s.setEnv e).emit (.xfer (s.buf b).valid ok)) := fun e ok =>
        ⟨[.xfer (s.buf b).valid ok], rfl, by simp [h.1]⟩
      unfold run
      split
      · obtain ⟨e, -, rfl⟩ := State.transfer_some ‹_›
        refine (hx e true).trans (ih _ ?_)
        rw [State.setEnv_emit, seen_setEnv]
        exact h.2
      · obtain ⟨e, -, rfl⟩ := State.transfer_some ‹_›
        exact (hx e false).trans (runExit_addsUniformTransfers ..)
      · exact .refl cfg s

/-- A host operation that is accepted runs at once or waits for the lock (R190, R192). -/
theorem execHost_next {op : HostOp} {items : List Item} {s u : State} (h : execHost op items s = .next u) :
    u = s.runHost s.who op items ∨ u = s.setCtl s.who (.waiting op 0 items) := by
  unfold execHost at h
  split at h
  case h_1 | h_2 | h_3 => cases h
  case h_4 | h_5 =>
    split at h
    · exact .inl (Host.Outcome.next.inj h).symm
    · exact .inr (Host.Outcome.next.inj h).symm

theorem execHost_addsUniformTransfers {op : HostOp} {items : List Item} {s u : State}
    (h : UniformTransfers s.cfg (seen s.who items (s.acquire s.who))) (he : execHost op items s = .next u) :
    AddsUniformTransfers s.cfg s u := by
  obtain rfl | rfl := execHost_next he
  · exact (Prim.acq.apply_addsUniformTransfers s.cfg s.who s).trans (run_addsUniformTransfers 0 h)
  · exact .refl s.cfg s

/-- Settles O45: a host operation waits, or makes its transfers from where its Acquire is granted. -/
theorem engineTransfersAreUniform : Obligations.EngineTransfersAreUniform := by
  unfold Obligations.EngineTransfersAreUniform
  intro s u i op hw hop he
  rw [exec_of_hostOp hop] at he
  exact execHost_addsUniformTransfers (seen_hostOp_uniformTransfers s.who (s := s.acquire s.who) hw op) he

end Sys2Proof.Machine
end

section
/-!
The Transaction Buffer operations (spec/40_buffer_ops.md R100 to R104): each buffer's length and words afterwards, slot by
slot, and that the operation changes nothing else but the harness's result register.
-/

namespace Sys2Proof.Machine

/-! ### Reading a slot after a write -/

/-- A slot that a write did not reach. -/
theorem writeFrom_getD_of_outside {ws : List Word} {i j : Nat} (st : List Word) (h : j < i ∨ i + ws.length ≤ j) :
    (writeFrom i ws st).getD j 0 = st.getD j 0 := by
  rw [List.getD_eq_getElem?_getD, writeFrom_getElem?, if_neg (by omega), List.getD_eq_getElem?_getD]

/-- A slot of the storage that a write reached. -/
theorem writeFrom_getD_of_inside {ws : List Word} {i j : Nat} {st : List Word} (hi : i ≤ j) (hj : j < i + ws.length)
    (hst : j < st.length) : (writeFrom i ws st).getD j 0 = ws.getD (j - i) 0 := by
  rw [List.getD_eq_getElem?_getD, writeFrom_getElem?, if_pos ⟨hi, hj, hst⟩, List.getD_eq_getElem?_getD]

/-- Nothing is stored past the capacity (R51). -/
theorem Buf.read_of_cap_le {b : Buf} {i : Nat} (h : b.cap ≤ i) : b.read i = 0 :=
  List.getD_eq_default _ _ h

/-! ### ERASE and RESET -/

/-- R100. -/
@[simp] theorem Buf.erase_read (b : Buf) (i : Nat) : b.erase.read i = 0 := by
  by_cases h : i < b.cap
  · exact List.getD_replicate _ h
  · exact Buf.read_of_cap_le (by simpa using h)

/-- R101. -/
@[simp] theorem Buf.reset_read (b : Buf) (i : Nat) : b.reset.read i = b.read i := rfl

/-! ### PUSH -/

theorem Buf.pushCount_le_length (b : Buf) (src : List Byte) : b.pushCount src ≤ src.length := Nat.min_le_left ..

theorem Buf.pushCount_le_room (b : Buf) (src : List Byte) : b.pushCount src ≤ b.cap - b.len := Nat.min_le_right ..

@[simp] theorem Buf.push_len (b : Buf) (tag : Byte) (src : List Byte) :
    (b.push tag src).len = b.len + b.pushCount src := rfl

/-- PUSH writes as many words as it counts. -/
theorem Buf.pushed_length (b : Buf) (tag : Byte) (src : List Byte) :
    ((src.take (b.pushCount src)).map (composeWord tag)).length = b.pushCount src := by
  simp [b.pushCount_le_length src]

/-- An appended slot holds its composed word (R102). -/
theorem Buf.push_read_appended {b : Buf} {src : List Byte} {j : Nat} {x : Byte} (tag : Byte) (hj : j < b.pushCount src)
    (hx : src[j]? = some x) : (b.push tag src).read (b.len + j) = composeWord tag x := by
  have hroom := b.pushCount_le_room src
  have hfit : b.len + j < b.st.length := by
    rw [Buf.cap] at hroom
    omega
  have hword : ((src.take (b.pushCount src)).map (composeWord tag))[j]? = some (composeWord tag x) := by
    simp [hj, hx]
  calc (b.push tag src).read (b.len + j)
    _ = ((src.take (b.pushCount src)).map (composeWord tag)).getD (b.len + j - b.len) 0 :=
        writeFrom_getD_of_inside (Nat.le_add_right ..) (by rw [Buf.pushed_length]; omega) hfit
    _ = composeWord tag x := by
        rw [Nat.add_sub_cancel_left, List.getD_eq_getElem?_getD, hword, Option.getD_some]

/-- Every slot below the old length or from the new one on is as before (R102). -/
theorem Buf.push_read_of_outside {b : Buf} {src : List Byte} {i : Nat} (tag : Byte)
    (h : i < b.len ∨ b.len + b.pushCount src ≤ i) : (b.push tag src).read i = b.read i :=
  writeFrom_getD_of_outside b.st (by rwa [Buf.pushed_length])

/-! ### POP -/

@[simp] theorem Buf.pop_len (b : Buf) (n : Nat) : (b.pop n).len = b.len - b.popCount n := rfl

theorem Buf.popCount_le_len (b : Buf) (n : Nat) : b.popCount n ≤ b.len := Nat.min_le_right ..

/-- A removed slot is 0 (R103). -/
theorem Buf.pop_read_removed {b : Buf} {n i : Nat} (hi : b.len - b.popCount n ≤ i) (hl : i < b.len) :
    (b.pop n).read i = 0 := by
  by_cases hc : i < b.cap
  · have hle := b.popCount_le_len n
    calc (b.pop n).read i
      _ = (List.replicate (b.popCount n) 0).getD (i - (b.len - b.popCount n)) 0 :=
          writeFrom_getD_of_inside hi (by rw [List.length_replicate]; omega) hc
      _ = 0 := List.getD_replicate _ (by omega)
  · exact Buf.read_of_cap_le (by simpa using hc)

/-- Every slot below the new length or from the old one on is as before (R103). -/
theorem Buf.pop_read_of_outside {b : Buf} {n i : Nat} (h : i < b.len - b.popCount n ∨ b.len ≤ i) :
    (b.pop n).read i = b.read i := by
  have hle := b.popCount_le_len n
  exact writeFrom_getD_of_outside b.st (by rw [List.length_replicate]; omega)

/-! ### A buffer of capacity 0 -/

/-- Without slots and without valid words a buffer is the empty one. -/
theorem Buf.eq_empty_of_cap_zero {b : Buf} (hc : b.cap = 0) (hl : b.len = 0) : b = ⟨0, []⟩ := by
  obtain ⟨len, st⟩ := b
  obtain rfl : len = 0 := hl
  obtain rfl : st = [] := List.length_eq_zero_iff.1 hc
  rfl

/-- Settles O13: there is one such buffer, both of its counts are 0, and each operation keeps its capacity and its length. -/
theorem zeroCapacityBufferIsInert : Obligations.ZeroCapacityBufferIsInert := by
  unfold Obligations.ZeroCapacityBufferIsInert
  intro b tag src n hc hl
  obtain rfl := Buf.eq_empty_of_cap_zero hc hl
  have hpush : Buf.pushCount ⟨0, []⟩ src = 0 := Nat.min_zero _
  exact ⟨hpush, Buf.eq_empty_of_cap_zero (Buf.push_cap ..) (by rw [Buf.push_len, hpush]), Nat.min_zero _,
    Buf.eq_empty_of_cap_zero (Buf.pop_cap ..) (Nat.zero_sub _), rfl, rfl⟩

/-! ### The operations at the harness port -/

@[simp] theorem State.setResult_buf (s : State) (r : Result) (b : BufId) : (s.setResult r).buf b = s.buf b := by
  cases b <;> rfl

/-- The buffer that an operation leaves, read back from the state in which it answers. -/
theorem State.buf_setResult_setBuf (s : State) (b : BufId) (v : Buf) (r : Result) :
    ((s.setBuf b v).setResult r).buf b = v := by
  rw [State.setResult_buf, State.buf_setBuf]

/-- Settles O9: the answer is the state with the erased buffer in its place. -/
theorem eraseZeroesEverySlot : Obligations.EraseZeroesEverySlot := by
  unfold Obligations.EraseZeroesEverySlot
  intro s b
  refine ⟨rfl, _, rfl, ?_⟩
  rw [State.buf_setResult_setBuf]
  exact ⟨rfl, rfl, Buf.erase_cap _, Buf.erase_read _⟩

/-- Settles O10: the answer is the state with the reset buffer in its place. -/
theorem bufferResetLeavesStorage : Obligations.BufferResetLeavesStorage := by
  unfold Obligations.BufferResetLeavesStorage
  intro s b
  refine ⟨rfl, _, rfl, ?_⟩
  rw [State.buf_setResult_setBuf]
  exact ⟨rfl, rfl, Buf.reset_cap _, Buf.reset_read _⟩

/-- Settles O11: slot by slot, a composed word being the tag before the source byte (R70). -/
theorem pushAppendsComposedWords : Obligations.PushAppendsComposedWords := by
  unfold Obligations.PushAppendsComposedWords
  intro s b tag src
  refine ⟨rfl, _, (s.buf b).pushCount src, rfl, ?_⟩
  rw [State.buf_setResult_setBuf]
  exact ⟨rfl, rfl, Buf.push_len .., Buf.push_cap ..,
    fun j x hj hx => (Buf.push_read_appended tag hj hx).trans (composeWord_eq_append tag x),
    fun i hi => Buf.push_read_of_outside tag hi⟩

/-- Settles O12: slot by slot, the removed tail apart from the rest. -/
theorem popZeroesTheRemovedTail : Obligations.PopZeroesTheRemovedTail := by
  unfold Obligations.PopZeroesTheRemovedTail
  intro s b n
  refine ⟨rfl, _, (s.buf b).popCount n, rfl, ?_⟩
  rw [State.buf_setResult_setBuf]
  exact ⟨rfl, rfl, Buf.pop_len .., Buf.pop_cap .., fun i hi hl => Buf.pop_read_removed hi hl,
    fun i hi => Buf.pop_read_of_outside hi⟩

end Sys2Proof.Machine
end

section
/-!
Chip-select, the transfer and the two command shapes (spec/41_command_encoder.md R120 to R144): each as the one state that
it answers, every field that the state does not name being as it was.
-/

namespace Sys2Proof.Machine

/-! ### Chip-select -/

/-- Settles O14: the answer is the state with the pin driven, which does not read the level before. -/
theorem selectDrivesThePin : Obligations.SelectDrivesThePin := by
  unfold Obligations.SelectDrivesThePin
  intro s level
  cases level with
  | inactive => exact ⟨rfl, rfl⟩
  | active => exact ⟨rfl, rfl⟩

/-! ### The transfer -/

/-- A buffer in canonical form has a slot for every valid word (R21). -/
theorem Memory.wf_buf {s : State} (b : BufId) (h : Memory.wf s = true) : (s.buf b).len ≤ (s.buf b).cap := by
  obtain ⟨⟨hcap, hlen⟩, hcapRow, hlenRow⟩ := (Memory.wf_iff s).1 h
  cases b with
  | cb => exact hlen.trans_eq hcap.symm
  | rb => exact hlenRow.trans_eq hcapRow.symm

/-- A call that is never answered is no transfer (R262). -/
theorem State.transfer_of_silence {s : State} (b : BufId) (h : s.env.answer = none) : s.transfer b = none := by
  simp [State.transfer, h]

theorem execXfer_of_answer {s : State} {ok : Bool} {e : Env} (b : BufId) (h : s.env.answer = some (ok, e)) :
    execXfer b s = .next (((s.setEnv e).emit (.xfer (s.buf b).valid ok)).setResult (.answer ok)) := by
  rw [execXfer, State.transfer_of_answer b h]

theorem execXfer_of_silence {s : State} (b : BufId) (h : s.env.answer = none) :
    execXfer b s = .fault .transportSilent := by
  rw [execXfer, State.transfer_of_silence b h]

/-- Settles O15: the words of the call are the valid ones, which in canonical form are the slots below the length. -/
theorem transferSendsTheValidWords : Obligations.TransferSendsTheValidWords := by
  unfold Obligations.TransferSendsTheValidWords
  refine fun s b => ⟨fun ok e hw ha => ?_, execXfer_of_silence b⟩
  rw [← Buf.valid_eq_read _ (Memory.wf_buf b hw)]
  exact execXfer_of_answer b ha

/-! ### The two command shapes -/

/-- The word of a simple command (R73, R75). -/
theorem commandWords_of_cmd1 {c : CmdId} (cfg : Cfg) (arg : Byte) (h : c.shape = .cmd1) :
    commandWords cfg c arg = [(0x00#8 ++ ((cfg.cmd.get c).base ||| (arg &&& (cfg.cmd.get c).mask)) : BitVec (8 + 8))] := by
  rw [commandWords, commandBytes, h]
  rfl

/-- The two words of a compound command (R74, R75). -/
theorem commandWords_of_cmd2 {c : CmdId} (cfg : Cfg) (arg : Byte) (h : c.shape = .cmd2) :
    commandWords cfg c arg = [(0x00#8 ++ (cfg.cmd.get c).base : BitVec (8 + 8)),
      (0x00#8 ++ (arg &&& (cfg.cmd.get c).mask) : BitVec (8 + 8))] := by
  rw [commandWords, commandBytes, h]
  rfl

/-- One command at the harness port, whatever its transfer answers: nothing follows the close of its bracket (R122 to
R125). -/
theorem execMicro_command {s : State} {ok : Bool} {e : Env} (c : CmdId) (arg : Byte) (hw : Memory.wf s = true)
    (ha : s.env.answer = some (ok, e)) :
    execMicro (command s.cfg c arg []) s = .next { s with
      cb := s.cb.loaded (commandWords s.cfg c arg)
      cs := .inactive
      env := e
      trace := s.trace ++ bracket (commandWords s.cfg c arg) ok
      result := if ok then .nothing else .failed } := by
  rw [execMicro, run_command _ _ _ _ _ _ hw ha]
  cases ok with
  | true => simp [Ending.result, State.setResult]
  | false => simp [runExit, Ending.result, State.setResult]

/-- A command runs its sequence under either name: by the micro-operation of its own shape, and by `LCD.<name>` (R88). -/
theorem exec_command {s : State} {c : CmdId} {arg : Byte} {i micro : Instr}
    (hmicro : exec micro s = execShaped c.shape c arg s) (hi : i ∈ [micro, c.named arg]) :
    exec i s = execMicro (command s.cfg c arg []) s := by
  have hrun : execShaped c.shape c arg s = execMicro (command s.cfg c arg []) s := if_pos rfl
  obtain rfl | rfl := List.mem_pair.1 hi
  · exact hmicro.trans hrun
  · exact (exec_named c arg s).trans hrun

/-- Settles O16: the run of one command, its words being the one of the shape `CMD1`. -/
theorem simpleCommandSendsOneWord : Obligations.SimpleCommandSendsOneWord := by
  unfold Obligations.SimpleCommandSendsOneWord
  intro s c arg ok e i hw hc ha hi
  have hmicro : exec (.cmdSimple c arg) s = execShaped c.shape c arg s := by
    rw [hc]
    rfl
  rw [exec_command hmicro hi, execMicro_command c arg hw ha, commandWords_of_cmd1 s.cfg arg hc]
  rfl

/-- Settles O17: the run of one command, its words being the two of the shape `CMD2`. -/
theorem compoundCommandSendsTwoWordsAtOnce : Obligations.CompoundCommandSendsTwoWordsAtOnce := by
  unfold Obligations.CompoundCommandSendsTwoWordsAtOnce
  intro s c arg ok e i hw hc ha hi
  have hmicro : exec (.cmdCompound c arg) s = execShaped c.shape c arg s := by
    rw [hc]
    rfl
  rw [exec_command hmicro hi, execMicro_command c arg hw ha, commandWords_of_cmd2 s.cfg arg hc]
  rfl

end Sys2Proof.Machine
end

section
/-!
The cursor sequence, the bulk data write and the row fill (spec/42_cursor_and_data.md R150 to R154): each without failure as
the one state that it answers, and the cursor sequence with a failure at any of its three commands.
-/

namespace Sys2Proof.Machine

/-! ### A micro-operation without failure -/

/-- A micro-operation whose transfers all succeed answers the state of its walk, the events of which say how many transfers
there are. -/
theorem execMicro_of_walk {items : List Item} {s s' : State} {es : List Event} {e : Env}
    (hf : failsInto [] false items = some false) (hwalk : walk s.who items s = s') (htrace : s'.trace = s.trace ++ es)
    (he : s.env.afterSuccesses (transfersIn es) = some e) :
    execMicro items s = .next ((s'.setEnv e).setResult .nothing) := by
  subst hwalk
  rw [← seen_of_walk htrace] at he
  exact execMicro_of_successes (noReturn_of_failsInto hf) he

/-- Settles O18: the walk of the cursor sequence, which makes three transfers. -/
theorem cursorSendsThreeCommands : Obligations.CursorSendsThreeCommands := by
  unfold Obligations.CursorSendsThreeCommands
  intro s x y e hw he
  have hrun : exec (.cursor x y) s = _ :=
    execMicro_of_walk (failsInto_cursor s.cfg x y []) (walk_cursor _ _ _ _ _ _ hw) rfl (by rwa [transfersIn_cursor])
  simp only [hrun, cursorEvents, columnHigh, ← List.append_assoc]
  rfl

/-- WRDATA as the one state that it answers: a transfer per chunk (R152). -/
theorem exec_wrdata_of_successes {s : State} {bytes : List Byte} {e : Env} (hw : Memory.wf s = true)
    (he : s.env.afterSuccesses (chunks s.cfg bytes).length = some e) :
    exec (.wrdata bytes) s = .next { s with
      rb := rowAfterWrite s.cfg s.rb bytes
      env := e
      trace := s.trace ++ writeEvents s.cfg bytes
      result := .nothing } := by
  have hcap : s.rb.cap = s.cfg.w := ((Memory.wf_iff s).1 hw).2.1
  exact execMicro_of_walk (failsInto_wrdata s.cfg bytes []) (walk_wrdata _ _ _ _ _ hcap) rfl (by rwa [transfersIn_write])

/-- Settles O19: the events that the rules state for WRDATA are one transfer of data words per chunk. -/
theorem writeStreamsChunks : Obligations.WriteStreamsChunks := by
  unfold Obligations.WriteStreamsChunks
  exact fun s bytes e hw he => exec_wrdata_of_successes hw he

/-- Settles O20: the calls carry the data words of the chunks, which are the source cut after every `W` bytes. -/
theorem writeDropsNoByte : Obligations.WriteDropsNoByte := by
  unfold Obligations.WriteDropsNoByte
  intro s bytes e hw he
  obtain ⟨hjoined, hcount, hsize, hfull⟩ := chunks_spec s.cfg bytes
  rw [← hcount] at he ⊢
  refine ⟨_, (chunks s.cfg bytes).map (List.map dataWord), exec_wrdata_of_successes hw he, ?_, rfl, rfl, ?_, ?_, ?_, ?_⟩
  · rw [List.map_map]
    rfl
  · rw [← List.map_flatten, hjoined]
    rfl
  · exact List.length_map ..
  · simpa using hsize
  · simpa [← List.map_dropLast] using hfull

/-- Settles O21: the row fill makes no transfer, and a row of `W` words leaves no stale word in the row buffer. -/
theorem fillRowBlanksTheRowBuffer : Obligations.FillRowBlanksTheRowBuffer := by
  unfold Obligations.FillRowBlanksTheRowBuffer
  intro s hw
  have hcap : s.rb.cap = s.cfg.w := ((Memory.wf_iff s).1 hw).2.1
  have hrun : exec .fillrow s = _ :=
    execMicro_of_walk (failsInto_fillrow s.cfg []) (walk_fillrow _ _ _ hcap) (List.append_nil _).symm rfl
  rw [hrun, Buf.loaded_blankRow _ _ hcap]
  rfl

/-! ### A body with a failure -/

/-- The events up to a failure hold the transfers before it and the one that fails (R228). -/
theorem transfersIn_failedAt {o : Bool} {n : Nat} {es : List Event} (h : n < transfersIn es) :
    transfersIn (failedAt o n es) = n + 1 := by
  fun_induction failedAt o n es with
  | case1 => simp [transfersIn] at h
  | case2 o => cases o <;> rfl
  | case3 o n ws ok es ih => exact congrArg (· + 1) (ih (Nat.lt_of_succ_lt_succ h))
  | case4 _ _ _ _ ih | case5 _ _ _ _ ih | case6 _ _ _ _ ih | case7 _ _ _ _ _ ih => exact ih h

/-- Of the transfers up to a failure only those before it succeeded. -/
theorem commandCalls_failedAt_le (o : Bool) (n : Nat) (es : List Event) : commandCalls (failedAt o n es) ≤ n := by
  fun_induction failedAt o n es with
  | case1 => exact Nat.zero_le _
  | case2 o => cases o <;> simp [commandCalls]
  | case3 o n ws ok es ih =>
    rw [commandCalls]
    split <;> omega
  | case4 _ _ _ _ ih | case5 _ _ _ _ ih | case6 _ _ _ _ ih | case7 _ _ _ _ _ ih => exact ih

/-- A body, one transfer of which fails, as a micro-operation (R224, R225): its answer is `Fail`, its events are those up to
the failure, and the buffers and `CUR` are what these events left. -/
theorem IsBody.exec_of_failure {s : State} {op : HostOp} {i : Instr} {body : List Prim → List Item} {n : Nat} {e₁ e₂ : Env}
    (hb : IsBody s op i body) (hw : Memory.wf s = true) (hn : n < transfersIn (op.bodyEvents s.cfg s.policy))
    (h₁ : s.env.afterSuccesses n = some e₁) (h₂ : e₁.answer = some (false, e₂)) :
    ∃ s', exec i s = .next (s'.setResult .failed)
      ∧ s'.trace = s.trace ++ failedAt false n (op.bodyEvents s.cfg s.policy)
      ∧ Tracked s.cb (op.rowBefore s.cfg s.policy s.rb) (failedAt false n (op.bodyEvents s.cfg s.policy)) s'
      ∧ s'.cur = op.curAfter s.policy s.cur (failedAt false n (op.bodyEvents s.cfg s.policy)) := by
  have hseen := hb.events s.who [] s rfl hw
  obtain ⟨k, s', hrun, htrace, -, -, -, -, -, -, -, -, -, hstands⟩ :=
    run_of_failure (t := s.who) 0 (hb.fails []) h₁ h₂ (by rwa [hseen])
  rw [hseen] at htrace hstands
  obtain ⟨htracked, hcur, -⟩ := hstands.tracked (hb.tracked s.who [] s rfl hw)
  refine ⟨s', ?_, htrace, htracked, hcur⟩
  rw [hb.micro, execMicro, hrun]
  simp [runExit, Ending.result]

/-! ### The cursor sequence with a failure -/

/-- Fewer than three command transfers complete no cursor sequence (R150). -/
theorem HostOp.curAfter_of_incomplete (op : HostOp) (policy : Policy) (cur : Option CursorPos) {es : List Event}
    (h : commandCalls es < 3) : op.curAfter policy cur es = cur := by
  simp [HostOp.curAfter, Nat.div_eq_of_lt h]

/-- A cursor sequence makes no call from the row buffer, up to whichever command it fails (R150). -/
theorem afterCalls_failedAt_cursorEvents (rb : Buf) (cfg : Cfg) (x y : Byte) (n : Nat) :
    rb.afterCalls dataTag (failedAt false n (cursorEvents cfg x y)) = rb := by
  obtain _ | _ | _ | n := n <;>
    simp [cursorEvents, bracket, failedAt, Buf.afterCalls, commandWords_notData]

/-- Settles O29: with at most two of its commands sent a cursor sequence is not completed, and the buffers are what its
command transfers left. -/
theorem failedCursorKeepsTheOldPosition : Obligations.FailedCursorKeepsTheOldPosition := by
  unfold Obligations.FailedCursorKeepsTheOldPosition
  intro s x y n e₁ e₂ hw hn h₁ h₂
  have hcount : n < transfersIn (cursorEvents s.cfg x y) := by rwa [transfersIn_cursor]
  obtain ⟨body, hbody⟩ := body_of_hostOp (s := s) (op := .setCursor x y) rfl
  obtain ⟨s', hexec, htrace, ⟨-, hrb⟩, hcur⟩ := hbody.exec_of_failure hw hcount h₁ h₂
  refine ⟨_, hexec, ?_, ?_, rfl, ?_⟩
  · exact hcur.trans (HostOp.curAfter_of_incomplete _ _ _ ((commandCalls_failedAt_le ..).trans_lt hn))
  · exact hrb.trans (afterCalls_failedAt_cursorEvents ..)
  · calc transfersIn s'.trace
      _ = transfersIn s.trace + transfersIn (failedAt false n (cursorEvents s.cfg x y)) := by
          rw [htrace, transfersIn_append]
          rfl
      _ = transfersIn s.trace + n + 1 := by rw [transfersIn_failedAt hcount, Nat.add_assoc]

end Sys2Proof.Machine
end

section
/-!
The full-screen clear and the line-range clear (spec/43_clear_ops.md R165 to R168): the lines that a range visits, each clear
without failure as the one state that it answers, and the backward range, which is the range of its first line alone.
-/

namespace Sys2Proof

/-! ### The lines of a range -/

theorem rangeEnd_of_lt {first last : Byte} (h : last.toNat < first.toNat) : rangeEnd first last = first := if_pos h

theorem rangeEnd_of_not_lt {first last : Byte} (h : ¬ last.toNat < first.toNat) : rangeEnd first last = last := if_neg h

theorem rangeEnd_self (line : Byte) : rangeEnd line line = line := rangeEnd_of_not_lt (lt_irrefl _)

/-- The lines by number: the end of a range is a byte, so that counting up to it never wraps (R79, D26). -/
theorem map_toNat_clearedLines (first last : Byte) :
    (clearedLines first last).map BitVec.toNat
      = (List.range ((rangeEnd first last).toNat - first.toNat + 1)).map (first.toNat + ·) := by
  rw [clearedLines, List.map_map]
  refine List.map_congr_left fun j hj => ?_
  have hcount := List.mem_range.1 hj
  have hbyte : (rangeEnd first last).toNat < 256 := (rangeEnd first last).isLt
  have hge := Machine.rangeEnd_ge first last
  exact (BitVec.toNat_ofNat ..).trans (Nat.mod_eq_of_lt (by omega))

theorem clearedLines_self (line : Byte) : clearedLines line line = [line] := by
  simp [clearedLines, rangeEnd_self]

/-- A backward range visits the lines of the range that begins and ends at its first line (R167). -/
theorem clearedLines_of_lt {first last : Byte} (h : last.toNat < first.toNat) :
    clearedLines first last = clearedLines first first := by
  rw [clearedLines, clearedLines, rangeEnd_of_lt h, rangeEnd_self]

/-- Settles O24: the lines counted up to the end of the range, which is `first` when the range is backward. -/
theorem clearedLinesAreTheRange : Obligations.ClearedLinesAreTheRange := by
  unfold Obligations.ClearedLinesAreTheRange
  intro first last
  rw [map_toNat_clearedLines]
  split
  case isTrue h => simp [rangeEnd_of_lt h]
  case isFalse h => rw [rangeEnd_of_not_lt h]

end Sys2Proof

namespace Sys2Proof.Machine

/-! ### The clears without failure -/

/-- Settles O22: the walk of the full clear, which makes the three transfers of its cursor sequence and one for each row. -/
theorem fullClearSendsEveryRow : Obligations.FullClearSendsEveryRow := by
  unfold Obligations.FullClearSendsEveryRow
  intro s e hw he
  have hcap : s.rb.cap = s.cfg.w := ((Memory.wf_iff s).1 hw).2.1
  have hrun : exec .clearallBody s = _ :=
    execMicro_of_walk (failsInto_clearall s.cfg []) (walk_clearall _ _ _ _ hw rfl) rfl (by rwa [transfersIn_clearall])
  simp only [hrun, Buf.loaded_blankRow _ _ hcap, clearallEvents, ← List.append_assoc]
  rfl

/-- Settles O23: the walk of the line clear, which makes four transfers for each line and ends at the end of the range. -/
theorem lineClearSendsEveryLine : Obligations.LineClearSendsEveryLine := by
  unfold Obligations.LineClearSendsEveryLine
  intro s first last e hw he
  have hcap : s.rb.cap = s.cfg.w := ((Memory.wf_iff s).1 hw).2.1
  have hrun : exec (.clearlinesBody first last) s = _ :=
    execMicro_of_walk (failsInto_clearlines s.cfg first last []) (walk_clearlines _ _ _ _ _ _ hw rfl) rfl
      (by rwa [transfersIn_clearlines])
  rw [hrun, Buf.loaded_blankRow _ _ hcap]
  rfl

/-! ### The backward range -/

/-- The body of the line-range clear reads its operands for the lines that it visits, and for nothing else (R166). -/
theorem exec_clearlinesBody_congr {first last first' last' : Byte} (s : State)
    (h : clearedLines first last = clearedLines first' last') :
    exec (.clearlinesBody first last) s = exec (.clearlinesBody first' last') s := by
  change execMicro (clearlinesSequence s.cfg first last []) s = execMicro (clearlinesSequence s.cfg first' last' []) s
  rw [clearlinesSequence, clearlinesSequence, h]

/-- A line-range clear of a requester is latched with the end of its range (R166, R167). -/
theorem exec_opClearlines (first last : Byte) (s : State) :
    exec (.opClearlines first last) s = runOp (.clearLines first (rangeEnd first last)) s := rfl

/-- Settles O25: a backward range and the range of its first line alone visit the same lines and have the same end. -/
theorem backwardRangeClearsOneLine : Obligations.BackwardRangeClearsOneLine := by
  unfold Obligations.BackwardRangeClearsOneLine
  intro s first last h
  have hlines := clearedLines_of_lt h
  refine ⟨hlines.trans (clearedLines_self first), exec_clearlinesBody_congr s hlines, ?_⟩
  rw [exec_opClearlines, exec_opClearlines, rangeEnd_of_lt h, rangeEnd_self]

end Sys2Proof.Machine
end

section
/-!
The text rendering (spec/44_text.md R180 to R184): the transfers of its steps by the rules' own numbers, the body without
failure as the one state that it answers, and what the policy step sends under each line-clear policy.
-/

namespace Sys2Proof.Machine

/-! ### The chunks of one call -/

/-- Bytes that fit the row buffer are sent in one call (R152). -/
theorem writeEvents_of_length_le {cfg : Cfg} {bytes : List Byte} (hne : bytes ≠ []) (h : bytes.length ≤ cfg.w) :
    writeEvents cfg bytes = [.xfer (bytes.map dataWord) true] := by
  obtain ⟨b, src, rfl⟩ := List.exists_cons_of_ne_nil hne
  have hleft : pieces cfg.w src.length [] = [] := by cases src <;> rfl
  simp only [writeEvents, chunks, List.length_cons, pieces, List.take_of_length_le h, List.drop_of_length_le h, hleft,
    List.map_cons, List.map_nil]

/-- The columns to the right of `col` fit the row buffer; there is none when `col` is `W` or more (R182). -/
theorem writeEvents_columnsRight (cfg : Cfg) (col : Byte) :
    writeEvents cfg (blanks cfg (columnsRight cfg col))
      = if col.toNat < cfg.w then [.xfer (List.replicate (cfg.w - col.toNat) (dataWord cfg.blank)) true] else [] := by
  split
  case isTrue h =>
    have hne : blanks cfg (columnsRight cfg col) ≠ [] := by simpa [blanks, columnsRight, Nat.sub_eq_zero_iff_le] using h
    rw [writeEvents_of_length_le hne (by simp [blanks, columnsRight]), blanks, List.map_replicate, columnsRight]
  case isFalse h =>
    have hnone : columnsRight cfg col = 0 := Nat.sub_eq_zero_of_le (Nat.le_of_not_lt h)
    rw [hnone]
    rfl

/-! ### How many transfers -/

/-- The calls of a bulk data write are the quotient by `W`, rounded up (R152). -/
theorem transfersIn_write_eq_div (cfg : Cfg) (bytes : List Byte) :
    transfersIn (writeEvents cfg bytes) = (bytes.length + cfg.w - 1) / cfg.w := by
  obtain ⟨-, hcount, -, -⟩ := chunks_spec cfg bytes
  rw [transfersIn_write, hcount]

/-- Every glyph has `GW` bytes, so that each takes the same number of calls (R52, R183). -/
theorem transfersIn_glyphs (cfg : Cfg) (text : List Byte) :
    transfersIn (text.flatMap fun c => writeEvents cfg (cfg.glyph c)) = text.length * ((cfg.gw + cfg.w - 1) / cfg.w) := by
  induction text with
  | nil => simp [transfersIn]
  | cons c text ih =>
    rw [List.flatMap_cons, transfersIn_append, ih, transfersIn_write_eq_div, Cfg.glyph_length, List.length_cons,
      Nat.succ_mul, Nat.add_comm]

/-- The policy step, the three commands of the cursor, the glyphs (R181). -/
theorem transfersIn_drawtext (cfg : Cfg) (policy : Policy) (line col : Byte) (text : List Byte) :
    transfersIn (drawtextEvents cfg policy line col text)
      = transfersIn (policyEvents cfg policy line col) + 3 + text.length * ((cfg.gw + cfg.w - 1) / cfg.w) := by
  simp [drawtextEvents, transfersIn_append, transfersIn_glyphs, transfersIn, Nat.add_assoc]

/-! ### The policy step, by policy -/

theorem transfersIn_policy_clearLeft (cfg : Cfg) (line col : Byte) :
    transfersIn (policyEvents cfg .clearLeft line col) = 3 + (col.toNat + cfg.w - 1) / cfg.w := by
  simp [policyEvents, transfersIn_append, transfersIn_write_eq_div, blanks, transfersIn]

theorem policyEvents_clearRight (cfg : Cfg) (line col : Byte) :
    policyEvents cfg .clearRight line col
      = cursorEvents cfg col line ++ [.sel .active]
        ++ (if col.toNat < cfg.w then [.xfer (List.replicate (cfg.w - col.toNat) (dataWord cfg.blank)) true] else [])
        ++ [.sel .inactive] := by
  rw [policyEvents, writeEvents_columnsRight]

theorem transfersIn_policy_clearRight (cfg : Cfg) (line col : Byte) :
    transfersIn (policyEvents cfg .clearRight line col) = 3 + (if col.toNat < cfg.w then 1 else 0) := by
  rw [policyEvents_clearRight]
  split <;> simp [transfersIn_append, transfersIn]

/-- The line-range clear of one line (R182, R204). -/
theorem policyEvents_clearBoth (cfg : Cfg) (line col : Byte) :
    policyEvents cfg .clearBoth line col = cursorEvents cfg 0 line ++ bracket (blankRow cfg) true := by
  simp [policyEvents, clearlinesEvents, clearedLines_self]

theorem transfersIn_policy_clearBoth (cfg : Cfg) (line col : Byte) :
    transfersIn (policyEvents cfg .clearBoth line col) = 4 := by
  simp [policyEvents_clearBoth, transfersIn_append, bracket, transfersIn]

/-! ### Text rendering without failure -/

/-- Settles O26: the walk of the text rendering, whose events say how many transfers have to succeed. -/
theorem drawTextSendsPolicyCursorGlyphs : Obligations.DrawTextSendsPolicyCursorGlyphs := by
  unfold Obligations.DrawTextSendsPolicyCursorGlyphs
  intro s line col text e hw he
  have hrun : exec (.drawtextBody line col text) s = _ :=
    execMicro_of_walk (failsInto_drawtext s.cfg s.policy line col text []) (walk_drawtext _ _ _ _ _ _ _ _ hw rfl) rfl he
  simp only [hrun, drawtextEvents, ← List.append_assoc]
  rfl

/-- Settles O27: under each policy the rules' events and their number are those of the policy step, so that the state that
the text rendering answers is the one wanted. -/
theorem policyStepBlanksItsColumns : Obligations.PolicyStepBlanksItsColumns := by
  unfold Obligations.PolicyStepBlanksItsColumns
  intro s line col text e policy transfers blanking hw hrule hpolicy he
  have hstep : policyEvents s.cfg s.policy line col = blanking
      ∧ transfersIn (policyEvents s.cfg s.policy line col) = transfers := by
    rw [hpolicy]
    simp only [List.mem_cons, List.not_mem_nil, or_false, Prod.mk.injEq] at hrule
    obtain ⟨rfl, rfl, rfl⟩ | ⟨rfl, rfl, rfl⟩ | ⟨rfl, rfl, rfl⟩ | ⟨rfl, rfl, rfl⟩ := hrule
    case inl => exact ⟨rfl, rfl⟩
    case inr.inl => exact ⟨rfl, transfersIn_policy_clearLeft ..⟩
    case inr.inr.inl => exact ⟨policyEvents_clearRight .., transfersIn_policy_clearRight ..⟩
    case inr.inr.inr => exact ⟨policyEvents_clearBoth .., transfersIn_policy_clearBoth ..⟩
  obtain ⟨rfl, rfl⟩ := hstep
  rw [← transfersIn_drawtext] at he
  exact ⟨_, drawTextSendsPolicyCursorGlyphs s line col text e hw he, rfl, rfl, rfl, rfl⟩

end Sys2Proof.Machine
end

section
/-!
Mutual exclusion (spec/45_host_ops.md R190 to R193, R205): what a step of a requester can be, said once; the discipline as
what it lets each step do to the lock, the chip-select level and the trace; and the safe states under every step.
-/

namespace Sys2Proof.Machine

/-! ### What a step of a requester can be -/

/-- Issuing a request leaves its requester's record as it was, or takes it to its Acquire (R29, R86). -/
theorem State.issue_cases {s : State} {t : Nat} {q : Requester} (hq : s.reqs[t]? = some q) :
    s.issue t = s ∨ ∃ q', s.issue t = { s with reqs := s.reqs.set t q' } ∧
      (q'.ctl = q.ctl ∨ ∃ op, q'.ctl = .waiting op 0 (hostOpSequence s.cfg s.policy op)) := by
  cases hn : q.next? with
  | none => exact .inl (by simp only [State.issue, hq, hn])
  | some next =>
    obtain ⟨r, q'⟩ := next
    cases hr : requestedOp r with
    | none =>
      exact .inr ⟨q', by simp only [State.issue, hq, hn, hr], .inl (Requester.next?_some hn).1⟩
    | some op => exact .inr ⟨_, State.issue_of_accepted hq hn hr, .inr ⟨op, rfl⟩⟩

/-- A transport that is to answer answers the next call (R262). -/
theorem Env.answer_of_answers {e : Env} (h : e.answers? = true) : ∃ ok e', e.answer = some (ok, e') := by
  unfold Env.answer
  split
  · exact ⟨_, _, rfl⟩
  case h_2 hnil =>
    have hs : e.silent = false := by simpa [Env.answers?, hnil] using h
    exact ⟨_, _, if_neg (by simp [hs])⟩

/-- The steps that requester `t` can have: to issue a request, to be granted the free lock, or to run its next
micro-operation, which is the return or needs the lock (R29, R190, R193). -/
inductive OwnStep (s : State) (t : Nat) : State → Prop
  | issue {q : Requester} (hq : s.reqs[t]? = some q) (hc : q.ctl = .idle ∨ ∃ o st, q.ctl = .done o st) :
    OwnStep s t (s.issue t)
  | grant {op : HostOp} {k : Nat} {rest : List Item} (hc : s.ctl? t = some (.waiting op k rest)) (hl : s.lock = .free) :
    OwnStep s t ((s.acquire t).setCtl t (standing op k rest))
  | prim {op : HostOp} {k : Nat} {p : Prim} {rest : List Item} (hc : s.ctl? t = some (.running op k (.prim p :: rest)))
    (hl : p.status?.isSome = true ∨ s.lock = .held t) : OwnStep s t ((p.apply t s).setCtl t (afterPrim op k p rest))
  | xfer {op : HostOp} {k : Nat} {b : BufId} {onFail : List Prim} {rest : List Item} {ok : Bool} {e : Env}
    (hc : s.ctl? t = some (.running op k (.xfer b onFail :: rest))) (hl : s.lock = .held t)
    (ha : s.env.answer = some (ok, e)) :
    OwnStep s t (((s.setEnv e).emit (.xfer (s.buf b).valid ok)).setCtl t
      (standing op (k + 1) (if ok then rest else onFail.map .prim)))

/-- THE STEP OF AN AGENT that has one, by its control record. -/
theorem ownStep_of_mem_agents {s : State} {t : Nat} (h : t ∈ s.agents) : OwnStep s t (s.stepRequester t) := by
  obtain ⟨q, hq, hstep⟩ := mem_agents.1 h
  have hctl : s.ctl? t = some q.ctl := State.ctl?_eq_some.2 ⟨q, hq, rfl⟩
  unfold Requester.hasStep at hstep
  cases hc : q.ctl with
  | idle =>
    rw [State.stepRequester_of_idle_or_done hctl (.inl hc)]
    exact .issue hq (.inl hc)
  | done o st =>
    rw [State.stepRequester_of_idle_or_done hctl (.inr ⟨o, st, hc⟩)]
    exact .issue hq (.inr ⟨o, st, hc⟩)
  | waiting op k rest =>
    rw [hc] at hstep hctl
    simp only [State.stepRequester, hctl]
    exact .grant hctl (by simpa using hstep)
  | running op k rest =>
    rw [hc] at hstep hctl
    simp only [State.stepRequester, hctl]
    match rest with
    | [] => cases hstep
    | .prim p :: rest => exact .prim hctl (by simpa using hstep)
    | .xfer b onFail :: rest =>
      obtain ⟨hl, hans⟩ : s.lock = .held t ∧ s.env.answers? = true := by simpa using hstep
      obtain ⟨ok, e, ha⟩ := Env.answer_of_answers hans
      have hown := OwnStep.xfer hctl hl ha
      simp only [State.runItem, State.transfer_of_answer b ha]
      cases ok with
      | true => exact hown
      | false => exact hown

/-- A step among some of the agents leaves a finished machine as it is, or is the step of one of them, for whom the choice
that was drawn makes no difference (R190). -/
theorem moveOne_next_of_agents {agents : List Nat} {s u : State} (hsub : ∀ t ∈ agents, t ∈ s.agents)
    (h : moveOne agents s = .next u) :
    u = s ∨ ∃ e, ∃ t ∈ agents, t ∈ (s.setEnv e).agents ∧ u = (s.setEnv e).stepRequester t := by
  obtain ⟨rfl, -⟩ | ⟨t, rfl, rfl⟩ | ⟨t, ht, rfl⟩ := moveOne_next h
  · exact .inl rfl
  · exact .inr ⟨s.env, t, List.mem_singleton_self t, hsub t (List.mem_singleton_self t), rfl⟩
  · exact .inr ⟨_, t, ht, (agents_choose s).symm ▸ hsub t ht, rfl⟩

/-! ### What the discipline lets a step do -/

/-- The chip-select level as the phase has it: active inside a bracket. -/
def Phase.level (φ : Phase) : Level := if φ.bracket then .active else .inactive

/-- A step that only touches a buffer or the cursor. -/
def Prim.quiet : Prim → Bool
  | .reset _ | .push .. | .latch .. => true
  | .sel _ | .acq | .rel | .ret _ => false

/-- Everything the discipline allows: quiet steps under the lock, a bracket opened and closed under the lock, the lock taken
and released outside a bracket, and the return without the lock (R192, R193, R205). -/
theorem Prim.phase_cases {p : Prim} {φ φ' : Phase} (h : p.phase φ = some φ') :
    (p.quiet = true ∧ φ.holds = true ∧ φ' = φ) ∨ (p = .sel .active ∧ φ = ⟨true, false⟩ ∧ φ' = ⟨true, true⟩)
      ∨ (p = .sel .inactive ∧ φ = ⟨true, true⟩ ∧ φ' = ⟨true, false⟩)
      ∨ (p = .acq ∧ φ = ⟨false, false⟩ ∧ φ' = ⟨true, false⟩) ∨ (p = .rel ∧ φ = ⟨true, false⟩ ∧ φ' = ⟨false, false⟩)
      ∨ ((∃ st, p = .ret st) ∧ φ = ⟨false, false⟩ ∧ φ' = ⟨false, false⟩) := by
  obtain ⟨holds, b⟩ := φ
  cases p with
  | reset _ | push _ _ _ | latch _ _ =>
    obtain ⟨hholds, rfl⟩ : holds = true ∧ ⟨holds, b⟩ = φ' := by simpa [Prim.phase] using h
    exact .inl ⟨rfl, hholds, rfl⟩
  | sel level =>
    cases level with
    | active =>
      obtain ⟨⟨rfl, rfl⟩, rfl⟩ : (holds = true ∧ b = false) ∧ ⟨true, true⟩ = φ' := by simpa [Prim.phase] using h
      exact .inr (.inl ⟨rfl, rfl, rfl⟩)
    | inactive =>
      obtain ⟨⟨rfl, rfl⟩, rfl⟩ : (holds = true ∧ b = true) ∧ ⟨true, false⟩ = φ' := by simpa [Prim.phase] using h
      exact .inr (.inr (.inl ⟨rfl, rfl, rfl⟩))
  | acq =>
    obtain ⟨⟨rfl, rfl⟩, rfl⟩ : (holds = false ∧ b = false) ∧ ⟨true, false⟩ = φ' := by simpa [Prim.phase] using h
    exact .inr (.inr (.inr (.inl ⟨rfl, rfl, rfl⟩)))
  | rel =>
    obtain ⟨⟨rfl, rfl⟩, rfl⟩ : (holds = true ∧ b = false) ∧ ⟨false, false⟩ = φ' := by simpa [Prim.phase] using h
    exact .inr (.inr (.inr (.inr (.inl ⟨rfl, rfl, rfl⟩))))
  | ret st =>
    obtain ⟨⟨rfl, rfl⟩, rfl⟩ : (holds = false ∧ b = false) ∧ ⟨holds, b⟩ = φ' := by simpa [Prim.phase] using h
    exact .inr (.inr (.inr (.inr (.inr ⟨⟨st, rfl⟩, rfl, rfl⟩))))

theorem Prim.events_of_quiet {p : Prim} (h : p.quiet = true) (t : Nat) : p.events t = [] := by
  cases p with
  | reset _ | push _ _ _ | latch _ _ => rfl
  | sel _ | acq | rel | ret _ => cases h

theorem Prim.apply_cs_of_quiet {p : Prim} (h : p.quiet = true) (t : Nat) (s : State) : (p.apply t s).cs = s.cs := by
  cases p with
  | reset _ | push _ _ _ => exact State.setBuf_cs ..
  | latch _ _ => rfl
  | sel _ | acq | rel | ret _ => cases h

/-- A step that the discipline allows moves the chip-select level as it moves the phase. -/
theorem Prim.apply_cs {p : Prim} {φ φ' : Phase} {t : Nat} {s : State} (hp : p.phase φ = some φ') (hc : s.cs = φ.level) :
    (p.apply t s).cs = φ'.level := by
  obtain ⟨hq, -, rfl⟩ | ⟨rfl, rfl, rfl⟩ | ⟨rfl, rfl, rfl⟩ | ⟨rfl, rfl, rfl⟩ | ⟨rfl, rfl, rfl⟩ | ⟨⟨st, rfl⟩, rfl, rfl⟩ :=
    Prim.phase_cases hp
  · rw [Prim.apply_cs_of_quiet hq, hc]
  · rfl
  · rfl
  · exact hc
  · exact hc
  · exact hc

/-- Its events are those of a serial trace there (R205). -/
theorem Prim.scanTrace_events {p : Prim} {φ φ' : Phase} (t : Nat) (hp : p.phase φ = some φ') :
    scanTrace (φ.lock t, φ.level) (p.events t) = some (φ'.lock t, φ'.level) := by
  obtain ⟨hq, -, rfl⟩ | ⟨rfl, rfl, rfl⟩ | ⟨rfl, rfl, rfl⟩ | ⟨rfl, rfl, rfl⟩ | ⟨rfl, rfl, rfl⟩ | ⟨⟨st, rfl⟩, rfl, rfl⟩ :=
    Prim.phase_cases hp
  · rw [Prim.events_of_quiet hq]
    rfl
  · rfl
  · rfl
  · rfl
  · simp [scanTrace, Prim.events, scanEvent, Phase.lock, Phase.level]
  · rfl

/-- Without the lock a disciplined sequence asks for it, or has only its return left; either way no bracket is open. -/
theorem disciplined_free {b : Bool} {items : List Item} (h : disciplined ⟨false, b⟩ items = true) :
    b = false ∧ ((∃ rest, items = .prim .acq :: rest ∧ disciplined ⟨true, false⟩ rest = true)
      ∨ ∃ st, items = [.prim (.ret st)]) := by
  match items with
  | [] => cases h
  | .xfer _ _ :: _ => cases (disciplined_xfer.1 h).1
  | .prim p :: rest =>
    obtain ⟨φ', hp, hd⟩ := disciplined_prim h
    obtain rfl | ⟨st, rfl⟩ := Prim.eq_of_phase_free hp
    · cases b with
      | true => cases hp
      | false =>
        cases hp
        exact ⟨rfl, .inl ⟨rest, rfl, hd rfl⟩⟩
    · cases b with
      | true => cases hp
      | false =>
        cases hp
        exact ⟨rfl, .inr ⟨st, by simpa [disciplined, Prim.phase, Prim.status?] using h⟩⟩

/-! ### The safe states -/

/-- A requester is safe where its disciplined sequence stands. -/
theorem Requester.safe_of_standing {q : Requester} {s : State} {t k : Nat} {op : HostOp} {rest : List Item} {φ : Phase}
    (hq : q.ctl = standing op k rest) (hl : s.lock = φ.lock t) (hc : s.cs = φ.level) (hd : disciplined φ rest = true) :
    q.safe s t = true := by
  obtain ⟨holds, b⟩ := φ
  cases holds with
  | true =>
    have hb : (s.cs == .active) = b := by
      rw [hc]
      cases b <;> rfl
    rw [standing_of_disciplined hd] at hq
    simp [Requester.safe, hq, hl, Phase.lock, hb, hd]
  | false =>
    obtain ⟨-, ⟨rest', rfl, hd'⟩ | ⟨st, rfl⟩⟩ := disciplined_free hd
    · simp [Requester.safe, hq, standing, hl, Phase.lock, hd']
    · simp [Requester.safe, hq, standing, hl, Phase.lock, returning]

theorem State.safe.requester {s : State} {t : Nat} {q : Requester} (h : s.safe) (hq : s.reqs[t]? = some q) :
    q.safe s t = true := by
  obtain ⟨-, ⟨-, -, hsafe⟩, -⟩ := h
  exact hsafe t q hq

theorem State.safe.cs_of_free {s : State} (h : s.safe) (hl : s.lock = .free) : s.cs = .inactive := by
  obtain ⟨-, ⟨hfree, -, -⟩, -⟩ := h
  exact hfree hl

/-- What is asked of a requester depends on the state by whether it holds the lock, and then by chip-select. -/
theorem Requester.safe_congr {q : Requester} {s s' : State} {u : Nat} (hl : s'.lock = .held u ↔ s.lock = .held u)
    (hc : s.lock = .held u → s'.cs = s.cs) : q.safe s' u = q.safe s u := by
  by_cases h : s.lock = .held u
  · simp [Requester.safe, h, hl.2 h, hc h]
  · have h' : s'.lock ≠ .held u := fun h' => h (hl.1 h')
    have hb : (s'.lock == .held u) = (s.lock == .held u) := by simp [h, h']
    simp only [Requester.safe, bne, hb, beq_false_of_ne h, Bool.false_eq_true, if_false]

/-- Mutual exclusion after a step of requester `t` that leaves the others' records and their hold of the lock alone. -/
theorem State.exclusive_of_ownStep {s s' : State} {t : Nat} (h : s.exclusive) (ht : t < s.reqs.length)
    (hlen : s'.reqs.length = s.reqs.length) (hothers : ∀ u, u ≠ t → s'.reqs[u]? = s.reqs[u]?)
    (hlock : ∀ u, u ≠ t → (s'.lock = .held u ↔ s.lock = .held u) ∧ (s.lock = .held u → s'.cs = s.cs))
    (hfree : s'.lock = .free → s'.cs = .inactive) (hown : ∀ q, s'.reqs[t]? = some q → q.safe s' t = true) :
    s'.exclusive := by
  obtain ⟨-, hholder, hsafe⟩ := h
  refine ⟨hfree, fun u hu => ?_, fun u q hq => ?_⟩ <;> by_cases hut : u = t
  · rw [hlen, hut]
    exact ht
  · rw [hlen]
    exact hholder u ((hlock u hut).1.1 hu)
  · subst hut
    exact hown q hq
  · rw [Requester.safe_congr (hlock u hut).1 (hlock u hut).2]
    exact hsafe u q (hothers u hut ▸ hq)

/-- A requester's record that was read exists. -/
theorem State.lt_of_ctl? {s : State} {t : Nat} {c : Ctl} (h : s.ctl? t = some c) : t < s.reqs.length := by
  obtain ⟨q, hq, -⟩ := State.ctl?_eq_some.1 h
  exact (List.getElem?_eq_some_iff.1 hq).1

theorem State.exclusive_setCtl {s s' : State} {t : Nat} {c : Ctl} (h : s.exclusive) (ht : t < s.reqs.length)
    (hreqs : s'.reqs = s.reqs)
    (hlock : ∀ u, u ≠ t → (s'.lock = .held u ↔ s.lock = .held u) ∧ (s.lock = .held u → s'.cs = s.cs))
    (hfree : s'.lock = .free → s'.cs = .inactive) (hown : ∀ q : Requester, q.ctl = c → q.safe s' t = true) :
    (s'.setCtl t c).exclusive := by
  refine State.exclusive_of_ownStep h ht (by simp [hreqs]) (fun u hu => by simp [hu.symm, hreqs]) hlock hfree fun q hq => ?_
  obtain ⟨hne, -⟩ | ⟨-, hqc⟩ := setCtl_getElem? hq
  · exact absurd rfl hne
  · exact hown q hqc

/-- A step by which requester `t` comes from one phase of its disciplined sequence to another. -/
theorem State.safe_advance {s s' : State} {t k : Nat} {op : HostOp} {rest : List Item} {φ φ' : Phase} {es : List Event}
    (h : s.safe) (ht : t < s.reqs.length) (hreqs : s'.reqs = s.reqs) (hport : s'.port = s.port) (hl : s.lock = φ.lock t)
    (hc : s.cs = φ.level) (hl' : s'.lock = φ'.lock t) (hc' : s'.cs = φ'.level) (htrace : s'.trace = s.trace ++ es)
    (hscan : scanTrace (φ.lock t, φ.level) es = some (φ'.lock t, φ'.level)) (hd : disciplined φ' rest = true) :
    (s'.setCtl t (standing op k rest)).safe := by
  obtain ⟨hp, hx, hserial⟩ := h
  have hnot : ∀ (ψ : Phase) (u : Nat), u ≠ t → ψ.lock t ≠ .held u := by
    intro ψ u hu
    unfold Phase.lock
    split
    · simpa using hu.symm
    · simp
  refine ⟨hport.trans hp, State.exclusive_setCtl hx ht hreqs (fun u hu => ?_) (fun hfree => ?_) fun q hq => ?_, ?_⟩
  · rw [hl, hl']
    exact ⟨iff_of_false (hnot φ' u hu) (hnot φ u hu), fun h => absurd h (hnot φ u hu)⟩
  · obtain ⟨holds, b⟩ := φ'
    cases holds with
    | true => exact absurd (hl'.symm.trans hfree) (by simp [Phase.lock])
    | false =>
      rw [hc', (disciplined_free hd).1]
      rfl
  · exact Requester.safe_of_standing hq hl' hc' hd
  · rw [State.serial, hl, hc] at hserial
    rw [State.serial, State.setCtl_trace, htrace, scanTrace_append, hserial, Option.bind_some, hscan]
    simp [hl', hc']

/-- The step of its own that requester `t` runs there (R193). -/
theorem State.safe_prim {s : State} {t k : Nat} {op : HostOp} {p : Prim} {rest : List Item} {φ φ' : Phase} (h : s.safe)
    (ht : t < s.reqs.length) (hl : s.lock = φ.lock t) (hc : s.cs = φ.level) (hp : p.phase φ = some φ')
    (hd : disciplined φ' rest = true) : ((p.apply t s).setCtl t (standing op k rest)).safe :=
  State.safe_advance h ht (by simp) (by simp) hl hc (Prim.apply_lock hp hl) (Prim.apply_cs hp hc) (p.apply_trace t s)
    (Prim.scanTrace_events t hp) hd

/-- A requester without the lock returns: no other is concerned (R192). -/
theorem State.safe_return {s : State} {t : Nat} {op : HostOp} {st : Status} (h : s.safe) (ht : t < s.reqs.length)
    (hl : s.lock ≠ .held t) : ((s.emit (.ret t st)).setCtl t (.done op st)).safe := by
  have hfree := h.cs_of_free
  obtain ⟨hp, hx, hserial⟩ := h
  refine ⟨hp, State.exclusive_setCtl hx ht rfl (fun u _ => ⟨Iff.rfl, fun _ => rfl⟩) hfree fun q hq => ?_, ?_⟩
  · simpa [Requester.safe, hq] using hl
  · rw [State.serial, State.setCtl_trace, State.emit_trace, scanTrace_concat hserial]
    simp [scanEvent, hl]

/-- A requester with nothing outstanding does not hold the lock, and still does not when it issues a request. -/
theorem State.safe_issue {s : State} {t : Nat} {q : Requester} (h : s.safe) (hq : s.reqs[t]? = some q)
    (hc : q.ctl = .idle ∨ ∃ o st, q.ctl = .done o st) : (s.issue t).safe := by
  have ht : t < s.reqs.length := (List.getElem?_eq_some_iff.1 hq).1
  have hl : s.lock ≠ .held t := by
    have hsafe := h.requester hq
    obtain hc | ⟨o, st, hc⟩ := hc <;> simpa [Requester.safe, hc] using hsafe
  have hfree := h.cs_of_free
  obtain ⟨hp, hx, hserial⟩ := h
  obtain hi | ⟨q', hi, hq'⟩ := State.issue_cases hq <;> rw [hi]
  · exact ⟨hp, hx, hserial⟩
  · refine ⟨hp, State.exclusive_of_ownStep hx ht (by simp) (fun u hu => List.getElem?_set_ne hu.symm)
      (fun u _ => ⟨Iff.rfl, fun _ => rfl⟩) hfree fun q'' hset => ?_, hserial⟩
    obtain rfl : q' = q'' := by simpa [ht] using hset
    obtain hsame | ⟨op, hwait⟩ := hq'
    · obtain hc | ⟨o, st, hc⟩ := hc <;> simpa [Requester.safe, hsame, hc] using hl
    · simpa [Requester.safe, hwait, disciplined_hostOpSequence] using hl

/-- A running requester of a safe state that holds the lock: its phase is as chip-select has it, and its sequence keeps the
discipline there. -/
theorem State.safe.phase_of_holder {s : State} {t k : Nat} {op : HostOp} {rest : List Item} (h : s.safe)
    (hc : s.ctl? t = some (.running op k rest)) (hl : s.lock = .held t) :
    ∃ b, s.cs = Phase.level ⟨true, b⟩ ∧ disciplined ⟨true, b⟩ rest = true := by
  obtain ⟨q, hq, hqc⟩ := State.ctl?_eq_some.1 hc
  refine ⟨s.cs == .active, ?_, by simpa [Requester.safe, hqc, hl] using h.requester hq⟩
  cases s.cs <;> rfl

/-- A running requester of a safe state that does not hold the lock has only its return left (R192). -/
theorem State.safe.returning_of_not_holder {s : State} {t k : Nat} {op : HostOp} {rest : List Item} (h : s.safe)
    (hc : s.ctl? t = some (.running op k rest)) (hl : s.lock ≠ .held t) : returning rest = true := by
  obtain ⟨q, hq, hqc⟩ := State.ctl?_eq_some.1 hc
  simpa [Requester.safe, hqc, hl] using h.requester hq

/-- Every step of a requester keeps a state safe. -/
theorem State.safe_of_ownStep {s u : State} {t : Nat} (h : s.safe) (hs : OwnStep s t u) : u.safe := by
  cases hs with
  | issue hq hc => exact State.safe_issue h hq hc
  | @grant op k rest hc hl =>
    obtain ⟨q, hq, hqc⟩ := State.ctl?_eq_some.1 hc
    have hd : disciplined ⟨true, false⟩ rest = true := by
      have hsafe := h.requester hq
      simp only [Requester.safe, hqc, Bool.and_eq_true] at hsafe
      exact hsafe.2
    exact State.safe_prim (p := .acq) (φ := ⟨false, false⟩) h (State.lt_of_ctl? hc) hl (h.cs_of_free hl) rfl hd
  | @prim op k p rest hc hl =>
    have ht := State.lt_of_ctl? hc
    by_cases hheld : s.lock = .held t
    · obtain ⟨b, hcs, hd⟩ := h.phase_of_holder hc hheld
      obtain ⟨φ', hp, hd'⟩ := disciplined_prim hd
      have hnone : p.status? = none := by
        cases p with
        | ret st => cases hp
        | reset _ | push _ _ _ | sel _ | latch _ _ | acq | rel => rfl
      simp only [afterPrim, hnone]
      exact State.safe_prim (φ := ⟨true, b⟩) h ht hheld hcs hp (hd' hnone)
    · have hret := h.returning_of_not_holder hc hheld
      unfold returning at hret
      split at hret
      · rename_i st heq
        obtain ⟨rfl, rfl⟩ : p = .ret st ∧ rest = [] := by simpa using heq
        exact State.safe_return h ht hheld
      · cases hret
  | @xfer op k b onFail rest ok e hc hl ha =>
    obtain ⟨o, hcs, hd⟩ := h.phase_of_holder hc hl
    obtain ⟨-, hfail, hrest⟩ := disciplined_xfer.1 hd
    exact State.safe_advance (φ := ⟨true, o⟩) (φ' := ⟨true, o⟩) h (State.lt_of_ctl? hc) rfl rfl hl hcs hl hcs rfl rfl
      (by cases ok <;> assumption)

/-- Settles O50: a step is a requester's own, and that keeps a state safe; what the environment is to answer has no part in
it. -/
theorem everyStepKeepsMutualExclusion : Obligations.EveryStepKeepsMutualExclusion := by
  unfold Obligations.EveryStepKeepsMutualExclusion
  intro s u h hstep
  rw [step_of_noPort h.1] at hstep
  obtain rfl | ⟨e, t, -, ht, rfl⟩ := moveOne_next_of_agents (fun _ ht => ht) hstep
  · exact h
  · exact State.safe_of_ownStep (s := s.setEnv e) h (ownStep_of_mem_agents ht)

/-- Settles O51: a running requester that does not hold the lock has only its return left. -/
theorem onlyTheHolderIsInside : Obligations.OnlyTheHolderIsInside := by
  unfold Obligations.OnlyTheHolderIsInside
  intro s t op k rest h hc hrest
  by_contra hl
  rw [h.returning_of_not_holder hc hl] at hrest
  cases hrest

end Sys2Proof.Machine
end

section
/-!
The lock at the harness port and among the requesters (spec/45_host_ops.md R190 to R193, R203, R206,
spec/70_reset_and_hazards.md R255, R256, R267, R271): who is granted it, who waits, and for how long.
-/

namespace Sys2Proof.Machine

/-! ### LOCK.ACQ and LOCK.REL -/

/-- Settles O41: the requester exists, so the lock alone decides. -/
theorem acquireTakesAFreeLock : Obligations.AcquireTakesAFreeLock := by
  unfold Obligations.AcquireTakesAFreeLock
  intro s q hq
  have hctl : s.ctl? s.who = some q.ctl := State.ctl?_eq_some.2 ⟨q, hq, rfl⟩
  refine ⟨fun hl => ?_, fun u hl => ?_⟩
  · simp only [exec, execLockAcq, hctl, hl]
    rfl
  · simp only [exec, execLockAcq, hctl, hl]

/-- Settles O42: the operation asks who holds the lock, and nothing else. -/
theorem onlyTheHolderReleases : Obligations.OnlyTheHolderReleases := by
  unfold Obligations.OnlyTheHolderReleases
  exact fun s => ⟨fun h => if_pos h, fun h => if_neg h⟩

/-- A host operation of a requester with nothing outstanding waits for a held lock (R190). -/
theorem execHost_of_held {op : HostOp} {items : List Item} {s : State} {c : Ctl} {u : Nat} (hctl : s.ctl? s.who = some c)
    (hc : c = .idle ∨ ∃ o st, c = .done o st) (hl : s.lock = .held u) :
    execHost op items s = .next (s.setCtl s.who (.waiting op 0 items)) := by
  obtain rfl | ⟨o, st, rfl⟩ := hc <;> simp only [execHost, hctl, hl]

/-- Settles O43: every host operation is the host wrapper around its sequence, and the wrapper waits. -/
theorem heldLockMakesOperationsWait : Obligations.HeldLockMakesOperationsWait := by
  unfold Obligations.HeldLockMakesOperationsWait
  intro s i op u c hop hctl hc hl
  rw [exec_of_hostOp hop, execHost_of_held hctl hc hl]

/-! ### A LOCK.ACQ that waits at the port -/

/-- With the lock held, a LOCK.ACQ of a requester that exists waits while another agent moves (R190). -/
theorem step_of_waiting_lockAcq {s : State} {r : Request} {q : Requester} {u : Nat} (hp : s.port = some r)
    (hd : decode r = .ok .lockAcq) (hq : s.reqs[s.who]? = some q) (hl : s.lock = .held u) :
    step s = moveOne s.othersAgents s := by
  rw [step_of_decode hp hd, (acquireTakesAFreeLock { s with port := none } q hq).2 u hl, portOutcome_lockHeld]

/-- Settles O56: the waiting requesters need a free lock and the finished ones have no step, so that no agent is left; the
request at the port keeps the machine from being finished. -/
theorem selfDeadlockIsStuck : Obligations.SelfDeadlockIsStuck := by
  unfold Obligations.SelfDeadlockIsStuck
  intro s r q hp hd hq hl hothers
  have hnone : s.othersAgents = [] := by
    refine List.eq_nil_iff_forall_not_mem.2 fun u hu => ?_
    obtain ⟨hag, hne⟩ := mem_othersAgents.1 hu
    obtain ⟨q', hq', hstep⟩ := mem_agents.1 hag
    obtain ⟨o, j, l, hc⟩ | hfin := hothers u q' hq' hne
    · simp [Requester.hasStep, hc, hl] at hstep
    · rw [Requester.hasStep_of_isFinished u s hfin] at hstep
      cases hstep
  rw [step_of_waiting_lockAcq hp hd hq hl, hnone]
  simp [moveOne, State.finished, hp]

/-- A requester that does not hold the held lock can only issue a request or return (R193). -/
theorem OwnStep.of_not_holder {s s' : State} {t u : Nat} (h : OwnStep s t s') (hl : s.lock = .held u) (hne : t ≠ u) :
    s' = s.issue t ∨ ∃ st c, s' = (s.emit (.ret t st)).setCtl t c := by
  have hnot : s.lock ≠ .held t := by
    rw [hl]
    simpa using hne.symm
  cases h with
  | issue => exact .inl rfl
  | grant _ hfree =>
    rw [hl] at hfree
    cases hfree
  | @prim _ _ p _ _ henabled =>
    cases p with
    | ret st => exact .inr ⟨st, _, rfl⟩
    | reset _ | push _ _ _ | sel _ | latch _ _ | acq | rel =>
      obtain hs | hheld := henabled
      · cases hs
      · exact absurd hheld hnot
  | xfer _ hheld => exact absurd hheld hnot

/-- Settles O59: the step is one of another requester. If the one that asks holds the lock, that other one does not, so that
it issues a request or returns. -/
theorem askingForTheLockStopsTheRequester : Obligations.AskingForTheLockStopsTheRequester := by
  unfold Obligations.AskingForTheLockStopsTheRequester
  intro s t r u hp hd hl hstep
  cases hq : s.reqs[s.who]? with
  | none =>
    have href : step s = .refused .noSuchRequester := by
      rw [step_of_decode hp hd]
      simp [exec, execLockAcq, State.ctl?, hq, portOutcome]
    rw [href] at hstep
    cases hstep
  | some q =>
    rw [step_of_waiting_lockAcq hp hd hq hl] at hstep
    have hsub : ∀ v ∈ s.othersAgents, v ∈ s.agents := fun v hv => (mem_othersAgents.1 hv).1
    obtain rfl | ⟨e, v, hv, hag, rfl⟩ := moveOne_next_of_agents hsub hstep
    · exact ⟨rfl, rfl, hq, fun _ => ⟨rfl, rfl, rfl, rfl, rfl, .inl rfl⟩⟩
    · have hne : v ≠ s.who := (mem_othersAgents.1 hv).2
      obtain ⟨hrecords, hport, hwho⟩ := (s.setEnv e).stepRequester_frame v
      refine ⟨hport, hwho, (hrecords s.who hne.symm).trans hq, ?_⟩
      rintro rfl
      obtain hi | ⟨st, c, hret⟩ := (ownStep_of_mem_agents hag).of_not_holder hl hne
      · obtain hsame | ⟨q', hset⟩ := (s.setEnv e).issue_eq v
        · rw [hi, hsame]
          exact ⟨rfl, rfl, rfl, rfl, rfl, .inl rfl⟩
        · rw [hi, hset]
          exact ⟨rfl, rfl, rfl, rfl, rfl, .inl rfl⟩
      · rw [hret]
        exact ⟨rfl, rfl, rfl, rfl, rfl, .inr ⟨v, st, rfl⟩⟩

/-! ### The windows of bring-up -/

/-- The steps of a sequence that fails into `exit`: quiet ones, chip-select, and transfers that do fail into it, through the
close of a bracket where one is open. -/
theorem mem_of_failsInto {exit : List Prim} {items : List Item} {o o' : Bool} {i : Item}
    (h : failsInto exit o items = some o') (hm : i ∈ items) :
    (∃ p : Prim, i = .prim p ∧ (p.quiet = true ∨ ∃ level, p = .sel level))
      ∨ ∃ b f, i = .xfer b f ∧ (f = exit ∨ f = closing exit) := by
  fun_induction failsInto exit o items with
  | case1 => cases hm
  | case2 | case7 | case8 | case9 | case11 => cases h
  | case3 _ level _ _ ih =>
    obtain rfl | hm := List.mem_cons.1 hm
    · exact .inl ⟨_, rfl, .inr ⟨level, rfl⟩⟩
    · exact ih h hm
  | case4 _ _ _ ih | case5 _ _ _ _ _ ih | case6 _ _ _ _ ih =>
    obtain rfl | hm := List.mem_cons.1 hm
    · exact .inl ⟨_, rfl, .inl rfl⟩
    · exact ih h hm
  | case10 o b rest ih =>
    obtain rfl | hm := List.mem_cons.1 hm
    · cases o with
      | true => exact .inr ⟨b, _, rfl, .inr rfl⟩
      | false => exact .inr ⟨b, _, rfl, .inl rfl⟩
    · exact ih h hm

/-- Such a sequence neither releases nor takes the lock, nor returns. -/
theorem keepsLock_of_failsInto {exit : List Prim} {items : List Item} {o o' : Bool}
    (h : failsInto exit o items = some o') :
    ∀ i ∈ items, i ≠ .prim .rel ∧ i ≠ .prim .acq ∧ ∀ st, i ≠ .prim (.ret st) := by
  intro i hm
  obtain ⟨p, rfl, hq | ⟨level, rfl⟩⟩ | ⟨b, f, rfl, -⟩ := mem_of_failsInto h hm
  · cases p with
    | reset _ | push _ _ _ | latch _ _ => simp
    | sel _ | acq | rel | ret _ => cases hq
  · simp
  · simp

/-- Settles O55: the two windows stand around the full clear, and the commands and the full clear leave the lock alone. -/
theorem bringUpHasTwoWindows : Obligations.BringUpHasTwoWindows := by
  unfold Obligations.BringUpHasTwoWindows
  intro cfg
  refine ⟨initFirst cfg (hostExit .fail), clearallSequence cfg initClearExit, initLast cfg (hostExit .fail), rfl,
    fun i hi => ?_⟩
  rw [initFirst_eq, initLast_eq, List.mem_append, List.mem_append] at hi
  obtain (hfirst | hclear) | hlast := hi
  · exact keepsLock_of_failsInto (failsInto_commandList ..) i hfirst
  · exact keepsLock_of_failsInto (failsInto_clearall ..) i hclear
  · exact keepsLock_of_failsInto (failsInto_commandList ..) i hlast

/-- The step of a requester that stands at the release of a window (R203). -/
theorem State.stepRequester_window {s : State} {t k : Nat} {op : HostOp} {rest : List Item}
    (h : s.ctl? t = some (.running op k (.prim .rel :: .prim .acq :: rest))) :
    s.stepRequester t = (s.release t).setCtl t (.waiting op (k + 2) rest) := by
  simp only [State.stepRequester, h]
  rfl

/-- The step of a waiting requester is its grant (R190). -/
theorem State.stepRequester_waiting {s : State} {t k : Nat} {op : HostOp} {rest : List Item}
    (h : s.ctl? t = some (.waiting op k rest)) : s.stepRequester t = (s.acquire t).setCtl t (standing op k rest) := by
  simp only [State.stepRequester, h]

/-- A waiting requester has a step when the lock is free (R190). -/
theorem mem_agents_of_waiting {s : State} {t k : Nat} {op : HostOp} {rest : List Item}
    (h : s.ctl? t = some (.waiting op k rest)) (hl : s.lock = .free) : t ∈ s.agents := by
  obtain ⟨q, hq, hqc⟩ := State.ctl?_eq_some.1 h
  exact mem_agents.2 ⟨q, hq, by simp [Requester.hasStep, hqc, hl]⟩

/-- Settles O54: the release leaves the other requester's record alone, and a waiting one has a step when the lock is free. -/
theorem bringUpWindowLetsOthersIn : Obligations.BringUpWindowLetsOthersIn := by
  unfold Obligations.BringUpWindowLetsOthersIn
  intro s t u k k' op' rest rest' hne ht hu
  have hwaits : (s.stepRequester t).ctl? u = some (.waiting op' k' rest') := by
    rw [State.ctl?, (s.stepRequester_frame t).1 u hne.symm]
    exact hu
  have hrel := State.stepRequester_window ht
  have hfree : (s.stepRequester t).lock = .free := by
    rw [hrel]
    rfl
  refine ⟨hfree, ?_, mem_agents_of_waiting hwaits hfree, ?_⟩
  · rw [hrel]
    exact State.setCtl_ctl? (s := s.release t) _ (State.lt_of_ctl? ht)
  · rw [State.stepRequester_waiting hwaits]
    rfl

/-! ### The unfair wait -/

/-- A choice that is made again and again, once the others are used up (R267). -/
theorem Env.choose_forever {e : Env} {n : Nat} {rest : List Nat} (hc : e.choices = [])
    (hf : e.choicesForever = n :: rest) : e.choose = (n, { e with choices := rest }) := by
  simp only [Env.choose, hc, hf]

/-- Requester 0, whose record is `p`, waits; the environment will always choose requester 1, whose record is `q` (R267). -/
structure Passed (p q : Requester) (s : State) : Prop where
  port : s.port = none
  reqs : s.reqs = [p, q]
  waits : ∃ op k rest, p.ctl = .waiting op k rest
  choices : s.env.choices = []
  forever : s.env.choicesForever = [1]

theorem Passed.ctl? {p q : Requester} {s : State} (h : Passed p q s) : s.ctl? 1 = some q.ctl := by
  simp [State.ctl?, h.reqs]

/-- Whenever requester 1 has a step, it is the machine's. -/
theorem Passed.step_eq {p q : Requester} {s : State} (h : Passed p q s) (hq : q.hasStep 1 s = true) :
    step s = .next (s.stepRequester 1) := by
  obtain ⟨op, k, rest, hp⟩ := h.waits
  have hp0 : p.hasStep 0 s = (s.lock == .free) := by simp [Requester.hasStep, hp]
  have hchoose : s.env.choose = (1, s.env) := by
    rw [Env.choose_forever h.choices h.forever, ← h.choices]
  have hagents : s.agents = if s.lock = .free then [0, 1] else [1] := by
    by_cases hl : s.lock = .free <;> simp [State.agents, h.reqs, List.range_succ, hq, hp0, hl]
  rw [step_of_noPort h.port, hagents]
  split
  · simp only [moveOne, hchoose]
    rfl
  · rfl

/-- A step of requester 1 that leaves the port and the environment alone. -/
theorem Passed.setCtl {p q : Requester} {s s' : State} (h : Passed p q s) (hport : s'.port = s.port)
    (hreqs : s'.reqs = s.reqs) (henv : s'.env = s.env) (c : Ctl) : Passed p { q with ctl := c } (s'.setCtl 1 c) where
  port := hport.trans h.port
  reqs := by simp [hreqs, h.reqs]
  waits := h.waits
  choices := henv ▸ h.choices
  forever := henv ▸ h.forever

theorem Passed.step_issue {p q q' : Requester} {s : State} {r : Request} {op : HostOp} (h : Passed p q s)
    (hc : q.ctl = .idle ∨ ∃ o st, q.ctl = .done o st) (hn : q.next? = some (r, q')) (hr : requestedOp r = some op) :
    ∃ s', step s = .next s' ∧ s'.trace = s.trace ∧ s'.lock = s.lock
      ∧ Passed p { q' with ctl := .waiting op 0 (hostOpSequence s.cfg s.policy op) } s' := by
  have hq : s.reqs[1]? = some q := by simp [h.reqs]
  rw [h.step_eq (by rw [Requester.hasStep_of_idle_or_done 1 s hc, hn]; rfl),
    State.stepRequester_of_idle_or_done h.ctl? hc, State.issue_of_accepted hq hn hr]
  exact ⟨_, rfl, rfl, rfl, h.port, by simp [h.reqs], h.waits, h.choices, h.forever⟩

theorem Passed.step_grant {p q : Requester} {s : State} {op : HostOp} {k : Nat} {rest : List Item} (h : Passed p q s)
    (hc : q.ctl = .waiting op k rest) (hl : s.lock = .free) :
    step s = .next ((s.acquire 1).setCtl 1 (standing op k rest))
      ∧ Passed p { q with ctl := standing op k rest } ((s.acquire 1).setCtl 1 (standing op k rest)) := by
  rw [h.step_eq (by simp [Requester.hasStep, hc, hl]), State.stepRequester_waiting (h.ctl?.trans (congrArg some hc))]
  exact ⟨rfl, h.setCtl (s' := s.acquire 1) rfl rfl rfl _⟩

theorem Passed.step_prim {p q : Requester} {s : State} {op : HostOp} {k : Nat} {a : Prim} {rest : List Item}
    (h : Passed p q s) (hc : q.ctl = .running op k (.prim a :: rest))
    (henabled : (a.status?.isSome || s.lock == .held 1) = true) :
    step s = .next ((a.apply 1 s).setCtl 1 (afterPrim op k a rest))
      ∧ Passed p { q with ctl := afterPrim op k a rest } ((a.apply 1 s).setCtl 1 (afterPrim op k a rest)) := by
  rw [h.step_eq (by simpa only [Requester.hasStep, hc] using henabled)]
  simp only [State.stepRequester, h.ctl?, hc, State.runItem, true_and]
  exact h.setCtl (by simp) (by simp) (by simp) _

/-- One more step before a run. -/
theorem coreRun_succ {s s' : State} (h : step s = .next s') (n : Nat) :
    Host.Core.run Sys2Proof.core (n + 1) s = Host.Core.run Sys2Proof.core n s' := by
  have h' : Sys2Proof.core.step s = .next s' := h
  simp only [Host.Core.run, h']

/-- Between two of its writes of no bytes requester 1 has nothing outstanding, and one more such write to issue. -/
def WritesNothingAgain (q : Requester) : Prop :=
  (q.ctl = .idle ∨ ∃ o st, q.ctl = .done o st) ∧ q.todo = [] ∧ q.forever = [⟨0x030000#24, []⟩]

/-- One round of the unfair wait: issue, Acquire, Release, return (R195, R267). -/
theorem Passed.round {p q : Requester} {s : State} (h : Passed p q s) (hq : WritesNothingAgain q) (hl : s.lock = .free) :
    ∃ q' s', (∀ n, Host.Core.run Sys2Proof.core (n + 4) s = Host.Core.run Sys2Proof.core n s') ∧ Passed p q' s'
      ∧ WritesNothingAgain q' ∧ s'.lock = .free ∧ s'.trace = s.trace ++ [.acq 1, .rel 1, .ret 1 .ok] := by
  obtain ⟨hc, htodo, hforever⟩ := hq
  have hr : requestedOp ⟨0x030000#24, []⟩ = some (.write []) := by decide
  obtain ⟨s₁, hstep₁, htrace, hlock, h₁⟩ := h.step_issue hc (Requester.next?_eq (.inr ⟨htodo, hforever⟩)) hr
  obtain ⟨hstep₂, h₂⟩ := h₁.step_grant rfl (hlock.trans hl)
  obtain ⟨hstep₃, h₃⟩ := h₂.step_prim (a := .rel) rfl rfl
  obtain ⟨hstep₄, h₄⟩ := h₃.step_prim (a := .ret .ok) rfl rfl
  refine ⟨_, _, fun n => ?_, h₄, ⟨.inr ⟨_, _, rfl⟩, rfl, hforever⟩, rfl, ?_⟩
  · rw [coreRun_succ hstep₁, coreRun_succ hstep₂, coreRun_succ hstep₃, coreRun_succ hstep₄]
  · simp [Prim.apply, htrace]

/-- As many rounds as one likes, with requester 0 where it stood (R267, R271). -/
theorem Passed.rounds {p q : Requester} {s : State} (h : Passed p q s) (hq : WritesNothingAgain q) (hl : s.lock = .free)
    (n : Nat) :
    ∃ u, Host.Core.run Sys2Proof.core (4 * n) s = .next u ∧ u.reqs[0]? = some p
      ∧ u.trace = s.trace ++ (List.replicate n [.acq 1, .rel 1, .ret 1 .ok]).flatten := by
  induction n generalizing q s with
  | zero => exact ⟨s, rfl, by simp [h.reqs], by simp⟩
  | succ n ih =>
    obtain ⟨q', s', hrun, h', hq', hl', htrace⟩ := h.round hq hl
    obtain ⟨u, hu, hp, hutrace⟩ := ih h' hq' hl'
    exact ⟨u, (hrun (4 * n)).trans hu, hp, by simp [hutrace, htrace, List.replicate_succ]⟩

/-- Settles O53: a waiter has a step when the lock is free, and some choice makes it the machine's; the choice of the other
requester, made again and again, passes the waiter over in every round. -/
theorem anyWaiterMayBeGranted : Obligations.AnyWaiterMayBeGranted := by
  unfold Obligations.AnyWaiterMayBeGranted
  refine ⟨fun s t op k rest hp hl hc => ?_, fun s p q op k rest hport hl hreqs hp hc htodo hforever hch hchf n => ?_⟩
  · obtain ⟨choices, e, hstep⟩ := step_of_mem_agents hp (mem_agents_of_waiting hc hl)
    rw [State.stepRequester_waiting (s := s.setEnv e) hc] at hstep
    exact ⟨choices, _, hstep, rfl, rfl, State.setCtl_ctl? (s := (s.setEnv e).acquire t) _ (State.lt_of_ctl? hc)⟩
  · exact Passed.rounds ⟨hport, hreqs, ⟨op, k, rest, hp⟩, hch, hchf⟩ ⟨hc, htodo, hforever⟩ hl n

end Sys2Proof.Machine
end

section
/-!
The host operations without failure (spec/45_host_ops.md R192 to R204): each as the one state that it answers, the sequence
of bring-up with its two windows included, and OP.CTL, whatever the transport answers.
-/

namespace Sys2Proof.Machine

/-! ### A sequence without failure in the host wrapper -/

/-- A host operation whose steps up to its last Release do not return, and whose transfers all succeed, answers the state of
their walk, with the lock released and its status returned (R192). The steps may go through windows, as bring-up's do. -/
theorem exec_hostOp_of_walk {s s' : State} {i : Instr} {op : HostOp} {items : List Item} {es : List Event} {e : Env}
    {st : Status} (hop : hostOp? i = some op)
    (hseq : hostOpSequence s.cfg s.policy op = items ++ (hostExit st).map .prim)
    (hready : s.ready = true) (hn : noReturn items = true) (hwalk : walk s.who items (s.acquire s.who) = s')
    (htrace : s'.trace = s.trace ++ [.acq s.who] ++ es) (he : s.env.afterSuccesses (transfersIn es) = some e) :
    exec i s = .next { s' with
      lock := s.lock
      env := e
      reqs := s.returned op st
      trace := s.trace ++ [.acq s.who] ++ es ++ [.rel s.who, .ret s.who st] } := by
  subst hwalk
  have hrun := run_of_successes (s := s.acquire s.who) 0 hn (by rw [seen_of_walk htrace]; exact he)
  rw [exec_of_hostOp hop, execHost_of_ready hready, State.runHost, hseq, run_append _ _ _ _ _ hn, hrun,
    State.ready_lock hready]
  simp [RunEnd.andThen, run, hostExit, Prim.status?, Prim.apply, RunEnd.ctl, State.release, State.emit, State.setCtl,
    State.setEnv, State.returned, htrace]

/-- Settles O31: the walk of the cursor sequence under the lock. -/
theorem setCursorRunsUnderTheLock : Obligations.SetCursorRunsUnderTheLock := by
  unfold Obligations.SetCursorRunsUnderTheLock
  intro s x y e hw hready he
  exact exec_hostOp_of_walk (op := .setCursor x y) rfl rfl hready (noReturn_of_failsInto (failsInto_cursor ..))
    (walk_cursor _ _ _ _ _ (s.acquire s.who) hw) rfl (by rwa [transfersIn_cursor])

/-- Settles O32: the walk of the bulk data write under the lock, which does not drive chip-select. -/
theorem hostWriteLeavesChipSelect : Obligations.HostWriteLeavesChipSelect := by
  unfold Obligations.HostWriteLeavesChipSelect
  intro s bytes e hw hready he
  obtain ⟨-, hcap, -⟩ := (Memory.wf_iff s).1 hw
  exact exec_hostOp_of_walk (op := .write bytes) rfl rfl hready (noReturn_of_failsInto (failsInto_wrdata ..))
    (walk_wrdata _ _ _ _ (s.acquire s.who) hcap) rfl he

/-- Settles O33: the walk of the full clear under the lock. -/
theorem hostFullClearRunsUnderTheLock : Obligations.HostFullClearRunsUnderTheLock := by
  unfold Obligations.HostFullClearRunsUnderTheLock
  intro s e hw hready he
  obtain ⟨-, hcap, -⟩ := (Memory.wf_iff s).1 hw
  rw [← Buf.loaded_blankRow s.cfg s.rb hcap]
  exact exec_hostOp_of_walk (op := .clearAll) rfl rfl hready (noReturn_of_failsInto (failsInto_clearall ..))
    (walk_clearall _ _ _ (s.acquire s.who) hw rfl) rfl (by rwa [transfersIn_clearall])

/-- The end of a range is no further from the start than itself (R166, R167). -/
theorem rangeEnd_rangeEnd (first last : Byte) : rangeEnd first (rangeEnd first last) = rangeEnd first last :=
  rangeEnd_of_not_lt (Nat.not_lt_of_ge (rangeEnd_ge first last))

/-- A range and the range up to its end visit the same lines. -/
theorem clearlinesEvents_rangeEnd (cfg : Cfg) (first last : Byte) :
    clearlinesEvents cfg first (rangeEnd first last) = clearlinesEvents cfg first last := by
  simp only [clearlinesEvents, clearedLines, rangeEnd_rangeEnd]

/-- Settles O34: the walk of the line clear under the lock, up to the end of the range with which it is latched. -/
theorem hostLineClearRunsUnderTheLock : Obligations.HostLineClearRunsUnderTheLock := by
  unfold Obligations.HostLineClearRunsUnderTheLock
  intro s first last e i hw hready he hi
  obtain ⟨-, hcap, -⟩ := (Memory.wf_iff s).1 hw
  have hop : hostOp? i = some (.clearLines first (rangeEnd first last)) := by
    obtain rfl | ⟨rfl, rfl⟩ := hi <;> rfl
  have hwalk := walk_clearlines s.who s.cfg first (rangeEnd first last) (hostExit .fail) (s.acquire s.who) hw rfl
  rw [rangeEnd_rangeEnd, clearlinesEvents_rangeEnd] at hwalk
  rw [← Buf.loaded_blankRow s.cfg s.rb hcap]
  exact exec_hostOp_of_walk hop rfl hready (noReturn_of_failsInto (failsInto_clearlines ..)) hwalk rfl he

/-- Settles O35: the walk of the text rendering under the lock, the policy step and every glyph in one critical section. -/
theorem hostDrawTextRunsUnderTheLock : Obligations.HostDrawTextRunsUnderTheLock := by
  unfold Obligations.HostDrawTextRunsUnderTheLock
  intro s line col text e hw hready he
  exact exec_hostOp_of_walk (op := .drawText line col text) rfl rfl hready (noReturn_of_failsInto (failsInto_drawtext ..))
    (walk_drawtext _ _ _ _ _ _ _ (s.acquire s.who) hw rfl) rfl he

/-! ### Control -/

/-- The sequence of a control request is that of its code's entry (R199). -/
theorem ctlSequence_of_legal {cfg : Cfg} {code arg : Byte} {entry : CtlEntry} (hentry : cfg.ctlEntry code = some entry)
    (hlegal : cfg.isLegal entry arg = true) : ctlSequence cfg code arg = hostSequence (command cfg entry.cmd arg) := by
  simp only [ctlSequence, hentry, hlegal, if_true]

theorem ctlSequence_of_illegal {cfg : Cfg} {code arg : Byte} {entry : CtlEntry} (hentry : cfg.ctlEntry code = some entry)
    (hlegal : cfg.isLegal entry arg = false) : ctlSequence cfg code arg = (hostExit .argRange).map .prim := by
  simp [ctlSequence, hentry, hlegal]

theorem ctlSequence_of_unknown {cfg : Cfg} {code : Byte} (arg : Byte) (hentry : cfg.ctlEntry code = none) :
    ctlSequence cfg code arg = (hostExit .notFound).map .prim := by
  simp only [ctlSequence, hentry]

/-- Settles O36: the run of one command under the lock; its answer decides which exit follows. -/
theorem controlSendsItsCommand : Obligations.ControlSendsItsCommand := by
  unfold Obligations.ControlSendsItsCommand
  intro s code arg entry ok e hw hready hentry hlegal ha
  have hn : noReturn (command s.cfg entry.cmd arg (hostExit .fail)) = true :=
    noReturn_of_failsInto (failsInto_command ..)
  have hrun := run_command s.who 0 s.cfg entry.cmd arg (hostExit .fail) (s := s.acquire s.who) hw ha
  rw [exec_of_hostOp (op := .ctl code arg) rfl, execHost_of_ready hready, State.runHost, hostOpSequence,
    ctlSequence_of_legal hentry hlegal, hostSequence, run_append _ _ _ _ _ hn, hrun, State.ready_lock hready]
  cases ok <;>
    simp [RunEnd.andThen, run, runExit, hostExit, Prim.status?, Prim.apply, RunEnd.ctl, State.release, State.emit,
      State.setCtl, State.acquire, State.returned]

/-- A control request that is rejected releases the lock and returns its status: there is nothing else in its sequence
(R207). -/
theorem exec_opCtl_of_rejected {s : State} {code arg : Byte} {st : Status} (hready : s.ready = true)
    (hseq : ctlSequence s.cfg code arg = (hostExit st).map .prim) :
    exec (.opCtl code arg) s = .next { s with
      reqs := s.returned (.ctl code arg) st
      trace := s.trace ++ [.acq s.who, .rel s.who, .ret s.who st] } := by
  have hexec : exec (.opCtl code arg) s = _ :=
    exec_hostOp_of_walk (s' := s.acquire s.who) (items := []) (es := []) rfl hseq hready rfl rfl
      (List.append_nil _).symm rfl
  rw [hexec, List.append_nil, List.append_assoc]
  rfl

/-- Settles O37: an unknown code and an illegal argument are both found before any step but the exit. -/
theorem rejectedControlTouchesNothing : Obligations.RejectedControlTouchesNothing := by
  unfold Obligations.RejectedControlTouchesNothing
  intro s code arg hready
  exact ⟨fun hentry => exec_opCtl_of_rejected hready (ctlSequence_of_unknown arg hentry),
    fun entry hentry hlegal => exec_opCtl_of_rejected hready (ctlSequence_of_illegal hentry hlegal)⟩

/-- Settles O38: the default table has one entry for each of the two codes, legal up to its command's mask. -/
theorem contrastAndRefreshUseTheirMasks : Obligations.ContrastAndRefreshUseTheirMasks := by
  unfold Obligations.ContrastAndRefreshUseTheirMasks
  intro s v hw hready htable i code c hi
  have hctl : exec i s = exec (.opCtl code v) s ∧ s.cfg.ctlEntry code = some ⟨code, c, .upToMask⟩ := by
    simp only [List.mem_cons, List.not_mem_nil, or_false, Prod.mk.injEq] at hi
    obtain ⟨rfl, rfl, rfl⟩ | ⟨rfl, rfl, rfl⟩ := hi
    · exact ⟨rfl, by rw [Cfg.ctlEntry, htable]; rfl⟩
    · exact ⟨rfl, by rw [Cfg.ctlEntry, htable]; rfl⟩
  obtain ⟨hexec, hentry⟩ := hctl
  rw [hexec]
  refine ⟨fun ok e hle ha => ?_, fun hlt => ?_⟩
  · exact controlSendsItsCommand s code v _ ok e hw hready hentry (decide_eq_true hle) ha
  · exact (rejectedControlTouchesNothing s code v hready).2 _ hentry (decide_eq_false (Nat.not_le_of_lt hlt))

end Sys2Proof.Machine
end

section
/-!
Bring-up without failure (spec/45_host_ops.md R202, R203, spec/70_reset_and_hazards.md R253): the two windows, what the
transport calls of bring-up leave in the command buffer, and the one state that OP.INIT answers.
-/

namespace Sys2Proof.Machine

/-! ### What calls leave in a buffer -/

/-- Calls that load what stands there already leave a buffer as it is. -/
theorem Buf.afterCalls_eq_self {b : Buf} {tag : Byte} {es : List Event}
    (h : ∀ ws ok, Event.xfer ws ok ∈ es → ws.all (fun w => wordTag w == tag) = true → b.loaded ws = b) :
    b.afterCalls tag es = b := by
  induction es with
  | nil => rfl
  | cons e es ih =>
    have ih := ih fun ws ok hm => h ws ok (List.mem_cons_of_mem _ hm)
    cases e with
    | xfer ws ok =>
      rw [Buf.afterCalls]
      split
      case isTrue hall => rw [h ws ok List.mem_cons_self hall, ih]
      case isFalse => exact ih
    | acq _ | rel _ | sel _ | ret _ _ => exact ih

/-- A compound command's words cover whatever the engine's command transfers have left (R73, R74, R81). -/
theorem Buf.loaded_afterCalls {cfg : Cfg} {es : List Event} (b : Buf) {ws : List Word} (h : UniformTransfers cfg es)
    (hws : ws.length = 2) : (b.afterCalls commandTag es).loaded ws = b.loaded ws := by
  induction es generalizing b with
  | nil => rfl
  | cons e es ih =>
    cases e with
    | xfer us ok =>
      obtain ⟨hu, hes⟩ := (uniformTransfers_cons_xfer ..).1 h
      rw [Buf.afterCalls, ih _ hes]
      split
      case isTrue hall =>
        refine Buf.loaded_loaded b us ws ?_
        obtain ⟨h12, -⟩ | ⟨hpos, -, hdata⟩ := hu
        · omega
        · obtain ⟨w, us, rfl⟩ := List.exists_cons_of_length_pos hpos
          have hw := hdata w List.mem_cons_self
          simp [hw, commandTag] at hall
      case isFalse => rfl
    | acq _ | rel _ | sel _ | ret _ _ => exact ih _ fun us ok hm => h us ok (List.mem_cons_of_mem _ hm)

/-- Commands load their words one after the other (R122, R123). -/
theorem Buf.afterCalls_commands (b : Buf) (cfg : Cfg) (cs : List (CmdId × Byte)) :
    b.afterCalls commandTag (commandsEvents cfg cs) = cs.foldl (fun b c => b.loaded (commandWords cfg c.1 c.2)) b := by
  induction cs generalizing b with
  | nil => rfl
  | cons c cs ih =>
    have hc := commandWords_tag cfg c.1 c.2
    rw [List.foldl_cons, ← ih]
    simp [commandsEvents, bracket, Buf.afterCalls, hc]

/-- A blank row is no command (R72, R78). -/
theorem blankRow_notCommand (cfg : Cfg) : (blankRow cfg).all (fun w => wordTag w == commandTag) = false := by
  rw [blankRow_eq]
  exact dataWords_notCommand (by simp [blanks, Cfg.w])

/-- The rows of the full clear are no calls from the command buffer (R165). -/
theorem Buf.afterCalls_clearall (b : Buf) (cfg : Cfg) :
    b.afterCalls commandTag (clearallEvents cfg) = cbAfterCursor cfg b 0 := by
  have hrows : ∀ c : Buf, c.afterCalls commandTag (List.replicate cfg.nrows (.xfer (blankRow cfg) true)) = c := fun c =>
    Buf.afterCalls_eq_self fun ws ok hm hall => by
      cases List.eq_of_mem_replicate hm
      rw [blankRow_notCommand] at hall
      cases hall
  simp only [clearallEvents, cursorEvents, bracket, Buf.afterCalls_append, Buf.afterCalls, commandWords_tag, if_true, hrows]
  rw [Buf.loaded_loaded _ _ _ (commandWords_le _ _ _ rfl rfl), Buf.loaded_loaded _ _ _ (commandWords_le _ _ _ rfl rfl)]
  rfl

/-! ### The walk through the windows -/

theorem walk_window (t : Nat) (s : State) :
    walk t (window.map .prim) s = { s with lock := .held t, trace := s.trace ++ [.rel t, .acq t] } := by
  simp [window, walk, Prim.apply, State.release, State.acquire, State.emit]

/-- The events of bring-up up to its full clear (R202, R203). -/
def bringUpToClear (cfg : Cfg) (t : Nat) : List Event :=
  commandsEvents cfg (bringUpFirst cfg.initArg) ++ [.rel t, .acq t]

/-- Bring-up up to its full clear (R202). -/
theorem walk_initFirst_window (t : Nat) (cfg : Cfg) (exit : List Prim) (s : State) (hw : Memory.wf s = true) :
    walk t (initFirst cfg exit ++ window.map .prim) s =
      { s with cb := s.cb.afterCalls commandTag (bringUpToClear cfg t)
               cs := .inactive
               lock := .held t
               trace := s.trace ++ bringUpToClear cfg t } := by
  rw [walk_append, initFirst_eq, walk_commandList _ _ _ _ _ hw, walk_window, bringUpToClear, Buf.afterCalls_append,
    Buf.afterCalls_commands]
  simp [bringUpFirst, Buf.afterCalls]

/-- The full clear of bring-up and the window after it (R202). -/
theorem walk_clearall_window (t : Nat) (cfg : Cfg) (exit : List Prim) (s : State) (hw : Memory.wf s = true)
    (hcfg : s.cfg = cfg) :
    walk t (clearallSequence cfg exit ++ window.map .prim) s =
      { s with cb := s.cb.afterCalls commandTag (clearallEvents cfg)
               rb := ⟨cfg.w, blankRow cfg⟩
               cs := .inactive
               cur := some ⟨0, 0⟩
               lock := .held t
               trace := s.trace ++ (clearallEvents cfg ++ [.rel t, .acq t]) } := by
  have hcap : s.rb.cap = cfg.w := hcfg ▸ ((Memory.wf_iff s).1 hw).2.1
  rw [walk_append, walk_clearall _ _ _ _ hw hcfg, walk_window, Buf.afterCalls_clearall, Buf.loaded_blankRow _ _ hcap]
  simp

/-- The events of bring-up up to its last five commands (R202, R203). -/
def bringUpToLast (cfg : Cfg) (t : Nat) : List Event :=
  bringUpToClear cfg t ++ (clearallEvents cfg ++ [.rel t, .acq t])

theorem bringUpEvents_eq (cfg : Cfg) (t : Nat) :
    bringUpEvents cfg t = bringUpToLast cfg t ++ commandsEvents cfg (bringUpLast cfg.initArg) := by
  simp [bringUpEvents, bringUpToLast, bringUpToClear]

/-- Bring-up up to its last five commands (R202). -/
theorem walk_initToLast (t : Nat) (cfg : Cfg) (exit exit' : List Prim) (s : State) (hw : Memory.wf s = true)
    (hcfg : s.cfg = cfg) :
    walk t (initFirst cfg exit ++ window.map .prim ++ (clearallSequence cfg exit' ++ window.map .prim)) s =
      { s with cb := s.cb.afterCalls commandTag (bringUpToLast cfg t)
               rb := ⟨cfg.w, blankRow cfg⟩
               cs := .inactive
               cur := some ⟨0, 0⟩
               lock := .held t
               trace := s.trace ++ bringUpToLast cfg t } := by
  have h₁ := walk_wf t (initFirst cfg exit ++ window.map .prim) hw
  rw [walk_append]
  rw [walk_initFirst_window _ _ _ _ hw] at h₁ ⊢
  rw [walk_clearall_window _ _ _ _ h₁ hcfg]
  simp [bringUpToLast, Buf.afterCalls_append, Buf.afterCalls]

/-! ### OP.INIT -/

/-- The window makes no transfer. -/
theorem uniformTransfers_bringUpToLast (cfg : Cfg) (t : Nat) : UniformTransfers cfg (bringUpToLast cfg t) := by
  have hwindow : UniformTransfers cfg [.rel t, .acq t] := fun _ _ h => by simp at h
  simp only [bringUpToLast, bringUpToClear, uniformTransfers_append, uniformTransfers_commands,
    uniformTransfers_clearall, hwindow, and_self]

/-- Bring-up leaves the word of its last command over the parameter of the one before (R74, R202). -/
theorem Buf.afterCalls_bringUp (b : Buf) (cfg : Cfg) (t : Nat) :
    b.afterCalls commandTag (bringUpEvents cfg t)
      = (b.loaded (commandWords cfg .vop cfg.initArg.vop)).loaded (commandWords cfg .reverse cfg.initArg.reverse) := by
  have hlast : commandsEvents cfg (bringUpLast cfg.initArg)
      = commandsEvents cfg ((bringUpLast cfg.initArg).take 3) ++ commandsEvents cfg ((bringUpLast cfg.initArg).drop 3) := rfl
  have hu : UniformTransfers cfg (bringUpToLast cfg t ++ commandsEvents cfg ((bringUpLast cfg.initArg).take 3)) :=
    (uniformTransfers_append ..).2 ⟨uniformTransfers_bringUpToLast cfg t, uniformTransfers_commands cfg _⟩
  rw [bringUpEvents_eq, hlast, ← List.append_assoc, Buf.afterCalls_append, Buf.afterCalls_commands]
  change ((Buf.afterCalls b commandTag _).loaded _).loaded _ = _
  rw [Buf.loaded_afterCalls b hu rfl]

theorem initSequence_eq (cfg : Cfg) :
    initSequence cfg = initFirst cfg (hostExit .fail) ++ window.map .prim
      ++ (clearallSequence cfg initClearExit ++ window.map .prim)
      ++ commandList cfg (bringUpLast cfg.initArg) (hostExit .fail) ++ (hostExit .ok).map .prim := by
  simp only [initSequence, initLast_eq, List.append_assoc]

/-- Bring-up does not return before its end. -/
theorem noReturn_initToLast (cfg : Cfg) :
    noReturn (initFirst cfg (hostExit .fail) ++ window.map .prim
      ++ (clearallSequence cfg initClearExit ++ window.map .prim)) = true := by
  have hwindow : noReturn (window.map .prim) = true := rfl
  simp only [noReturn_append, initFirst_eq, noReturn_of_failsInto (failsInto_commandList ..),
    noReturn_of_failsInto (failsInto_clearall ..), hwindow, Bool.and_self]

theorem transfersIn_bringUpToClear (cfg : Cfg) (t : Nat) : transfersIn (bringUpToClear cfg t) = 7 := by
  simp [bringUpToClear, transfersIn_append, transfersIn_commands, bringUpFirst, transfersIn]

theorem transfersIn_bringUpToLast (cfg : Cfg) (t : Nat) : transfersIn (bringUpToLast cfg t) = 10 + cfg.nrows := by
  simp [bringUpToLast, transfersIn_append, transfersIn_bringUpToClear, transfersIn_clearall, transfersIn]
  omega

theorem transfersIn_bringUp (cfg : Cfg) (t : Nat) : transfersIn (bringUpEvents cfg t) = 15 + cfg.nrows := by
  rw [bringUpEvents_eq, transfersIn_append, transfersIn_bringUpToLast, transfersIn_commands]
  simp [bringUpLast]
  omega

/-- The whole of bring-up up to its last Release (R202, R203). -/
theorem walk_init (t : Nat) (cfg : Cfg) (s : State) (hw : Memory.wf s = true) (hcfg : s.cfg = cfg) :
    walk t (initFirst cfg (hostExit .fail) ++ window.map .prim ++ (clearallSequence cfg initClearExit ++ window.map .prim)
        ++ commandList cfg (bringUpLast cfg.initArg) (hostExit .fail)) s =
      { s with cb := s.cb.afterCalls commandTag (bringUpEvents cfg t)
               rb := ⟨cfg.w, blankRow cfg⟩
               cs := .inactive
               cur := some ⟨0, 0⟩
               lock := .held t
               trace := s.trace ++ bringUpEvents cfg t } := by
  have h₁ := walk_wf t (initFirst cfg (hostExit .fail) ++ window.map .prim
    ++ (clearallSequence cfg initClearExit ++ window.map .prim)) hw
  rw [walk_append]
  rw [walk_initToLast _ _ _ _ _ hw hcfg] at h₁ ⊢
  rw [walk_commandList _ _ _ _ _ h₁, bringUpEvents_eq, Buf.afterCalls_append, Buf.afterCalls_commands]
  simp

/-- Settles O39: the walk of bring-up, through its windows, with no other requester in them. -/
theorem bringUpRunsItsThirteenSteps : Obligations.BringUpRunsItsThirteenSteps := by
  unfold Obligations.BringUpRunsItsThirteenSteps
  intro s e hw hready he
  rw [← Buf.afterCalls_bringUp s.cb s.cfg s.who]
  refine exec_hostOp_of_walk (op := .init) rfl (initSequence_eq s.cfg) hready ?_
    (walk_init s.who s.cfg (s.acquire s.who) hw rfl) rfl (by rwa [transfersIn_bringUp])
  rw [noReturn_append, noReturn_initToLast, noReturn_of_failsInto (failsInto_commandList ..), Bool.and_self]

end Sys2Proof.Machine
end

section
/-!
The host operations with a failure (spec/45_host_ops.md R192, R202, spec/60_exceptions.md R224, R225, R228, R239): where a
sequence stands when a transfer of it has failed, and what its exit path makes of that.
-/

namespace Sys2Proof.Machine

/-! ### Where a sequence stands -/

/-- The state `s'` comes after `s` by these events of a sequence that keeps the lock: the command buffer is what its calls
left, and chip-select is inactive again if it was. -/
structure After (s : State) (es : List Event) (s' : State) : Prop where
  trace : s'.trace = s.trace ++ es
  cb : s'.cb = s.cb.afterCalls commandTag es
  cs : s.cs = .inactive → s'.cs = .inactive
  lock : s'.lock = s.lock
  reqs : s'.reqs = s.reqs
  policy : s'.policy = s.policy
  cfg : s'.cfg = s.cfg
  port : s'.port = s.port
  who : s'.who = s.who
  result : s'.result = s.result

theorem After.trans {s s₁ s₂ : State} {a b : List Event} (h : After s a s₁) (h' : After s₁ b s₂) : After s (a ++ b) s₂ where
  trace := by rw [h'.trace, h.trace, List.append_assoc]
  cb := by rw [h'.cb, h.cb, Buf.afterCalls_append]
  cs hc := h'.cs (h.cs hc)
  lock := h'.lock.trans h.lock
  reqs := h'.reqs.trans h.reqs
  policy := h'.policy.trans h.policy
  cfg := h'.cfg.trans h.cfg
  port := h'.port.trans h.port
  who := h'.who.trans h.who
  result := h'.result.trans h.result

/-- So it does, the last of the events being a failed transfer and the close of an open bracket: a buffer holds the words
of that transfer (R225). -/
structure FailedAfter (s : State) (es : List Event) (s' : State) : Prop extends After s es s' where
  call : ∃ b ws, .xfer ws false ∈ es ∧ (s'.buf b).valid = ws

theorem After.failed {s s₁ s₂ : State} {a b : List Event} (h : After s a s₁) (h' : FailedAfter s₁ b s₂) :
    FailedAfter s (a ++ b) s₂ where
  toAfter := h.trans h'.toAfter
  call := by
    obtain ⟨c, ws, hm, hv⟩ := h'.call
    exact ⟨c, ws, List.mem_append_right _ hm, hv⟩

/-- A sequence whose transfers fail into `exit` comes there when one of them fails; the row buffer and `CUR` are what is
known of each of its transfers (R225). -/
theorem run_of_tracked_failure {t : Nat} {exit : List Prim} {items : List Item} {s : State} {es : List Event} {n : Nat}
    {e₁ e₂ : Env} {rb : Buf} {curOf : Nat → Option CursorPos} (k : Nat) (later : List Item)
    (hf : failsInto exit false items = some false) (hseen : seen t items s = es)
    (ha : AtTransfers t s.cb rb curOf [] items s) (hn : n < transfersIn es)
    (h₁ : s.env.afterSuccesses n = some e₁) (h₂ : e₁.answer = some (false, e₂)) :
    ∃ k' s', run t k (items ++ later) s = runExit t k' exit s' ∧ FailedAfter s (failedAt false n es) s' ∧ s'.env = e₂
      ∧ s'.rb = rb.afterCalls dataTag (failedAt false n es) ∧ s'.cur = curOf (commandCalls (failedAt false n es)) := by
  subst hseen
  obtain ⟨k', s', hrun, htrace, henv, hlock, hreqs, hcfg, hpolicy, hport, hwho, hresult, hcs, hstands⟩ :=
    run_of_failure (t := t) k hf h₁ h₂ hn
  obtain ⟨⟨hcb, hrb⟩, hcur, hcall⟩ := hstands.tracked ha
  refine ⟨k', s', ?_, ⟨⟨htrace, hcb, hcs, hlock, hreqs, hpolicy, hcfg, hport, hwho, hresult⟩, hcall⟩, henv, hrb, hcur⟩
  rw [run_append _ _ _ _ _ (noReturn_of_failsInto hf), hrun, runExit_andThen]

/-! ### The exit of a host operation -/

/-- The exit path `exit` ends a host operation with FAIL and the lock released, and adds these events. -/
def EndsWithFail (t : Nat) (exit : List Prim) (added : List Event) : Prop :=
  ∀ k s', ∃ k', runExit t k exit s'
    = ⟨{ s' with lock := .free, trace := s'.trace ++ added ++ [.rel t, .ret t .fail] }, k', [], .returned .fail⟩

theorem endsWithFail_hostExit (t : Nat) : EndsWithFail t (hostExit .fail) [] := by
  intro k s'
  refine ⟨k + 2, ?_⟩
  simp [hostExit, runExit, Prim.status?, Prim.apply, State.release, State.emit]

/-- Inside its full clear bring-up takes the lock once more before it leaves (R202). -/
theorem endsWithFail_initClearExit (t : Nat) : EndsWithFail t initClearExit [.rel t, .acq t] := by
  intro k s'
  refine ⟨k + 4, ?_⟩
  simp [initClearExit, window, hostExit, runExit, Prim.status?, Prim.apply, State.release, State.acquire, State.emit]

/-- A host operation that has come to such an exit path (R192, R224). -/
theorem exec_hostOp_of_exit {s s' : State} {i : Instr} {op : HostOp} {exit : List Prim} {es added : List Event} {k : Nat}
    (hop : hostOp? i = some op) (hready : s.ready = true)
    (hrun : run s.who 0 (hostOpSequence s.cfg s.policy op) (s.acquire s.who) = runExit s.who k exit s')
    (hexit : EndsWithFail s.who exit added) (h : FailedAfter (s.acquire s.who) es s') :
    ∃ t b ws, exec i s = .next t ∧ t.trace = s.trace ++ [.acq s.who] ++ es ++ (added ++ [.rel s.who, .ret s.who .fail])
      ∧ .xfer ws false ∈ es ∧ (t.buf b).valid = ws ∧ t.cb = s.cb.afterCalls commandTag es ∧ t.rb = s'.rb ∧ t.cur = s'.cur
      ∧ t.reqs = s.returned op .fail ∧ t.lock = .free ∧ (s.cs = .inactive → t.cs = .inactive)
      ∧ t.env = s'.env ∧ t.policy = s.policy ∧ t.cfg = s.cfg ∧ t.port = s.port ∧ t.who = s.who ∧ t.result = s.result := by
  obtain ⟨k', hexit⟩ := hexit k s'
  obtain ⟨b, ws, hm, hv⟩ := h.call
  rw [exec_of_hostOp hop, execHost_of_ready hready, State.runHost, hrun, hexit]
  refine ⟨_, b, ws, rfl, ?_, hm, ?_, h.cb, rfl, rfl, ?_, rfl, h.cs, rfl, h.policy, h.cfg, h.port, h.who, h.result⟩
  · simp [h.trace]
  · cases b <;> exact hv
  · simp [h.reqs, RunEnd.ctl, State.returned]

/-- Settles O30: the body comes to the exit of the host wrapper. -/
theorem firstFailureEndsAHostOperation : Obligations.FirstFailureEndsAHostOperation := by
  unfold Obligations.FirstFailureEndsAHostOperation
  intro s i j op n e₁ e₂ hw hready hop hbody hn h₁ h₂
  obtain ⟨body, hb⟩ := body_of_hostOp (s := s) hbody
  obtain ⟨k, s', hrun, hfailed, henv, hrb, hcur⟩ :=
    run_of_tracked_failure (s := s.acquire s.who) 0 ((hostExit .ok).map .prim) (hb.fails (hostExit .fail))
      (hb.events s.who _ _ rfl hw) (hb.tracked s.who _ (s.acquire s.who) rfl hw) hn h₁ h₂
  rw [← hostSequence, ← hb.host] at hrun
  obtain ⟨t, b, ws, hexec, htrace, hm, hv, hcb, hrb', hcur', hreqs, hlock, hcs, henv', hframe⟩ :=
    exec_hostOp_of_exit hop hready hrun (endsWithFail_hostExit s.who) hfailed
  exact ⟨t, _, b, ws, hexec, rfl, htrace, hm, hv, hcb, hrb'.trans hrb, hcur'.trans hcur, hreqs, hlock, hcs,
    henv'.trans henv, hframe⟩

end Sys2Proof.Machine
end

section
/-!
Bring-up with a failure (spec/45_host_ops.md R202, R203, spec/60_exceptions.md R225, R239, spec/92_eei_decisions.md D22): the
failing transfer is one of the first seven commands, of the full clear, or of the last five commands.
-/

namespace Sys2Proof.Machine

/-! ### The events up to a failure -/

/-- What was called up to a failure is among the calls of the run without failure. -/
theorem mem_of_mem_failedAt {ws : List Word} {ok o : Bool} {n : Nat} {es : List Event}
    (h : .xfer ws ok ∈ failedAt o n es) : ∃ ok', .xfer ws ok' ∈ es := by
  fun_induction failedAt o n es with
  | case1 => cases h
  | case2 o us ok' es =>
    obtain ⟨rfl, -⟩ : ws = us ∧ ok = false := by cases o <;> simpa using h
    exact ⟨ok', List.mem_cons_self⟩
  | case3 o n us ok' es ih =>
    obtain heq | hm := List.mem_cons.1 h
    · cases heq
      exact ⟨_, List.mem_cons_self⟩
    · exact (ih hm).imp fun _ => List.mem_cons_of_mem _
  | case4 _ _ _ _ ih | case5 _ _ _ _ ih | case6 _ _ _ _ ih | case7 _ _ _ _ _ ih =>
    exact (ih (List.mem_of_ne_of_mem (by simp) h)).imp fun _ => List.mem_cons_of_mem _

/-- The calls of the commands carry command words (R72). -/
theorem mem_commandsEvents {cfg : Cfg} {cs : List (CmdId × Byte)} {ws : List Word} {ok : Bool}
    (h : .xfer ws ok ∈ commandsEvents cfg cs) : ∃ c arg, ws = commandWords cfg c arg := by
  obtain ⟨c, -, hm⟩ := List.mem_flatMap.1 h
  obtain ⟨rfl, -⟩ : ws = commandWords cfg c.1 c.2 ∧ ok = true := by simpa [bracket] using hm
  exact ⟨c.1, c.2, rfl⟩

/-- The calls of the full clear carry command words, and then the blank row (R165). -/
theorem mem_clearallEvents {cfg : Cfg} {ws : List Word} {ok : Bool} (h : .xfer ws ok ∈ clearallEvents cfg) :
    (∃ c arg, ws = commandWords cfg c arg) ∨ ws = blankRow cfg := by
  have hcalls : ws = commandWords cfg .line 0 ∧ ok = true ∨ ws = commandWords cfg .colmsb (columnHigh 0) ∧ ok = true
      ∨ ws = commandWords cfg .collsb 0 ∧ ok = true ∨ cfg.nrows ≠ 0 ∧ ws = blankRow cfg ∧ ok = true := by
    simpa [clearallEvents, cursorEvents, bracket, List.mem_replicate] using h
  obtain ⟨hws, -⟩ | ⟨hws, -⟩ | ⟨hws, -⟩ | ⟨-, hws, -⟩ := hcalls
  · exact .inl ⟨_, _, hws⟩
  · exact .inl ⟨_, _, hws⟩
  · exact .inl ⟨_, _, hws⟩
  · exact .inr hws

/-- Commands leave the row buffer alone, up to whichever fails. -/
theorem Buf.afterCalls_failedAt_commands (b : Buf) (cfg : Cfg) (cs : List (CmdId × Byte)) (o : Bool) (n : Nat) :
    b.afterCalls dataTag (failedAt o n (commandsEvents cfg cs)) = b := by
  refine Buf.afterCalls_eq_self fun ws ok hm hall => ?_
  obtain ⟨ok', hm'⟩ := mem_of_mem_failedAt hm
  obtain ⟨c, arg, rfl⟩ := mem_commandsEvents hm'
  rw [commandWords_notData] at hall
  cases hall

/-- The full clear leaves one blank row in a row buffer of capacity `W`, up to whichever of its transfers fails (R165). -/
theorem Buf.afterCalls_failedAt_clearall {b : Buf} {cfg : Cfg} (hcap : b.cap = cfg.w) (o : Bool) (n : Nat) :
    (b.loaded (blankRow cfg)).afterCalls dataTag (failedAt o n (clearallEvents cfg)) = ⟨cfg.w, blankRow cfg⟩ := by
  rw [Buf.loaded_blankRow cfg b hcap]
  refine Buf.afterCalls_eq_self fun ws ok hm hall => ?_
  obtain ⟨ok', hm'⟩ := mem_of_mem_failedAt hm
  obtain ⟨c, arg, rfl⟩ | rfl := mem_clearallEvents hm'
  · rw [commandWords_notData] at hall
    cases hall
  · exact Buf.loaded_blankRow cfg _ (by simp [Buf.cap, blankRow])

/-- The full clear has addressed (0, 0) once its three commands are sent (R150, R165). -/
theorem cursorOf_failedAt_clearall (cfg : Cfg) (cur : Option CursorPos) (n : Nat) :
    cursorOf [⟨0, 0⟩] cur (commandCalls (failedAt false n (clearallEvents cfg))) = if n < 3 then cur else some ⟨0, 0⟩ := by
  split
  case isTrue h =>
    have hle := commandCalls_failedAt_le false n (clearallEvents cfg)
    rw [cursorOf, Nat.div_eq_of_lt (by omega)]
    rfl
  case isFalse h =>
    have hcursor : commandCalls (cursorEvents cfg 0 0) = 3 := by
      simp [cursorEvents, bracket, commandCalls, commandWords_tag]
    have hle : transfersIn (cursorEvents cfg 0 0) ≤ n := by
      rw [transfersIn_cursor]
      omega
    rw [clearallEvents, List.append_assoc, List.append_assoc, failedAt_append_of_le _ _ hle, commandCalls_append, hcursor,
      cursorOf, Nat.add_div_left _ (by decide)]
    simp

/-! ### The sections of bring-up -/

/-- Commands, one of which fails (R202). -/
theorem run_commands_failure {t : Nat} {exit : List Prim} {cs : List (CmdId × Byte)} {s : State} {n : Nat} {e₁ e₂ : Env}
    (k : Nat) (later : List Item) (hw : Memory.wf s = true) (hn : n < cs.length)
    (h₁ : s.env.afterSuccesses n = some e₁) (h₂ : e₁.answer = some (false, e₂)) :
    ∃ k' s', run t k (commandList s.cfg cs exit ++ later) s = runExit t k' exit s'
      ∧ FailedAfter s (failedAt false n (commandsEvents s.cfg cs)) s' ∧ s'.env = e₂ ∧ s'.rb = s.rb ∧ s'.cur = s.cur := by
  have htracked : AtTransfers t s.cb s.rb (fun _ => s.cur) [] (commandList s.cfg cs exit) s :=
    (Carries.commands (row := fun _ => True) (n := 0) cs exit [] s hw rfl trivial ⟨rfl, rfl⟩ rfl rfl).1
  obtain ⟨k', s', hrun, hfailed, henv, hrb, hcur⟩ :=
    run_of_tracked_failure k later (failsInto_commandList s.cfg cs exit) (seen_commandList t s.cfg exit cs hw) htracked
      (by rwa [transfersIn_commands]) h₁ h₂
  exact ⟨k', s', hrun, hfailed, henv, hrb.trans (Buf.afterCalls_failedAt_commands ..), hcur⟩

/-- What holds at each transfer of the full clear (R165, R225). -/
theorem atTransfers_clearall (t : Nat) (exit : List Prim) {s : State} (hw : Memory.wf s = true) :
    AtTransfers t s.cb (s.rb.loaded (blankRow s.cfg)) (cursorOf [⟨0, 0⟩] s.cur) [] (clearallSequence s.cfg exit) s := by
  have hcursor := Carries.nthCursor (t := t) (cb := s.cb) (rb := s.rb.loaded (blankRow s.cfg)) (cfg := s.cfg)
    (row := fun b => b.valid = (blanks s.cfg s.cfg.w).map dataWord) (ps := [⟨0, 0⟩]) (cur := s.cur) (j := 0) exit rfl
  have hne : blanks s.cfg s.cfg.w ≠ [] := by simp [blanks, Cfg.w]
  have hbracket := hcursor.append ((Carries.sel .active).append
    ((Carries.rows hne (closing exit) s.cfg.nrows).append (Carries.sel .inactive)))
  simpa [clearallSequence] using (hbracket.afterFill hw rfl rfl rfl).1

/-- The full clear, a transfer of which fails (R165, R202). -/
theorem run_clearall_failure {t : Nat} {exit : List Prim} {s : State} {n : Nat} {e₁ e₂ : Env} (k : Nat)
    (later : List Item) (hw : Memory.wf s = true) (hn : n < 3 + s.cfg.nrows) (h₁ : s.env.afterSuccesses n = some e₁)
    (h₂ : e₁.answer = some (false, e₂)) :
    ∃ k' s', run t k (clearallSequence s.cfg exit ++ later) s = runExit t k' exit s'
      ∧ FailedAfter s (failedAt false n (clearallEvents s.cfg)) s' ∧ s'.env = e₂
      ∧ s'.rb = ⟨s.cfg.w, blankRow s.cfg⟩ ∧ s'.cur = if n < 3 then s.cur else some ⟨0, 0⟩ := by
  have hcap : s.rb.cap = s.cfg.w := ((Memory.wf_iff s).1 hw).2.1
  have hseen : seen t (clearallSequence s.cfg exit) s = clearallEvents s.cfg :=
    seen_of_walk (by rw [walk_clearall _ _ _ _ hw rfl])
  obtain ⟨k', s', hrun, hfailed, henv, hrb, hcur⟩ :=
    run_of_tracked_failure k later (failsInto_clearall s.cfg exit) hseen (atTransfers_clearall t exit hw)
      (by rwa [transfersIn_clearall]) h₁ h₂
  exact ⟨k', s', hrun, hfailed, henv, hrb.trans (Buf.afterCalls_failedAt_clearall hcap ..),
    hcur.trans (cursorOf_failedAt_clearall ..)⟩

/-! ### Bring-up -/

/-- OP.INIT, granted at once, comes to one of its exit paths after `n` successful transfers and a failed one. -/
def BringUpStops (s : State) (n : Nat) (e : Env) : Prop :=
  ∃ exit added k s', run s.who 0 (initSequence s.cfg) (s.acquire s.who) = runExit s.who k exit s'
    ∧ EndsWithFail s.who exit added ∧ bringUpExit s.cfg s.who n = added ++ [.rel s.who, .ret s.who .fail]
    ∧ FailedAfter (s.acquire s.who) (failedAt false n (bringUpEvents s.cfg s.who)) s' ∧ s'.env = e
    ∧ s'.rb = (if n < 7 then s.rb else ⟨s.cfg.w, blankRow s.cfg⟩) ∧ s'.cur = if n < 10 then s.cur else some ⟨0, 0⟩

/-- A sequence after another one all of whose transfers succeed. -/
theorem run_after_walk {t : Nat} {a : List Item} {s s₁ : State} {es : List Event} {e : Env} (k : Nat) (b : List Item)
    (hn : noReturn a = true) (hwalk : walk t a s = s₁) (htrace : s₁.trace = s.trace ++ es)
    (he : s.env.afterSuccesses (transfersIn es) = some e) :
    run t k (a ++ b) s = run t (k + a.length) b (s₁.setEnv e) := by
  subst hwalk
  rw [← seen_of_walk htrace] at he
  rw [run_append _ _ _ _ _ hn, run_of_successes k hn he]
  rfl

/-- Successes counted in two parts. -/
theorem afterSuccesses_split {m n : Nat} {e e₁ : Env} (h : e.afterSuccesses (m + n) = some e₁) :
    ∃ e₀, e.afterSuccesses m = some e₀ ∧ e₀.afterSuccesses n = some e₁ := by
  rw [afterSuccesses_append] at h
  exact Option.bind_eq_some_iff.1 h

/-- The state in which bring-up begins its full clear, all transfers before having succeeded (R202). -/
def State.atFullClear (s : State) (e : Env) : State :=
  { s with
    cb := s.cb.afterCalls commandTag (bringUpToClear s.cfg s.who)
    cs := .inactive
    lock := .held s.who
    env := e
    trace := s.trace ++ [.acq s.who] ++ bringUpToClear s.cfg s.who }

/-- The state in which bring-up begins its last five commands (R202). -/
def State.atLastCommands (s : State) (e : Env) : State :=
  { s with
    cb := s.cb.afterCalls commandTag (bringUpToLast s.cfg s.who)
    rb := ⟨s.cfg.w, blankRow s.cfg⟩
    cs := .inactive
    cur := some ⟨0, 0⟩
    lock := .held s.who
    env := e
    trace := s.trace ++ [.acq s.who] ++ bringUpToLast s.cfg s.who }

theorem after_atFullClear (s : State) (e : Env) :
    After (s.acquire s.who) (bringUpToClear s.cfg s.who) (s.atFullClear e) :=
  ⟨rfl, rfl, fun _ => rfl, rfl, rfl, rfl, rfl, rfl, rfl, rfl⟩

theorem after_atLastCommands (s : State) (e : Env) :
    After (s.acquire s.who) (bringUpToLast s.cfg s.who) (s.atLastCommands e) :=
  ⟨rfl, rfl, fun _ => rfl, rfl, rfl, rfl, rfl, rfl, rfl, rfl⟩

theorem openAfter_bringUpToClear (cfg : Cfg) (t : Nat) : openAfter false (bringUpToClear cfg t) = false := by
  rw [bringUpToClear, openAfter_append, openAfter_commands]
  rfl

theorem openAfter_bringUpToLast (cfg : Cfg) (t : Nat) : openAfter false (bringUpToLast cfg t) = false := by
  rw [bringUpToLast, openAfter_append, openAfter_bringUpToClear, openAfter_append, openAfter_clearall]
  rfl

section
variable {s : State} {n : Nat} {e e₁ e₂ : Env} (hw : Memory.wf s = true)
include hw

/-- Bring-up up to its full clear. -/
theorem run_to_fullClear (later : List Item) (he : s.env.afterSuccesses 7 = some e) :
    Memory.wf (s.atFullClear e) = true ∧ ∃ k,
      run s.who 0 (initFirst s.cfg (hostExit .fail) ++ window.map .prim ++ later) (s.acquire s.who)
        = run s.who k later (s.atFullClear e) := by
  have hwalk := walk_initFirst_window s.who s.cfg (hostExit .fail) (s.acquire s.who) hw
  have hw₁ := walk_wf s.who (initFirst s.cfg (hostExit .fail) ++ window.map .prim) (s := s.acquire s.who) hw
  have hn : noReturn (initFirst s.cfg (hostExit .fail) ++ window.map .prim) = true := by
    rw [noReturn_append, initFirst_eq, noReturn_of_failsInto (failsInto_commandList ..)]
    rfl
  rw [hwalk] at hw₁
  exact ⟨hw₁, _, run_after_walk 0 later hn hwalk rfl (by rwa [transfersIn_bringUpToClear])⟩

/-- Bring-up up to its last five commands. -/
theorem run_to_lastCommands (later : List Item) (he : s.env.afterSuccesses (10 + s.cfg.nrows) = some e) :
    Memory.wf (s.atLastCommands e) = true ∧ ∃ k,
      run s.who 0 (initFirst s.cfg (hostExit .fail) ++ window.map .prim
        ++ (clearallSequence s.cfg initClearExit ++ window.map .prim) ++ later) (s.acquire s.who)
        = run s.who k later (s.atLastCommands e) := by
  have hwalk := walk_initToLast s.who s.cfg (hostExit .fail) initClearExit (s.acquire s.who) hw rfl
  have hw₁ := walk_wf s.who (initFirst s.cfg (hostExit .fail) ++ window.map .prim
    ++ (clearallSequence s.cfg initClearExit ++ window.map .prim)) (s := s.acquire s.who) hw
  rw [hwalk] at hw₁
  exact ⟨hw₁, _, run_after_walk 0 later (noReturn_initToLast s.cfg) hwalk rfl (by rwa [transfersIn_bringUpToLast])⟩

variable (h₂ : e₁.answer = some (false, e₂))
include h₂

/-- A failure among the first seven commands. -/
theorem bringUpStops_first (hn : n < 7) (h₁ : s.env.afterSuccesses n = some e₁) : BringUpStops s n e₂ := by
  obtain ⟨k, s', hrun, hfailed, henv, hrb, hcur⟩ :=
    run_commands_failure (t := s.who) (exit := hostExit .fail) (cs := bringUpFirst s.cfg.initArg) (s := s.acquire s.who) 0
      (window.map .prim ++ (clearallSequence s.cfg initClearExit ++ window.map .prim)
        ++ commandList s.cfg (bringUpLast s.cfg.initArg) (hostExit .fail) ++ (hostExit .ok).map .prim) hw hn h₁ h₂
  have hevents : failedAt false n (bringUpEvents s.cfg s.who)
      = failedAt false n (commandsEvents s.cfg (bringUpFirst s.cfg.initArg)) := by
    simp only [bringUpEvents, List.append_assoc]
    exact failedAt_append_of_lt _ _ (by rwa [transfersIn_commands])
  refine ⟨hostExit .fail, [], k, s', ?_, endsWithFail_hostExit s.who, if_neg (by omega), hevents ▸ hfailed, henv, ?_, ?_⟩
  · rw [← hrun, initSequence_eq, initFirst_eq]
    simp only [List.append_assoc]
    rfl
  · rw [if_pos hn]
    exact hrb
  · rw [if_pos (by omega)]
    exact hcur

/-- A failure in the full clear: the lock is taken once more (D22). -/
theorem bringUpStops_clear (hn : n < 3 + s.cfg.nrows) (h₁ : s.env.afterSuccesses (7 + n) = some e₁) :
    BringUpStops s (7 + n) e₂ := by
  obtain ⟨e₀, h₀, h₁⟩ := afterSuccesses_split h₁
  obtain ⟨hw₁, k₁, hstart⟩ := run_to_fullClear hw (clearallSequence s.cfg initClearExit ++ (window.map .prim
    ++ commandList s.cfg (bringUpLast s.cfg.initArg) (hostExit .fail) ++ (hostExit .ok).map .prim)) h₀
  obtain ⟨k, s', hrun, hfailed, henv, hrb, hcur⟩ :=
    run_clearall_failure (t := s.who) (exit := initClearExit) (s := s.atFullClear e₀) k₁ _ hw₁ hn h₁ h₂
  have hevents : failedAt false (7 + n) (bringUpEvents s.cfg s.who)
      = bringUpToClear s.cfg s.who ++ failedAt false n (clearallEvents s.cfg) := by
    rw [bringUpEvents_eq, bringUpToLast, List.append_assoc, List.append_assoc,
      failedAt_append_of_le _ _ (by rw [transfersIn_bringUpToClear]; omega), openAfter_bringUpToClear,
      transfersIn_bringUpToClear, Nat.add_sub_cancel_left, failedAt_append_of_lt _ _ (by rwa [transfersIn_clearall])]
  refine ⟨initClearExit, [.rel s.who, .acq s.who], k, s', ?_, endsWithFail_initClearExit s.who, if_pos (by omega),
    hevents ▸ (after_atFullClear s e₀).failed hfailed, henv, ?_, ?_⟩
  · rw [initSequence_eq]
    simp only [List.append_assoc] at hstart hrun ⊢
    exact hstart.trans hrun
  · rw [if_neg (by omega)]
    exact hrb
  · rw [hcur]
    simp only [show 7 + n < 10 ↔ n < 3 by omega]
    rfl

/-- A failure among the last five commands. -/
theorem bringUpStops_last (hn : n < 5) (h₁ : s.env.afterSuccesses (10 + s.cfg.nrows + n) = some e₁) :
    BringUpStops s (10 + s.cfg.nrows + n) e₂ := by
  obtain ⟨e₀, h₀, h₁⟩ := afterSuccesses_split h₁
  obtain ⟨hw₁, k₁, hstart⟩ := run_to_lastCommands hw
    (commandList s.cfg (bringUpLast s.cfg.initArg) (hostExit .fail) ++ (hostExit .ok).map .prim) h₀
  obtain ⟨k, s', hrun, hfailed, henv, hrb, hcur⟩ :=
    run_commands_failure (t := s.who) (exit := hostExit .fail) (cs := bringUpLast s.cfg.initArg)
      (s := s.atLastCommands e₀) k₁ ((hostExit .ok).map .prim) hw₁ hn h₁ h₂
  have hevents : failedAt false (10 + s.cfg.nrows + n) (bringUpEvents s.cfg s.who)
      = bringUpToLast s.cfg s.who ++ failedAt false n (commandsEvents s.cfg (bringUpLast s.cfg.initArg)) := by
    rw [bringUpEvents_eq, failedAt_append_of_le _ _ (by rw [transfersIn_bringUpToLast]; omega), openAfter_bringUpToLast,
      transfersIn_bringUpToLast, Nat.add_sub_cancel_left]
  refine ⟨hostExit .fail, [], k, s', ?_, endsWithFail_hostExit s.who, if_neg (by omega),
    hevents ▸ (after_atLastCommands s e₀).failed hfailed, henv, ?_, ?_⟩
  · rw [initSequence_eq, List.append_assoc]
    exact hstart.trans hrun
  · rw [if_neg (by omega)]
    exact hrb
  · rw [if_neg (by omega)]
    exact hcur

/-- Whichever transfer of bring-up fails first. -/
theorem bringUpStops (hn : n < 15 + s.cfg.nrows) (h₁ : s.env.afterSuccesses n = some e₁) : BringUpStops s n e₂ := by
  by_cases hfirst : n < 7
  · exact bringUpStops_first hw h₂ hfirst h₁
  · by_cases hclear : n < 10 + s.cfg.nrows
    · obtain ⟨m, rfl⟩ := Nat.exists_eq_add_of_le (Nat.le_of_not_lt hfirst)
      exact bringUpStops_clear hw h₂ (by omega) h₁
    · obtain ⟨m, rfl⟩ := Nat.exists_eq_add_of_le (Nat.le_of_not_lt hclear)
      exact bringUpStops_last hw h₂ (by omega) h₁

end

/-- Settles O40: bring-up comes to the exit of the section that the failing transfer belongs to. -/
theorem bringUpFailsAtItsFirstFailure : Obligations.BringUpFailsAtItsFirstFailure := by
  unfold Obligations.BringUpFailsAtItsFirstFailure
  intro s n e₁ e₂ hw hready hn h₁ h₂
  obtain ⟨exit, added, k, s', hrun, hexit, hadded, hfailed, henv, hrb, hcur⟩ := bringUpStops hw h₂ hn h₁
  obtain ⟨t, b, ws, hexec, htrace, hm, hv, hcb, hrb', hcur', hreqs, hlock, hcs, henv', hframe⟩ :=
    exec_hostOp_of_exit (i := .opInit) (op := .init) rfl hready hrun hexit hfailed
  exact ⟨t, _, b, ws, hexec, rfl, hadded ▸ htrace, hm, hv, hcb, hrb'.trans hrb, hcur'.trans hcur, hreqs, hlock, hcs,
    henv'.trans henv, hframe⟩

end Sys2Proof.Machine
end

section
/-!
Every host operation returns (spec/45_host_ops.md R192, R208, spec/60_exceptions.md R224, R225, R241): on every path of a
disciplined sequence, whatever a transport that answers does, the Release comes last but for the return, and the status is
FAIL exactly when a transfer failed.
-/

namespace Sys2Proof.Machine

/-! ### The status that a sequence returns -/

/-- A sequence whose last step returns `final`, and each of whose exit paths returns FAIL at its end. -/
def Returns (final : Status) (items : List Item) : Prop :=
  items.getLast? = some (.prim (.ret final)) ∧ ∀ b f, .xfer b f ∈ items → f.getLast? = some (.ret .fail)

theorem Returns.tail {final : Status} {i : Item} {rest : List Item} (h : Returns final (i :: rest)) (hne : rest ≠ []) :
    Returns final rest := by
  obtain ⟨hlast, hexits⟩ := h
  refine ⟨?_, fun b f hm => hexits b f (List.mem_cons_of_mem _ hm)⟩
  rwa [List.getLast?_cons_of_ne_nil hne] at hlast

theorem Returns.append {final : Status} {a b : List Item} (ha : ∀ c f, .xfer c f ∈ a → f.getLast? = some (.ret .fail))
    (hb : Returns final b) : Returns final (a ++ b) :=
  ⟨by simp [hb.1], fun c f hm => (List.mem_append.1 hm).elim (ha c f) (hb.2 c f)⟩

/-- Steps that cannot raise have no exit path. -/
theorem returns_prims {st : Status} {ps : List Prim} (h : ps.getLast? = some (.ret st)) : Returns st (ps.map .prim) :=
  ⟨by simp [List.getLast?_map, h], fun b f hm => by simp at hm⟩

/-- The close of an open bracket, put before an exit path, does not change how that path ends (R224). -/
theorem getLast?_of_failsInto {exit f : List Prim} {items : List Item} {o o' : Bool} {b : BufId} {st : Status}
    (h : failsInto exit o items = some o') (he : exit.getLast? = some (.ret st)) (hm : .xfer b f ∈ items) :
    f.getLast? = some (.ret st) := by
  obtain ⟨_, heq, -⟩ | ⟨_, _, heq, hexit⟩ := mem_of_failsInto h hm
  · cases heq
  · cases heq
    obtain rfl | rfl := hexit
    · exact he
    · simp [closing, List.getLast?_cons, he]

theorem returns_hostSequence {body : List Prim → List Item}
    (hf : failsInto (hostExit .fail) false (body (hostExit .fail)) = some false) : Returns .ok (hostSequence body) :=
  Returns.append (fun _ _ hm => getLast?_of_failsInto hf rfl hm) (returns_prims rfl)

theorem returns_initSequence (cfg : Cfg) : Returns .ok (initSequence cfg) := by
  have hwindow : ∀ c f, Item.xfer c f ∈ window.map .prim → f.getLast? = some (.ret .fail) := fun c f hm => by simp at hm
  simp only [initSequence_eq, List.append_assoc, initFirst_eq]
  exact .append (fun _ _ => getLast?_of_failsInto (failsInto_commandList ..) rfl)
    (.append hwindow (.append (fun _ _ => getLast?_of_failsInto (failsInto_clearall ..) rfl)
      (.append hwindow (.append (fun _ _ => getLast?_of_failsInto (failsInto_commandList ..) rfl) (returns_prims rfl)))))

/-- Without a failure a host operation returns OK, but for the control request, which may be rejected (R241). -/
theorem returns_hostOpSequence (cfg : Cfg) (policy : Policy) (op : HostOp) :
    ∃ final, final ≠ .fail ∧ op.mayEndWith final = true ∧ Returns final (hostOpSequence cfg policy op) := by
  cases op with
  | init => exact ⟨.ok, by decide, rfl, returns_initSequence cfg⟩
  | setCursor x y => exact ⟨.ok, by decide, rfl, returns_hostSequence (failsInto_cursor ..)⟩
  | write bytes => exact ⟨.ok, by decide, by cases bytes <;> rfl, returns_hostSequence (failsInto_wrdata ..)⟩
  | clearAll => exact ⟨.ok, by decide, rfl, returns_hostSequence (failsInto_clearall ..)⟩
  | clearLines first last => exact ⟨.ok, by decide, rfl, returns_hostSequence (failsInto_clearlines ..)⟩
  | drawText line col text => exact ⟨.ok, by decide, rfl, returns_hostSequence (failsInto_drawtext ..)⟩
  | ctl code arg =>
    simp only [hostOpSequence, ctlSequence]
    split
    · exact ⟨.notFound, by decide, rfl, returns_prims rfl⟩
    · split
      · exact ⟨.ok, by decide, rfl, returns_hostSequence (failsInto_command ..)⟩
      · exact ⟨.argRange, by decide, rfl, returns_prims rfl⟩

/-- An operation with a transfer may end with FAIL: a write of no bytes has none (R241). -/
theorem mayFail_of_xfer {cfg : Cfg} {policy : Policy} {op : HostOp} {b : BufId} {f : List Prim}
    (h : .xfer b f ∈ hostOpSequence cfg policy op) : op.mayEndWith .fail = true := by
  cases op with
  | write bytes =>
    cases bytes with
    | nil => simp [hostOpSequence, hostSequence, wrdataSequence, wrdataLoop] at h
    | cons => rfl
  | init | setCursor | clearAll | clearLines | drawText | ctl => rfl

/-! ### The run of a disciplined sequence -/

theorem noFailure_append (a b : List Event) : noFailure (a ++ b) = (noFailure a && noFailure b) := List.all_append

/-- The Release that freed the lock, where the phase is without it. -/
def Phase.released (φ : Phase) (t : Nat) : List Event := if φ.holds then [] else [.rel t]

/-- A run from `s`, where the phase is `φ`, returns `st` with the lock free and chip-select inactive; the return comes right
after a Release, and `before` are the events before the two, from the Release that has freed the lock on (R192). -/
structure EndsReturned (t : Nat) (φ : Phase) (s : State) (r : RunEnd) (st : Status) (before : List Event) : Prop where
  ending : r.ending = .returned st
  lock : r.state.lock = .free
  cs : r.state.cs = .inactive
  trace : ∃ added, r.state.trace = s.trace ++ added ∧ φ.released t ++ added = before ++ [.rel t, .ret t st]

theorem EndsReturned.cons {t : Nat} {φ φ' : Phase} {s s₁ : State} {r : RunEnd} {st : Status} {es pre before : List Event}
    (h : EndsReturned t φ' s₁ r st before) (htrace : s₁.trace = s.trace ++ es)
    (hpre : φ.released t ++ es = pre ++ φ'.released t) : EndsReturned t φ s r st (pre ++ before) := by
  obtain ⟨hend, hlock, hcs, added, hadded, hlast⟩ := h
  refine ⟨hend, hlock, hcs, es ++ added, by rw [hadded, htrace, List.append_assoc], ?_⟩
  rw [← List.append_assoc, hpre, List.append_assoc, hlast, List.append_assoc]

/-- A step that the discipline allows, but for the return, adds events that are no failures. -/
theorem Prim.released_events {p : Prim} {φ φ' : Phase} (t : Nat) (hp : p.phase φ = some φ') (hs : p.status? = none) :
    ∃ pre, φ.released t ++ p.events t = pre ++ φ'.released t ∧ noFailure pre = true := by
  obtain ⟨hq, -, rfl⟩ | ⟨rfl, rfl, rfl⟩ | ⟨rfl, rfl, rfl⟩ | ⟨rfl, rfl, rfl⟩ | ⟨rfl, rfl, rfl⟩ | ⟨⟨st, rfl⟩, -⟩ :=
    Prim.phase_cases hp
  · exact ⟨[], by simp [Prim.events_of_quiet hq], rfl⟩
  · exact ⟨[.sel .active], rfl, rfl⟩
  · exact ⟨[.sel .inactive], rfl, rfl⟩
  · exact ⟨[.rel t, .acq t], rfl, rfl⟩
  · exact ⟨[], rfl, rfl⟩
  · cases hs

theorem Prim.eq_ret_of_status? {p : Prim} {st : Status} (h : p.status? = some st) : p = .ret st := by
  cases p with
  | ret st' => exact congrArg Prim.ret (Option.some.inj h)
  | reset _ | push _ _ _ | sel _ | latch _ _ | acq | rel => cases h

/-- The status is that of the path taken: FAIL when a transfer has failed, and the sequence's own otherwise. -/
def StatusTells (final st : Status) (before : List Event) (items : List Item) : Prop :=
  (noFailure before = true ∧ st = final) ∨ (noFailure before = false ∧ st = .fail ∧ ∃ b f, .xfer b f ∈ items)

theorem StatusTells.cons {final st : Status} {pre before : List Event} {items : List Item} (i : Item)
    (h : StatusTells final st before items) (hpre : noFailure pre = true) :
    StatusTells final st (pre ++ before) (i :: items) := by
  obtain ⟨hb, hst⟩ | ⟨hb, hst, b, f, hm⟩ := h
  · exact .inl ⟨by rw [noFailure_append, hpre, hb]; rfl, hst⟩
  · exact .inr ⟨by rw [noFailure_append, hb, Bool.and_false], hst, b, f, List.mem_cons_of_mem _ hm⟩

/-- From every state in which the discipline lets requester `t` run the sequence, and a transport that answers, the run
returns. -/
def RunReturns (t : Nat) (items : List Item) : Prop :=
  ∀ (final : Status) (k : Nat) (s : State) (φ : Phase), s.lock = φ.lock t → s.cs = φ.level → s.env.silent = false →
    disciplined φ items = true → Returns final items →
    ∃ st before, EndsReturned t φ s (run t k items s) st before ∧ StatusTells final st before items

theorem RunReturns.nil (t : Nat) : RunReturns t [] := fun _ _ _ _ _ _ _ hd _ => by cases hd

theorem RunReturns.prim {t : Nat} {rest : List Item} (hrest : RunReturns t rest) (p : Prim) :
    RunReturns t (.prim p :: rest) := by
  intro final k s φ hl hc hsilent hd hret
  obtain ⟨φ', hp, hd'⟩ := disciplined_prim hd
  cases hs : p.status? with
  | none =>
    have hne : rest ≠ [] := by
      rintro rfl
      cases hd' hs
    obtain ⟨pre, hpre, hok⟩ := Prim.released_events t hp hs
    obtain ⟨st, before, hends, htells⟩ := hrest final (k + 1) (p.apply t s) φ' (Prim.apply_lock hp hl) (Prim.apply_cs hp hc)
      (by simpa using hsilent) (hd' hs) (hret.tail hne)
    simp only [run, hs]
    exact ⟨st, pre ++ before, hends.cons (p.apply_trace t s) hpre, htells.cons _ hok⟩
  | some st =>
    obtain rfl := Prim.eq_ret_of_status? hs
    obtain ⟨holds, b⟩ := φ
    cases holds with
    | true => cases hp
    | false =>
      obtain ⟨rfl, ⟨rest', heq, -⟩ | ⟨st', heq⟩⟩ := disciplined_free hd
      · cases heq
      · cases heq
        obtain rfl : st = final := by simpa using hret.1
        exact ⟨st, [], ⟨rfl, hl, hc, [.ret t st], rfl, rfl⟩, .inl ⟨rfl, rfl⟩⟩

theorem RunReturns.exit (t : Nat) (exit : List Prim) : RunReturns t (exit.map .prim) := by
  induction exit with
  | nil => exact RunReturns.nil t
  | cons p ps ih => exact ih.prim p

theorem RunReturns.xfer {t : Nat} {rest : List Item} (hrest : RunReturns t rest) (b : BufId) (onFail : List Prim) :
    RunReturns t (.xfer b onFail :: rest) := by
  intro final k s φ hl hc hsilent hd hret
  obtain ⟨hholds, hfail, hdrest⟩ := disciplined_xfer.1 hd
  obtain ⟨ok, e, ha, hsilent'⟩ := Env.answer_of_answering hsilent
  have hpre : ∀ ok, φ.released t ++ [.xfer (s.buf b).valid ok] = [.xfer (s.buf b).valid ok] ++ φ.released t := by
    simp [Phase.released, hholds]
  cases ok with
  | true =>
    have hne : rest ≠ [] := by
      rintro rfl
      cases hdrest
    obtain ⟨st, before, hends, htells⟩ :=
      hrest final (k + 1) ((s.setEnv e).emit (.xfer (s.buf b).valid true)) φ hl hc hsilent' hdrest (hret.tail hne)
    simp only [run, State.transfer_of_answer b ha]
    exact ⟨st, _, hends.cons rfl (hpre true), htells.cons _ rfl⟩
  | false =>
    obtain ⟨st, before, hends, htells⟩ :=
      RunReturns.exit t onFail .fail (k + 1) ((s.setEnv e).emit (.xfer (s.buf b).valid false)) φ hl hc hsilent' hfail
        (returns_prims (hret.2 b onFail List.mem_cons_self))
    have hst : st = .fail := by obtain ⟨-, h⟩ | ⟨-, h, -⟩ := htells <;> exact h
    simp only [run, State.transfer_of_answer b ha, runExit_eq_run t (k + 1) _ hfail]
    exact ⟨st, _, hends.cons rfl (hpre false), .inr ⟨rfl, hst, b, onFail, List.mem_cons_self⟩⟩

/-- EVERY PATH OF A DISCIPLINED SEQUENCE RETURNS. -/
theorem runReturns (t : Nat) (items : List Item) : RunReturns t items := by
  induction items with
  | nil => exact RunReturns.nil t
  | cons i rest ih =>
    cases i with
    | prim p => exact ih.prim p
    | xfer b onFail => exact ih.xfer b onFail

/-- Settles O44: the sequence of a host operation is disciplined and is granted at once, so that its run returns; the status
is the one of the path taken. -/
theorem everyHostOperationReturns : Obligations.EveryHostOperationReturns := by
  unfold Obligations.EveryHostOperationReturns
  intro s i op hop hready hcs hsilent
  obtain ⟨final, hfinal, hmay, hret⟩ := returns_hostOpSequence s.cfg s.policy op
  obtain ⟨st, before, ⟨hend, hlock, hcs', added, htrace, hlast⟩, htells⟩ :=
    runReturns s.who _ final 0 (s.acquire s.who) ⟨true, false⟩ rfl hcs hsilent
      (disciplined_hostOpSequence s.cfg s.policy op) hret
  obtain ⟨-, hpolicy, hreqs, -⟩ := run_frame s.who 0 (hostOpSequence s.cfg s.policy op) (s.acquire s.who)
  obtain rfl : added = _ := hlast
  refine ⟨_, st, before, (exec_of_hostOp hop s).trans (execHost_of_ready hready _ _), hlock, hcs', hpolicy, ?_, ?_, ?_, ?_⟩
  · simp [State.runHost, RunEnd.ctl, hend, State.returned, hreqs]
  · obtain ⟨-, rfl⟩ | ⟨-, rfl, b, f, hm⟩ := htells
    · exact hmay
    · exact mayFail_of_xfer hm
  · simp [State.runHost, htrace]
  · obtain ⟨hb, rfl⟩ | ⟨hb, rfl, -⟩ := htells
    · simp [hb, hfinal]
    · simp [hb]

end Sys2Proof.Machine
end

section
/-!
The bodies with a failure, as micro-operations of the harness (spec/60_exceptions.md R221, R224, R225, R228): the exit path of
a body has no step, so that the state at its failure is the one answered, with `Fail` as the result.
-/

namespace Sys2Proof.Machine

/-- A micro-operation whose sequence comes to the empty exit path answers `Fail` (spec/41_command_encoder.md R122). -/
theorem execMicro_of_exit {items : List Item} {s s' : State} {k : Nat}
    (h : run s.who 0 items s = runExit s.who k [] s') : execMicro items s = .next (s'.setResult .failed) := by
  simp [execMicro, h, runExit, Ending.result]

/-- Settles O28: the body comes to its exit path, and the answer differs from the state there in the result alone. -/
theorem firstFailureEndsABody : Obligations.FirstFailureEndsABody := by
  unfold Obligations.FirstFailureEndsABody
  intro s op i n e₁ e₂ hw hbody hn h₁ h₂
  obtain ⟨body, hb⟩ := body_of_hostOp (s := s) hbody
  obtain ⟨k, s', hrun, hfailed, henv, hrb, hcur⟩ :=
    run_of_tracked_failure 0 [] (hb.fails []) (hb.events s.who _ _ rfl hw) (hb.tracked s.who _ s rfl hw) hn h₁ h₂
  rw [List.append_nil] at hrun
  obtain ⟨b, ws, hm, hv⟩ := hfailed.call
  have hvalid : ((s'.setResult .failed).buf b).valid = ws := by cases b <;> exact hv
  exact ⟨_, _, b, ws, hb.micro.trans (execMicro_of_exit hrun), rfl, hfailed.trace, hm, hvalid, hfailed.cb, hrb, hcur, rfl,
    henv, hfailed.cs, hfailed.lock, hfailed.reqs, hfailed.policy, hfailed.cfg, hfailed.port, hfailed.who⟩

end Sys2Proof.Machine
end

section
/-!
How a run of the requesters ends (spec/70_reset_and_hazards.md R262, R271): finished, with the lock free and chip-select
inactive, or stuck, as at a transfer that is never answered.
-/

namespace Sys2Proof.Machine

/-! ### Finished -/

/-- A finished requester has nothing outstanding (R271). -/
theorem Requester.ctl_of_isFinished {q : Requester} (h : q.isFinished = true) :
    q.ctl = .idle ∨ ∃ o st, q.ctl = .done o st := by
  unfold Requester.isFinished at h
  split at h
  case h_1 hc => exact .inl hc
  case h_2 o st hc => exact .inr ⟨o, st, hc⟩
  case h_3 | h_4 => cases h

theorem State.isFinished_of_finished {s : State} {t : Nat} {q : Requester} (h : s.finished = true)
    (hq : s.reqs[t]? = some q) : q.isFinished = true := by
  obtain ⟨-, hall⟩ : s.port.isNone = true ∧ s.reqs.all Requester.isFinished = true := by simpa [State.finished] using h
  exact List.all_eq_true.1 hall q (List.mem_of_getElem? hq)

/-- In a safe state a requester with nothing outstanding does not hold the lock (R193). -/
theorem State.safe.not_holder {s : State} {t : Nat} {q : Requester} (h : s.safe) (hq : s.reqs[t]? = some q)
    (hc : q.ctl = .idle ∨ ∃ o st, q.ctl = .done o st) : s.lock ≠ .held t := by
  have hsafe := h.requester hq
  obtain hc | ⟨o, st, hc⟩ := hc <;> simpa [Requester.safe, hc] using hsafe

/-- In a safe state the holder of the lock is a requester (R193). -/
theorem State.safe.holder_exists {s : State} {t : Nat} (h : s.safe) (hl : s.lock = .held t) :
    ∃ q, s.reqs[t]? = some q := by
  obtain ⟨-, ⟨-, hholder, -⟩, -⟩ := h
  exact ⟨_, List.getElem?_eq_getElem (hholder t hl)⟩

/-- Settles O52: a holder would be a requester with something outstanding, and chip-select is inactive under a free lock. -/
theorem finishedRunsReleaseEverything : Obligations.FinishedRunsReleaseEverything := by
  unfold Obligations.FinishedRunsReleaseEverything
  intro s h hfin
  have hfree : s.lock = .free := by
    cases hl : s.lock with
    | free => rfl
    | held t =>
      obtain ⟨q, hq⟩ := h.holder_exists hl
      have hc := Requester.ctl_of_isFinished (State.isFinished_of_finished hfin hq)
      exact absurd hl (h.not_holder hq hc)
  exact ⟨hfree, h.cs_of_free hfree⟩

/-! ### Stuck -/

/-- While the lock is held, neither a waiting requester nor a finished one has a step (R190). -/
theorem Requester.hasStep_of_waiting_or_finished {q : Requester} {s : State} {t : Nat} (u : Nat) (hl : s.lock = .held t)
    (h : (∃ o j l, q.ctl = .waiting o j l) ∨ q.isFinished = true) : q.hasStep u s = false := by
  obtain ⟨o, j, l, hc⟩ | hfin := h
  · simp [Requester.hasStep, hc, hl]
  · exact Requester.hasStep_of_isFinished u s hfin

/-- A transport that gives no answer is not to answer (R262). -/
theorem Env.answers?_of_answer_none {e : Env} (h : e.answer = none) : e.answers? = false := by
  by_contra hans
  obtain ⟨ok, e', ha⟩ := Env.answer_of_answers (Bool.not_eq_false _ ▸ hans)
  rw [h] at ha
  cases ha

/-- A requester at a transfer that is never answered has no step (R262). -/
theorem Requester.hasStep_of_silent_transfer {q : Requester} {s : State} {op : HostOp} {k : Nat} {b : BufId}
    {onFail : List Prim} {rest : List Item} (t : Nat) (hc : q.ctl = .running op k (.xfer b onFail :: rest))
    (ha : s.env.answer = none) : q.hasStep t s = false := by
  simp [Requester.hasStep, hc, Env.answers?_of_answer_none ha]

/-- A machine none of whose requesters has a step, and one of which is not finished, is stuck (R271). -/
theorem step_stuck_of_no_step {s : State} {t : Nat} {q : Requester} (hp : s.port = none)
    (hnone : ∀ (u : Nat) (q' : Requester), s.reqs[u]? = some q' → q'.hasStep u s = false) (hq : s.reqs[t]? = some q)
    (hfin : q.isFinished = false) : step s = .fault .stuck := by
  have hagents : s.agents = [] := by
    refine List.eq_nil_iff_forall_not_mem.2 fun u hu => ?_
    obtain ⟨q', hq', hstep⟩ := mem_agents.1 hu
    rw [hnone u q' hq'] at hstep
    cases hstep
  have hunfinished : ¬ s.finished = true := fun h => by
    rw [State.isFinished_of_finished h hq] at hfin
    cases hfin
  rw [step_of_noPort hp, hagents]
  exact if_neg hunfinished

/-- Settles O57: the holder has no step without an answer, the others none while it holds the lock, and its operation is
still running. -/
theorem silentTransportIsStuck : Obligations.SilentTransportIsStuck := by
  unfold Obligations.SilentTransportIsStuck
  intro s t op k b onFail rest hp hl hctl ha hothers
  obtain ⟨q, hq, hc⟩ := State.ctl?_eq_some.1 hctl
  refine step_stuck_of_no_step hp (fun u q' hq' => ?_) hq (by simp [Requester.isFinished, hc])
  by_cases hu : u = t
  · subst hu
    obtain rfl : q = q' := Option.some.inj (hq.symm.trans hq')
    exact Requester.hasStep_of_silent_transfer u hc ha
  · exact Requester.hasStep_of_waiting_or_finished u hl (hothers u q' hq' hu)

end Sys2Proof.Machine
end
